-- ==== Sys2Proof/Word.lean ====
section
/-! DEFINITION. The widths of the block's values (spec/00_scope.md rule R10). -/

namespace Sys2Proof

/-- Every byte of the ring, the message buffer and the wire is 8 bits (R10). -/
abbrev Byte := BitVec 8

/-- A fractional value, and `divn`: 16 bits unsigned (R10). -/
abbrev U16 := BitVec 16

/-- `for_ticks`, `start_tick`, `tim_us`, `fracn_i` and `fracn_rem`: 32 bits unsigned (R10). -/
abbrev U32 := BitVec 32

end Sys2Proof
end

