-- ==== Sys2Proof/Syntax.lean ====
section
/-! DEFINITION. The uplink commands, the block's instructions: one constructor per row of
spec/opcode_table.json (spec/30_encoding.md rules R92 to R100). -/

namespace Sys2Proof

/-- A PLLChange record: its six fields in the order of R23. On the wire `startTick` is relative to the back
slot's `fracn` length at the push; in a slot it is absolute (R184). -/
structure PllChange where
  /-- the number of ticks of the run, including the tick whose `step` programs it -/
  forTicks  : U32
  /-- the index in `fracn` of the run's first fractional value -/
  startTick : U32
  /-- the coarse divider, passed unchanged to the synthesizer -/
  divn      : U16
  /-- the VCO select -/
  vcosel    : Bool
  /-- the output divider -/
  divp      : Byte
  /-- the tick period in microseconds -/
  timUs     : U32
  deriving DecidableEq, Repr, Inhabited

/-- The uplink commands of the opcode map (R100). -/
inductive Instr where
  /-- `Ping`, tag 0x00 (R231) -/
  | ping
  /-- `PushPllChange`, tag 0x01 (R232); `change.startTick` is relative -/
  | pushPllChange (change : PllChange)
  /-- `PushFracn`, tag 0x02 (R233): the count and all 32 value slots -/
  | pushFracn (count : Byte) (values : List U16)
  /-- `ClearBuffers`, tag 0x03 (R234) -/
  | clearBuffers
  /-- `UploadDone`, tag 0x04 (R235) -/
  | uploadDone
  /-- `StartNow`, tag 0x05 (R236) -/
  | startNow
  /-- `StopNow`, tag 0x06 (R237) -/
  | stopNow
  /-- `SetLooping`, tag 0x07, reserved: the opaque bytes after the tag (R97, R238) -/
  | setLooping (payload : List Byte)
  /-- `EpochNow`, tag 0x08, reserved (R97, R239) -/
  | epochNow (payload : List Byte)
  /-- `StartAtEpoch`, tag 0x09, reserved (R97, R240) -/
  | startAtEpoch (payload : List Byte)
  deriving DecidableEq, Repr, Inhabited

end Sys2Proof
end

