-- ==== Sys2Proof/Config.lean ====
section
/-! DEFINITION. The parameters of the model (spec/00_scope.md rule R9), the constant `CHUNK`, the actions of the
agents (R8), and the two things the spec leaves wholly open: the environment's choices and a replaced
deserializer. The last two are opaque constants without a body. -/

namespace Sys2Proof

/-- `UPLOAD_OVERRUN_POLICY` (R9): what a loop boundary does while `uploading` holds. -/
inductive OverrunPolicy where
  /-- no swap and no fault: the active slot plays again (the default, 90_conflicts.md C1) -/
  | defer
  /-- raise `UPLOAD_OVERRUN` -/
  | fault
  deriving DecidableEq, Repr, Inhabited

/-- `DESER` (R9): which deserializer the block has. -/
inductive DeserChoice where
  /-- the layout of 30_encoding.md (R162), the default -/
  | standard
  /-- another one, of which the spec says nothing: `Config.replacedDeser` -/
  | replaced
  deriving DecidableEq, Repr, Inhabited

/-- The parameters of R9, fixed for one block. They stand in `State.config`, which no step writes, so that a
claim about every state is a claim about every value of the parameters. -/
structure Config where
  /-- `FRACN_CAP`: capacity of each slot's `fracn`, in entries -/
  fracnCap         : Nat
  /-- `PLL_CAP`: capacity of each slot's `pll`, in entries -/
  pllCap           : Nat
  /-- `RING_CAP`: capacity of the ByteRing, in bytes -/
  ringCap          : Nat
  /-- `MSG_CAP`: capacity of the message buffer, in encoded bytes without the terminator -/
  msgCap           : Nat
  /-- `UPLOAD_OVERRUN_POLICY` -/
  overrun          : OverrunPolicy
  /-- `LAUNCH_IS_BOUNDARY` -/
  launchIsBoundary : Bool
  /-- `TIMER_CLK`, in Hz; no rule depends on it (R9, R280, 93_implementation_defined.md) -/
  timerClk         : Nat
  /-- `DESER` -/
  deser            : DeserChoice
  deriving DecidableEq, Repr, Inhabited

/-- `CHUNK`, the number of value slots in one `PushFracn`: 32, fixed by the source (R9). -/
def chunk : Nat := 32

/-- The constraints of R9: every capacity is at least 1 and `MSG_CAP` at least 67 (R98). That `FRACN_CAP` is at
most 2^32 is DEDUCED (assumption log 3): `fracn_i` is a 32-bit index with legal values 0 to `FRACN_CAP`-1 (R40). -/
abbrev Config.Valid (c : Config) : Prop :=
  1 ≤ c.fracnCap ∧ c.fracnCap ≤ 2 ^ 32 ∧ 1 ≤ c.pllCap ∧ 1 ≤ c.ringCap ∧ 67 ≤ c.msgCap

/-- The values 95_test_vectors.md section 0 uses, with the spec's defaults for the policies. DESIGN CHOICE
(assumption log 1); `timerClk` is the one at which a reload count is one microsecond (R280). -/
def Config.vectors : Config :=
  { fracnCap := 4096, pllCap := 64, ringCap := 256, msgCap := 128, overrun := .defer, launchIsBoundary := true,
    timerClk := 1000000, deser := .standard }

/-- One atomic action of one agent (R8, R70), or the host's sending of bytes. -/
inductive Action where
  /-- the host sends bytes: they wait on the line until `RX` takes them (R311) -/
  | hostSend (bytes : List Byte)
  /-- `RX`: the UART-receive interrupt takes the next byte of the line (R136) -/
  | rx
  /-- `FG.drain` with the choice `n`; an `n` above `ring_count` is the choice `n = ring_count` (R133, R151) -/
  | drain (n : Nat)
  /-- `FG.dispatch` (R230) -/
  | dispatch
  /-- `TICK`: one timer expiry (R200) -/
  | tick
  /-- `LOCK`: the synthesizer reports lock (R197) -/
  | lock
  deriving DecidableEq, Repr, Inhabited

/-- FREE VALUE (assumption log 2): the choice the environment and the scheduler make when the agenda of the state
lists none. R269 fixes no order of the enabled agents and R266 none of the environment's choices, so nothing
constrains it. -/
opaque Config.environment : Nat → Action

/-- FREE VALUE (assumption log 4): what a replaced `DESER` answers for a payload (R9). Nothing constrains it. -/
opaque Config.replacedDeser : List Byte → Option Instr

end Sys2Proof
end

