-- ==== Sys2Proof/WellFormed.lean ====
section
/-! DEFINITION. Which terms of `Instr` a payload can carry (spec/30_encoding.md rules R93 to R97, R101). -/

namespace Sys2Proof

/-- `count` is at most 32 (R95, R101 (h)). -/
def countInRange (count : Byte) : Bool := decide (count.toNat ≤ chunk)

/-- All 32 value slots are always present (R95). -/
def allSlotsPresent (values : List U16) : Bool := values.length == chunk

/-- A command that some payload of R92 to R97 carries. A `PushPllChange` may hold any field values (R232), a
reserved command any opaque bytes (R97). -/
def wellFormed : Instr → Bool
  | .ping => true
  | .pushPllChange _ => true
  | .pushFracn count values => countInRange count && allSlotsPresent values
  | .clearBuffers => true
  | .uploadDone => true
  | .startNow => true
  | .stopNow => true
  | .setLooping _ => true
  | .epochNow _ => true
  | .startAtEpoch _ => true

end Sys2Proof
end

