-- ==== Sys2Proof/Decode.lean ====
section
/-! DEFINITION. COBS, the default deserializer and the frame decoder (spec/41_link.md rules R156 to R162), and
after them the encoder written from the same tables (spec/30_encoding.md rules R90 to R105). -/

namespace Sys2Proof

/-! ## Byte assembly (R11, R99) -/

/-- `LE16(b0, b1)` (R11). -/
def le16 (b0 b1 : Byte) : U16 := BitVec.ofNat 16 (b0.toNat + 256 * b1.toNat)

/-- `LE32(b0, b1, b2, b3)` (R11). -/
def le32 (b0 b1 b2 b3 : Byte) : U32 :=
  BitVec.ofNat 32 (b0.toNat + 256 * b1.toNat + 65536 * b2.toNat + 16777216 * b3.toNat)

/-- Consecutive pairs of bytes as little-endian 16-bit values (R95). -/
def le16s : List Byte → List U16
  | b0 :: b1 :: rest => le16 b0 b1 :: le16s rest
  | _ => []

/-! ## Decoding -/

/-- Why a frame is rejected: the cases of R101, by name. Case (c), an encoded part above `MSG_CAP`, never reaches
the decoder: `msg_ovf` records it (R153). -/
inductive Reject where
  /-- R101 (a), R161 (a): the encoded part is empty -/
  | emptyEncoded
  /-- R101 (b), R161 (b) and (c): a zero code byte, or a code byte that needs more bytes than remain -/
  | malformedStuffing
  /-- R101 (d): the decoded payload is empty -/
  | emptyPayload
  /-- R101 (e): the tag is 0x0A to 0xFF -/
  | unknownTag
  /-- R101 (f): the payload length differs from its tag's -/
  | wrongLength
  /-- R101 (g): `vcosel` is neither 0x00 nor 0x01 -/
  | badVcosel
  /-- R101 (h): `count` is above 32 -/
  | badCount
  /-- a replaced `DESER` fails (R9) -/
  | replacedDeserFails
  deriving DecidableEq, Repr

/-- What a decoder answers: a command, or a rejection with its reason. -/
inductive Decoded where
  | ok (cmd : Instr)
  | reject (why : Reject)
  deriving DecidableEq, Repr

/-- The command, if there is one. -/
def Decoded.toOption : Decoded → Option Instr
  | .ok cmd => some cmd
  | .reject _ => none

/-- The loop of `COBS_DECODE` (R160) on the bytes from position `i` on; `fuel` bounds the number of blocks. -/
def cobsBlocks : Nat → List Byte → Option (List Byte)
  | _, [] => some []
  | 0, _ :: _ => none
  | fuel + 1, c :: rest =>
    if c = 0x00#8 then none
    else if rest.length < c.toNat - 1 then none
    else
      let data := rest.take (c.toNat - 1)
      let after := rest.drop (c.toNat - 1)
      let zero : List Byte := if c.toNat < 255 ∧ after ≠ [] then [0x00#8] else []
      (cobsBlocks fuel after).map fun out => data ++ zero ++ out

/-- `COBS_DECODE` (R160, R161). -/
def cobsDecode (e : List Byte) : Option (List Byte) :=
  if e = [] then none else cobsBlocks e.length e

/-- The fields of a `PushPllChange` payload after its tag (R94, R162). -/
def deserPllChange : List Byte → Decoded
  | [f0, f1, f2, f3, s0, s1, s2, s3, n0, n1, v, p, t0, t1, t2, t3] =>
    if 1 < v.toNat then .reject .badVcosel
    else .ok (.pushPllChange
      { forTicks := le32 f0 f1 f2 f3, startTick := le32 s0 s1 s2 s3, divn := le16 n0 n1, vcosel := v == 0x01#8,
        divp := p, timUs := le32 t0 t1 t2 t3 })
  | _ => .reject .wrongLength

/-- The fields of a `PushFracn` payload after its tag (R95, R162). -/
def deserFracn : List Byte → Decoded
  | [] => .reject .wrongLength
  | count :: slots =>
    if slots.length ≠ 2 * chunk then .reject .wrongLength
    else if chunk < count.toNat then .reject .badCount
    else .ok (.pushFracn count (le16s slots))

/-- A command whose payload is its tag alone (R93). -/
def deserBare (cmd : Instr) (fields : List Byte) : Decoded :=
  if fields = [] then .ok cmd else .reject .wrongLength

/-- `DESER`, the default deserializer (R162), by the opcode map of R100. -/
def deser : List Byte → Decoded
  | [] => .reject .emptyPayload
  | tag :: fields =>
    if tag = 0x00#8 then deserBare .ping fields
    else if tag = 0x01#8 then deserPllChange fields
    else if tag = 0x02#8 then deserFracn fields
    else if tag = 0x03#8 then deserBare .clearBuffers fields
    else if tag = 0x04#8 then deserBare .uploadDone fields
    else if tag = 0x05#8 then deserBare .startNow fields
    else if tag = 0x06#8 then deserBare .stopNow fields
    else if tag = 0x07#8 then .ok (.setLooping fields)
    else if tag = 0x08#8 then .ok (.epochNow fields)
    else if tag = 0x09#8 then .ok (.startAtEpoch fields)
    else .reject .unknownTag

/-- The deserializer the block has (R9). -/
def deserBy : DeserChoice → List Byte → Decoded
  | .standard, p => deser p
  | .replaced, p =>
    match Config.replacedDeser p with
    | some cmd => .ok cmd
    | none => .reject .replacedDeserFails

/-- `Decode(e) = DESER(COBS_DECODE(e))` (R156). -/
def decodeFrame (choice : DeserChoice) (e : List Byte) : Decoded :=
  if e = [] then .reject .emptyEncoded
  else match cobsDecode e with
    | none => .reject .malformedStuffing
    | some p => deserBy choice p

/-! ## Encoding, the host's side -/

/-- The two bytes of a 16-bit wire field, little-endian (R64). -/
def bytes16 (v : U16) : List Byte := [BitVec.ofNat 8 v.toNat, BitVec.ofNat 8 (v.toNat / 256)]

/-- The four bytes of a 32-bit wire field, little-endian (R64). -/
def bytes32 (v : U32) : List Byte :=
  [BitVec.ofNat 8 v.toNat, BitVec.ofNat 8 (v.toNat / 256), BitVec.ofNat 8 (v.toNat / 65536),
    BitVec.ofNat 8 (v.toNat / 16777216)]

/-- The tag of a command (R100). -/
def tagOf : Instr → Byte
  | .ping => 0x00#8
  | .pushPllChange _ => 0x01#8
  | .pushFracn _ _ => 0x02#8
  | .clearBuffers => 0x03#8
  | .uploadDone => 0x04#8
  | .startNow => 0x05#8
  | .stopNow => 0x06#8
  | .setLooping _ => 0x07#8
  | .epochNow _ => 0x08#8
  | .startAtEpoch _ => 0x09#8

/-- The payload bytes after the tag (R93 to R97). -/
def fieldBytes : Instr → List Byte
  | .ping => []
  | .pushPllChange c =>
    bytes32 c.forTicks ++ bytes32 c.startTick ++ bytes16 c.divn ++ [if c.vcosel then 0x01#8 else 0x00#8] ++
      [c.divp] ++ bytes32 c.timUs
  | .pushFracn count values => count :: values.flatMap bytes16
  | .clearBuffers => []
  | .uploadDone => []
  | .startNow => []
  | .stopNow => []
  | .setLooping payload => payload
  | .epochNow payload => payload
  | .startAtEpoch payload => payload

/-- The payload of a command: its tag, then its fields with no padding (R92). -/
def payload (i : Instr) : List Byte := tagOf i :: fieldBytes i

/-- The loop of `COBS` (R105): `blk` is the block being gathered. -/
def cobsFrom (blk : List Byte) : List Byte → List Byte
  | [] => BitVec.ofNat 8 (blk.length + 1) :: blk
  | x :: rest =>
    if x = 0x00#8 then BitVec.ofNat 8 (blk.length + 1) :: (blk ++ cobsFrom [] rest)
    else if blk.length + 1 = 254 then 0xFF#8 :: (blk ++ [x] ++ cobsFrom [] rest)
    else cobsFrom (blk ++ [x]) rest

/-- `COBS(p)` (R105). -/
def cobsEncode (p : List Byte) : List Byte := cobsFrom [] p

/-- The encoded part of a command's frame. -/
def encode (i : Instr) : List Byte := cobsEncode (payload i)

/-- A command's frame: `COBS(payload) ++ [0x00]` (R90). -/
def frame (i : Instr) : List Byte := encode i ++ [0x00#8]

/-! ## The opcode table's words -/

/-- The payload length R100 gives a tag, where it is fixed. -/
def fixedLength (tag : Nat) : Option Nat :=
  if tag = 1 then some 17 else if tag = 2 then some 66 else if tag ≤ 6 then some 1 else none

/-- The first `n` bytes of `w`, the least significant first. -/
def leBytes : Nat → Nat → List Byte
  | 0, _ => []
  | n + 1, w => BitVec.ofNat 8 w :: leBytes n (w / 256)

/-- The payload whose bits are `w`: the `nbits` the table gives, then zeros up to the tag's payload length. -/
def tablePayload (nbits w : Nat) : List Byte :=
  leBytes (max ((nbits + 7) / 8) ((fixedLength (w % 256)).getD 1)) w

/-- The command the decoder reads from the payload whose bits are `w`, numbered as spec/opcode_table.json numbers
them (bit 0 is the least significant bit of payload byte 0). The payload is stuffed by R105 and read back through
the whole of `Decode` (R156). -/
def decodeTableWord (nbits w : Nat) : Option Instr :=
  (decodeFrame .standard (cobsEncode (tablePayload nbits (w % 2 ^ nbits)))).toOption

end Sys2Proof
end

