-- ==== Sys2Proof/Machine/State.lean ====
section
/-! DEFINITION. The state of the block (spec/10_state.md), as plain data, and its reset value (rules R40, R42, R300). -/

namespace Sys2Proof.Machine

/-- A byte memory: pairs of an index and the byte there, the indices strictly rising. An index that is not listed
has not been written and holds NO value (R42: a model must give the unspecified bytes no value). -/
abbrev Memory := List Host.Cell

/-- The canonical form of a memory: strictly rising indices. Because an unlisted index holds no value, no entry
can equal what an unlisted index reads as. -/
def Memory.wf : Memory → Bool
  | [] => true
  | [_] => true
  | (a, _) :: (b, v) :: rest => decide (a < b) && Memory.wf ((b, v) :: rest)

/-- The number of a sequence slot: `active` is a 1-bit element (R25). -/
inductive SlotId where
  | zero
  | one
  deriving DecidableEq, Repr, Inhabited

/-- One sequence slot (R22, R61). -/
structure Slot where
  /-- the fractional values -/
  fracn : List U16
  /-- the PLLChange records, with absolute `startTick` -/
  pll   : List PllChange
  deriving DecidableEq, Repr, Inhabited

/-- The tick timer as the block has programmed it (R34). -/
inductive TmrMode where
  | off
  | periodic
  | draining
  deriving DecidableEq, Repr, Inhabited

/-- Who called `step` (R190). -/
inductive Origin where
  | fg
  | tick
  deriving DecidableEq, Repr, Inhabited

/-- `phase` (R36): `LockWait` holds the change being programmed. -/
inductive Phase where
  | normal
  | lockWait (origin : Origin) (change : PllChange)
  deriving DecidableEq, Repr, Inhabited

/-- The fault codes 1 to 9 of R261, in their order. -/
inductive FaultCode where
  | ringOverflow
  | fracnCapacity
  | pllCapacity
  | uploadOverrun
  | emptyProgram
  | invalidChange
  | clearWhileRunning
  | startOverflow
  | zeroPeriod
  deriving DecidableEq, Repr, Inhabited

/-- The events of the port trace (R281 to R284). -/
inductive PortEvent where
  | synDisable
  | synConfigure (divn : U16) (divp : Byte) (vcosel : Bool)
  | synSetFractional (value : U16)
  | synEnable
  | synOutputEnable
  | tmrSetPeriod (period : U32)
  | tmrStart
  | tmrStartOneshotThenStop
  | uartTx (byte : Byte)
  deriving DecidableEq, Repr, Inhabited

/-- The state. The first group is the spec's (R40 names every element, R41 the port trace; the transmit stream is a
part of the trace, see `State.txStream`). The last four fields are the MODEL's own: the parameters of the block and
the environment's part, which R44 makes arguments of the step relation (assumption log 1 and 2). -/
structure State where
  /-- `slot[0]` (R22) -/
  slot0      : Slot
  /-- `slot[1]` (R22) -/
  slot1      : Slot
  /-- `active` (R25) -/
  active     : SlotId
  /-- `pllchangei`, -1 for "not started" (R26) -/
  pllchangei : Int
  /-- `fracn_i`, the index of the value most recently applied (R29) -/
  fracnI     : U32
  /-- `fracn_rem` (R30) -/
  fracnRem   : U32
  /-- `is_running` (R27) -/
  isRunning  : Bool
  /-- `uploading` (R28) -/
  uploading  : Bool
  /-- `RingMem` (R31, R62) -/
  ringMem    : Memory
  /-- `ring_rd` (R31) -/
  ringRd     : Nat
  /-- `ring_wr` (R31) -/
  ringWr     : Nat
  /-- `ring_count` (R31) -/
  ringCount  : Nat
  /-- `MsgBuf` (R32, R63) -/
  msgBuf     : Memory
  /-- `msg_len` (R32) -/
  msgLen     : Nat
  /-- `msg_ovf` (R32) -/
  msgOvf     : Bool
  /-- `pending_cmd` (R33) -/
  pendingCmd : Option Instr
  /-- `tmr_mode` (R34) -/
  tmrMode    : TmrMode
  /-- `tmr_reload` (R34) -/
  tmrReload  : U32
  /-- `phase` (R36) -/
  phase      : Phase
  /-- `halted` (R37) -/
  halted     : Bool
  /-- `fault_code` (R37) -/
  faultCode  : Option FaultCode
  /-- the port trace, oldest event first (R41) -/
  trace      : List PortEvent
  /-- MODEL: the parameters of R9; no step writes them -/
  config     : Config
  /-- MODEL: the bytes the host has sent and `RX` has not taken yet, oldest first (R44, R311) -/
  line       : List Byte
  /-- MODEL: the actions chosen to come next, in order (R44, R269) -/
  agenda     : List Action
  /-- MODEL: how many actions have been drawn from `Config.environment` -/
  draws      : Nat
  deriving DecidableEq, Repr

/-- Why a step can have no next state. Every one of these is an access to an entry that does not exist, or to a byte
that nothing has written; the spec says none of them occurs (R42, R61), and none does from a state that meets the
invariants of Safety.lean. Each is SAFE: the model stops where the spec has no value to give. -/
inductive Fault where
  /-- raised by `step` when `pllchangei` is no index of `A.pll` after the checks of R193; only a `pllchangei` below
  -1 leads here. Safe (R61). -/
  | noSuchPllChange
  /-- raised by the tick handler when `fracn_i + 1` is no index of `A.fracn`, or no 32-bit index. Safe (R61, R200). -/
  | noSuchFracn
  /-- raised by `FG.drain` when a byte below `ring_count` was never written. Safe (R42, R62). -/
  | unwrittenRingByte
  /-- raised by the frame end when a byte below `msg_len` was never written. Safe (R42, R63). -/
  | unwrittenMsgByte
  deriving DecidableEq, Repr

/-- Why an instruction has no meaning in the model. -/
inductive Refusal where
  /-- raised by an arm of `exec` whose instruction has no meaning yet; no arm is left that does. Safe. -/
  | notModelled (mnemonic : String)
  deriving DecidableEq, Repr

/-- An empty slot. -/
def Slot.empty : Slot := { fracn := [], pll := [] }

/-- The state right after reset (R40, R42, R300). `tmrReload` has no reset value in the spec: zero is a DESIGN CHOICE
(assumption log 5). `RingMem` and `MsgBuf` list nothing. The parameters are those of 95_test_vectors.md (assumption
log 1); the agenda is empty, so that the environment's free choices follow (assumption log 2). -/
def State.reset : State :=
  { slot0 := .empty, slot1 := .empty, active := .zero, pllchangei := -1, fracnI := 0, fracnRem := 0,
    isRunning := false, uploading := false,
    ringMem := [], ringRd := 0, ringWr := 0, ringCount := 0,
    msgBuf := [], msgLen := 0, msgOvf := false, pendingCmd := none,
    tmrMode := .off, tmrReload := 0, phase := .normal, halted := false, faultCode := none, trace := [],
    config := .vectors, line := [], agenda := [], draws := 0 }

end Sys2Proof.Machine
end

