-- ==== Sys2Proof/Machine/Ops.lean ====
section
/-! DEFINITION. The named operations over the state's memories, slots and port trace, and the raising of a fault
(spec/20_memory.md, spec/60_exceptions.md). -/

namespace Sys2Proof.Machine

/-- The outcome of one atomic action. -/
abbrev Res := Host.Outcome State Fault Refusal

/-- Do `f` from the state `r` leads to; a fault or refusal of `r` stands. -/
def andThen (r : Res) (f : State → Res) : Res :=
  match r with
  | .next s => f s
  | .fault why => .fault why
  | .refused why => .refused why

/-! ## Byte memories (R62, R63) -/

/-- The byte at index `i`, if one has been written there. -/
def memRead : Memory → Nat → Option Byte
  | [], _ => none
  | (a, b) :: rest, i => if i = a then some b else memRead rest i

/-- Write `b` at index `i`, keeping the indices strictly rising. -/
def memWrite : Memory → Nat → Byte → Memory
  | [], i, b => [(i, b)]
  | (a, c) :: rest, i, b =>
    if i < a then (i, b) :: (a, c) :: rest
    else if i = a then (i, b) :: rest
    else (a, c) :: memWrite rest i b

/-- The `n` bytes from index `i` on, if all of them have been written. -/
def memReadRange (m : Memory) : Nat → Nat → Option (List Byte)
  | _, 0 => some []
  | i, n + 1 =>
    match memRead m i with
    | none => none
    | some b => (memReadRange m (i + 1) n).map fun bs => b :: bs

/-! ## Slots (R22, R25, R61) -/

/-- The other slot number: `1 - active`. -/
def SlotId.other : SlotId → SlotId
  | .zero => .one
  | .one => .zero

/-- `slot[k]`. -/
def State.slot (s : State) : SlotId → Slot
  | .zero => s.slot0
  | .one => s.slot1

/-- Write `slot[k]`. -/
def State.setSlot (s : State) (k : SlotId) (v : Slot) : State :=
  match k with
  | .zero => { s with slot0 := v }
  | .one => { s with slot1 := v }

/-- `A`, the active slot (R11, R25). -/
def State.slotA (s : State) : Slot := s.slot s.active

/-- `B`, the back slot (R11, R25). -/
def State.slotB (s : State) : Slot := s.slot s.active.other

/-- Write the back slot. -/
def State.setB (s : State) (v : Slot) : State := s.setSlot s.active.other v

/-- `A.pll[i]` for a signed index, if it exists (R61). -/
def State.changeAt (s : State) (i : Int) : Option PllChange :=
  if i < 0 then none else s.slotA.pll[i.toNat]?

/-- `A.fracn[i]`, if it exists (R61). -/
def State.valueAt (s : State) (i : Nat) : Option U16 := s.slotA.fracn[i]?

/-! ## Ports and replies (R41, R281 to R284) -/

/-- `emit P.op(args)`: append one event to the port trace (R11, R41). -/
def emit (e : PortEvent) (s : State) : State := { s with trace := s.trace ++ [e] }

/-- Several events, the first of the list first. -/
def emitAll (es : List PortEvent) (s : State) : State := { s with trace := s.trace ++ es }

/-- `reply(b)`: transmit one byte, which is also the port event `UART.tx(b)` (R11, R284). -/
def reply (b : Byte) (s : State) : State := emit (.uartTx b) s

/-- The byte of a `UART.tx` event. -/
def PortEvent.txByte : PortEvent → Option Byte
  | .uartTx b => some b
  | _ => none

/-- The transmit stream: the reply bytes alone, which is the `UART.tx` part of the trace (R41). -/
def State.txStream (s : State) : List Byte := s.trace.filterMap PortEvent.txByte

/-! ## Faults (R261, R262)

An interrupt saves nothing and uses no vector (R271), and the block has no return instruction (R272): a handler is one
whole action, after which the other agents are enabled as before. Raising a fault is the one exception there is. -/

/-- The number of a fault code (R261). -/
def FaultCode.number : FaultCode → Nat
  | .ringOverflow => 1
  | .fracnCapacity => 2
  | .pllCapacity => 3
  | .uploadOverrun => 4
  | .emptyProgram => 5
  | .invalidChange => 6
  | .clearWhileRunning => 7
  | .startOverflow => 8
  | .zeroPeriod => 9

/-- `raise Fault(code)` (R262): the block is halted with that code. It emits nothing and sends nothing; what the
action wrote before stands. -/
def raiseFault (code : FaultCode) (s : State) : State := { s with halted := true, faultCode := some code }

end Sys2Proof.Machine
end

