-- ==== Sys2Proof/Machine/Flags.lean ====
section
/-! DEFINITION. The boolean status elements (spec/10_state.md rule R39) and the conditions computed from the state:
interrupt enable (R38), loop boundary (R190), pending upload (R191), validity (R24). -/

namespace Sys2Proof.Machine

/-- Write `is_running`: set by `launch`, cleared by `stop` (R27). -/
def setRunning (v : Bool) (s : State) : State := { s with isRunning := v }

/-- Write `uploading`: set by the pushes, cleared by `notify_upload_done` (R28). -/
def setUploading (v : Bool) (s : State) : State := { s with uploading := v }

/-- Write `msg_ovf`: set by an overflow of the frame, cleared at its end (R39). -/
def setMsgOvf (v : Bool) (s : State) : State := { s with msgOvf := v }

/-- Interrupts are enabled between two steps exactly when `phase = Normal` (R38, R268). -/
def interruptsEnabled (s : State) : Bool := s.phase == .normal

/-- An agent of the block other than `LOCK` may step: `halted = false` and `phase = Normal` (R266). -/
def ready (s : State) : Bool := !s.halted && interruptsEnabled s

/-- The step that comes next is a loop boundary (R190, R14). -/
def atBoundary (s : State) : Bool :=
  (s.pllchangei == -1 && s.config.launchIsBoundary) || decide ((s.slotA.pll.length : Int) ≤ s.pllchangei + 1)

/-- A boundary now raises `UPLOAD_OVERRUN`: an upload is open and the policy is `Fault` (R191). -/
def overrunFaults (s : State) : Bool := s.uploading && s.config.overrun == .fault

/-- A pending upload: the back slot holds a PLLChange and no upload is open (R14, R191). -/
def pendingUpload (s : State) : Bool := !s.uploading && !s.slotB.pll.isEmpty

/-- A PLLChange is valid in its slot (R24); the sum is not bounded to 32 bits (R205). -/
def changeValid (c : PllChange) (slot : Slot) : Bool :=
  decide (1 ≤ c.forTicks.toNat) && decide (c.startTick.toNat + c.forTicks.toNat ≤ slot.fracn.length)

/-- Nothing is in flight on the link and no foreground action is enabled: the premise `Quiescent` of R302. A byte on
the line has been sent and not taken, so it is in flight (assumption log 2). -/
def quiescent (s : State) : Bool :=
  !s.halted && interruptsEnabled s && s.line.isEmpty && s.ringCount == 0 && s.msgLen == 0 && !s.msgOvf &&
    s.pendingCmd.isNone

end Sys2Proof.Machine
end

