-- ==== Sys2Proof/Machine/Operands.lean ====
section
/-! DEFINITION. The operands as the commands use them: the rebased start index (spec/42_sequencer.md rule R184) and
the used values of a chunk (spec/43_commands.md rule R233). -/

namespace Sys2Proof.Machine

/-- The values a `PushFracn` appends: the first `count` of its slots (R233). DESIGN CHOICE (assumption log 17): where the
count is above 32 or there are other than 32 values, which only a replaced `DESER` can answer and for which the spec gives
no meaning, the first min(count, number of values) values. -/
def usedValues (count : Byte) (values : List U16) : List U16 := values.take count.toNat

/-- `c.start_tick + len(B.fracn)`, as an unbounded integer (R184, R205). -/
def rebasedStart (c : PllChange) (s : State) : Nat := c.startTick.toNat + s.slotB.fracn.length

/-- The rebased index does not fit 32 bits (R184). -/
def startOverflows (c : PllChange) (s : State) : Bool := decide (2 ^ 32 - 1 < rebasedStart c s)

/-- The record as the back slot stores it (R184). -/
def rebase (c : PllChange) (s : State) : PllChange := { c with startTick := BitVec.ofNat 32 (rebasedStart c s) }

end Sys2Proof.Machine
end

