-- ==== Sys2Proof/Machine/Ring.lean ====
section
/-! DEFINITION. The ByteRing and the UART-receive interrupt (spec/40_byte_ring.md). -/

namespace Sys2Proof.Machine

/-- `RING_CAP - ring_count`, the free space of the ring. -/
def ringFree (s : State) : Nat := s.config.ringCap - s.ringCount

/-- The writes of `RingWrite`: `data` at the indices from `i` on, modulo the capacity (R131). -/
def ringStore (cap : Nat) : Memory → Nat → List Byte → Memory
  | m, _, [] => m
  | m, i, b :: rest => ringStore cap (memWrite m (i % cap) b) (i + 1) rest

/-- How many bytes of `data` a `RingWrite` accepts: its return value (R131). -/
def ringAccepts (s : State) (data : List Byte) : Nat := min data.length (ringFree s)

/-- `RingWrite(data)` (R131); what it returns is `ringAccepts s data`. -/
def ringWrite (s : State) (data : List Byte) : State :=
  let k := ringAccepts s data
  { s with ringMem := ringStore s.config.ringCap s.ringMem s.ringWr (data.take k),
           ringWr := (s.ringWr + k) % s.config.ringCap,
           ringCount := s.ringCount + k }

/-- The bytes at the indices from `i` on, modulo the capacity: at most `m`, and none after the first that equals
`delim` (R133). No value where a byte was never written (R42). -/
def ringScan (cap : Nat) (mem : Memory) (delim : Option Byte) : Nat → Nat → Option (List Byte)
  | _, 0 => some []
  | i, m + 1 =>
    match memRead mem (i % cap) with
    | none => none
    | some b => if delim = some b then some [b] else (ringScan cap mem delim (i + 1) m).map fun bs => b :: bs

/-- What a `RingRead(max, delim)` returns (R133). -/
def ringTaken (s : State) (max : Nat) (delim : Option Byte) : Option (List Byte) :=
  ringScan s.config.ringCap s.ringMem delim s.ringRd (min max s.ringCount)

/-- The state after a `RingRead` that returns `k` bytes (R133). -/
def ringAdvance (s : State) (k : Nat) : State :=
  { s with ringRd := (s.ringRd + k) % s.config.ringCap, ringCount := s.ringCount - k }

/-- `RingRead(max, delim)`: the bytes it returns and the state it leaves (R133). -/
def ringRead (s : State) (max : Nat) (delim : Option Byte) : Option (List Byte × State) :=
  (ringTaken s max delim).map fun out => (out, ringAdvance s out.length)

/-- `RX(b)` (R136): the byte goes into the ring, or `RING_OVERFLOW` is raised (R137). -/
def receiveByte (b : Byte) (s : State) : State :=
  if ringAccepts s [b] < 1 then raiseFault .ringOverflow s else ringWrite s [b]

end Sys2Proof.Machine
end

