-- ==== Sys2Proof/Machine/Link.lean ====
section
/-! DEFINITION. The Link: frame assembly, decoding and replies (spec/41_link.md). -/

namespace Sys2Proof.Machine

/-- The ack byte (R158). -/
def ackByte : Byte := 0x01#8

/-- The nack byte (R158). -/
def nackByte : Byte := 0x00#8

/-- The frame assembly is reset: `msg_len <- 0`, `msg_ovf <- false` (R155). -/
def resetAssembly (s : State) : State := setMsgOvf false { s with msgLen := 0 }

/-- `LinkAccept(b)` for a byte that is no terminator (R152, R153, R154). -/
def acceptByte (b : Byte) (s : State) : State :=
  if s.msgOvf then s
  else if s.msgLen < s.config.msgCap then { s with msgBuf := memWrite s.msgBuf s.msgLen b, msgLen := s.msgLen + 1 }
  else setMsgOvf true s

/-- The reply and the pending command a decoded frame leads to (R155, R157, R159). -/
def answerFrame (r : Decoded) (s : State) : State :=
  match r with
  | .ok cmd => { reply ackByte s with pendingCmd := some cmd }
  | .reject _ => reply nackByte s

/-- `LinkAccept(0x00)`, the end of a frame (R155). -/
def frameEnd (s : State) : Res :=
  if s.msgOvf then .next (resetAssembly (reply nackByte s))
  else match memReadRange s.msgBuf 0 s.msgLen with
    | none => .fault .unwrittenMsgByte
    | some e => .next (resetAssembly (answerFrame (decodeFrame s.config.deser e) s))

/-- `LinkAccept(b)` (R152 to R155). -/
def linkAccept (b : Byte) (s : State) : Res :=
  if b = 0x00#8 then frameEnd s else .next (acceptByte b s)

/-- `LinkAccept` for each byte, in order (R151). -/
def linkAcceptAll : List Byte → State → Res
  | [], s => .next s
  | b :: rest, s => andThen (linkAccept b s) (linkAcceptAll rest)

/-- `FG.drain` with the choice `n` (R151). -/
def drain (n : Nat) (s : State) : Res :=
  match ringRead s n (some 0x00#8) with
  | none => .fault .unwrittenRingByte
  | some (bytes, s') => linkAcceptAll bytes s'

end Sys2Proof.Machine
end

