-- ==== Sys2Proof/Machine/Sequencer.lean ====
section
/-! DEFINITION. The sequencer's operations, the lock completion and the tick handler (spec/42_sequencer.md). -/

namespace Sys2Proof.Machine

/-! ## Upload -/

/-- `push_fracn(vals)` (R182). -/
def pushFracn (vals : List U16) (s : State) : State :=
  if s.config.fracnCap < s.slotB.fracn.length + vals.length then raiseFault .fracnCapacity s
  else (setUploading true s).setB { fracn := s.slotB.fracn ++ vals, pll := s.slotB.pll }

/-- `push_pllchange(c)` (R184). -/
def pushPllChange (c : PllChange) (s : State) : State :=
  if s.slotB.pll.length = s.config.pllCap then raiseFault .pllCapacity s
  else if startOverflows c s then raiseFault .startOverflow s
  else (setUploading true s).setB { fracn := s.slotB.fracn, pll := s.slotB.pll ++ [rebase c s] }

/-- `notify_upload_done()` (R186). -/
def notifyUploadDone (s : State) : State := setUploading false s

/-- `clear_buffers()` (R187). -/
def clearBuffers (s : State) : State :=
  if s.isRunning then raiseFault .clearWhileRunning s else s.setB .empty

/-! ## Step -/

/-- The swap: `active` flips, and the new back slot is emptied (R191). -/
def swap (s : State) : State := ({ s with active := s.active.other }).setB .empty

/-- `SwapDecision()` where it raises nothing (R191). -/
def swapDecision (s : State) : State := if pendingUpload s then swap s else s

/-- What `step` writes and emits before the lock wait (R195, R196); `v` is `A.fracn[c.start_tick]`. -/
def programChange (origin : Origin) (c : PllChange) (v : U16) (s : State) : State :=
  emitAll [.synDisable, .synConfigure c.divn c.divp c.vcosel, .synSetFractional v, .synEnable]
    { s with fracnI := c.startTick, fracnRem := BitVec.ofNat 32 (c.forTicks.toNat - 1), phase := .lockWait origin c }

/-- `step` from the checks on, `pllchangei` being chosen (R193, R194, R195, R196). -/
def playCurrent (origin : Origin) (s : State) : Res :=
  if s.slotA.pll = [] then .next (raiseFault .emptyProgram s)
  else match s.changeAt s.pllchangei with
    | none => .fault .noSuchPllChange
    | some c =>
      if !changeValid c s.slotA then .next (raiseFault .invalidChange s)
      else if c.timUs = 0#32 then .next (raiseFault .zeroPeriod s)
      else match s.valueAt c.startTick.toNat with
        | none => .fault .noSuchFracn
        | some v => .next (programChange origin c v s)

/-- The choice of the next change: at a boundary the swap decision and index 0, elsewhere the next index (R192). -/
def advance (s : State) : State :=
  if atBoundary s then { swapDecision s with pllchangei := 0 } else { s with pllchangei := s.pllchangei + 1 }

/-- `step(origin)` up to its lock wait (R190, R191). -/
def stepSeq (origin : Origin) (s : State) : Res :=
  if atBoundary s && overrunFaults s then .next (raiseFault .uploadOverrun s) else playCurrent origin (advance s)

/-- `LOCK`, the completion of a lock wait for the change `c` (R197). -/
def lockDone (c : PllChange) (s : State) : State :=
  emitAll [.synOutputEnable, .tmrSetPeriod c.timUs, .tmrStart]
    { s with tmrReload := c.timUs, tmrMode := .periodic, phase := .normal }

/-! ## Launch and stop -/

/-- `stop()` (R189). -/
def stop (s : State) : State :=
  if s.isRunning then emit .tmrStartOneshotThenStop (setRunning false { s with tmrMode := .draining }) else s

/-- What `launch` writes before its step: it stops, then starts from "not started" (R188). -/
def restart (s : State) : State := setRunning true { stop s with pllchangei := -1 }

/-- `launch()` (R188). -/
def launch (s : State) : Res := stepSeq .fg (restart s)

/-! ## Tick -/

/-- A one-shot expiry switches the timer off (R200, R283). -/
def expireOneshot (s : State) : State :=
  if s.tmrMode = .draining then { s with tmrMode := .off } else s

/-- Apply the next fractional value of the run (R200). No 32-bit index beyond the last one is formed (R205). -/
def applyNext (s : State) : Res :=
  match s.valueAt (s.fracnI.toNat + 1) with
  | none => .fault .noSuchFracn
  | some v =>
    if s.fracnI.toNat + 1 < 2 ^ 32 then
      .next (emit (.synSetFractional v)
        { s with fracnI := BitVec.ofNat 32 (s.fracnI.toNat + 1), fracnRem := BitVec.ofNat 32 (s.fracnRem.toNat - 1) })
    else .fault .noSuchFracn

/-- The tick handler after the timer's own part (R200). -/
def tickBody (s : State) : Res :=
  if !s.isRunning then .next s
  else if s.fracnRem = 0#32 then stepSeq .tick s
  else applyNext s

/-- `TICK` (R200). -/
def tickHandler (s : State) : Res := tickBody (expireOneshot s)

end Sys2Proof.Machine
end

