-- ==== Sys2Proof/Machine/Commands.lean ====
section
/-! DEFINITION. The meaning of each uplink command (spec/43_commands.md rules R231 to R240), executed after dispatch
has taken it from `pending_cmd` (R230). A fault of R261 is a next state: the block is halted with its code. -/

namespace Sys2Proof.Machine

/-- `Ping`: no operation (R231). -/
def execPing (s : State) : Res := .next s

/-- `PushPllChange` (R232, R184). -/
def execPushPllChange (change : PllChange) (s : State) : Res := .next (pushPllChange change s)

/-- `PushFracn` (R233, R182). -/
def execPushFracn (count : Byte) (values : List U16) (s : State) : Res := .next (pushFracn (usedValues count values) s)

/-- `ClearBuffers` (R234, R187). -/
def execClearBuffers (s : State) : Res := .next (clearBuffers s)

/-- `UploadDone` (R235, R186). -/
def execUploadDone (s : State) : Res := .next (notifyUploadDone s)

/-- `StartNow` (R236, R188). -/
def execStartNow (s : State) : Res := launch s

/-- `StopNow` (R237, R189). -/
def execStopNow (s : State) : Res := .next (stop s)

/-- `SetLooping`: a no-op, its operand ignored (R238). -/
def execSetLooping (_payload : List Byte) (s : State) : Res := .next s

/-- `EpochNow`: a no-op, its operand ignored (R239). -/
def execEpochNow (_payload : List Byte) (s : State) : Res := .next s

/-- `StartAtEpoch`: a no-op, its operand ignored; it does not launch (R240). -/
def execStartAtEpoch (_payload : List Byte) (s : State) : Res := .next s

end Sys2Proof.Machine
end

