-- ==== Sys2Proof/Machine/Dispatch.lean ====
section
/-! DEFINITION. One arm per command (spec/43_commands.md rule R230). -/

namespace Sys2Proof.Machine

def exec (i : Instr) (s : State) : Host.Outcome State Fault Refusal :=
  match i with
  | .ping => Sys2Proof.Machine.execPing s
  | .pushPllChange change => Sys2Proof.Machine.execPushPllChange change s
  | .pushFracn count values => Sys2Proof.Machine.execPushFracn count values s
  | .clearBuffers => Sys2Proof.Machine.execClearBuffers s
  | .uploadDone => Sys2Proof.Machine.execUploadDone s
  | .startNow => Sys2Proof.Machine.execStartNow s
  | .stopNow => Sys2Proof.Machine.execStopNow s
  | .setLooping payload => Sys2Proof.Machine.execSetLooping payload s
  | .epochNow payload => Sys2Proof.Machine.execEpochNow payload s
  | .startAtEpoch payload => Sys2Proof.Machine.execStartAtEpoch payload s

end Sys2Proof.Machine
end

