-- ==== Sys2Proof/Machine/Agents.lean ====
section
/-! DEFINITION. The agents: when each may step and what its step does (spec/60_exceptions.md rules R266 to R270), how
the next action is chosen, and how a command is placed for the next step. -/

namespace Sys2Proof.Machine

/-- The enabling conditions of R266. The host may always send. A drain needs a choice `n` of at least 1 (R151). -/
def enabled : Action → State → Bool
  | .hostSend _, _ => true
  | .rx, s => ready s && !s.line.isEmpty
  | .drain n, s => ready s && s.pendingCmd.isNone && decide (0 < s.ringCount) && decide (1 ≤ n)
  | .dispatch, s => ready s && s.pendingCmd.isSome
  | .tick, s => ready s && s.tmrMode != .off
  | .lock, s => !s.halted && s.phase != .normal

/-- The host's bytes join the line, behind those still waiting there. -/
def sendBytes (bytes : List Byte) (s : State) : State := { s with line := s.line ++ bytes }

/-- `RX` takes the next byte of the line (R136). -/
def receiveNext (s : State) : State :=
  match s.line with
  | [] => s
  | b :: rest => receiveByte b { s with line := rest }

/-- `FG.dispatch` (R230): the command is taken from `pending_cmd`, then executed. -/
def dispatch (s : State) : Res :=
  match s.pendingCmd with
  | none => .next s
  | some cmd => exec cmd { s with pendingCmd := none }

/-- `LOCK` (R197). -/
def lockStep (s : State) : State :=
  match s.phase with
  | .normal => s
  | .lockWait _ c => lockDone c s

/-- What an enabled action does. -/
def fire : Action → State → Res
  | .hostSend bytes, s => .next (sendBytes bytes s)
  | .rx, s => .next (receiveNext s)
  | .drain n, s => drain n s
  | .dispatch, s => dispatch s
  | .tick, s => tickHandler s
  | .lock, s => .next (lockStep s)

/-- One action. An action that is not enabled does not happen: nothing changes (R262, R266, R270). -/
def act (a : Action) (s : State) : Res := if enabled a s then fire a s else .next s

/-- Actions one after another, until one has no next state. -/
def acts : List Action → State → Res
  | [], s => .next s
  | a :: rest, s => andThen (act a s) (acts rest)

/-- The action that comes next: the head of the agenda or, where it is empty, the environment's free choice (R269). -/
def nextAction (s : State) : Action :=
  match s.agenda with
  | a :: _ => a
  | [] => Config.environment s.draws

/-- The state with that choice used up. -/
def takeChoice (s : State) : State :=
  match s.agenda with
  | _ :: rest => { s with agenda := rest }
  | [] => { s with draws := s.draws + 1 }

/-- One step of the block: the chosen action of the chosen agent (R70, R269). -/
def takeTurn (s : State) : Res := act (nextAction s) (takeChoice s)

/-- Place a decoded command where the next step dispatches it: in `pending_cmd`, with the dispatch chosen next and
enabled (R230, R266). Where no command was decoded there is none to dispatch. -/
def placeCommand (cmd : Option Instr) (s : State) : State :=
  { s with pendingCmd := cmd, agenda := .dispatch :: s.agenda, phase := .normal, halted := false, faultCode := none }

end Sys2Proof.Machine
end

