-- ==== Sys2Proof/Machine/Step.lean ====
section
/-! DEFINITION. One step of the model (spec/00_scope.md rule R8), and the placing of an opcode-table word. -/

namespace Sys2Proof.Machine

/-- One atomic action of one agent. -/
def step (s : State) : Host.Outcome State Fault Refusal := takeTurn s

/-- `s` with the command whose payload bits are `w` placed where the next step runs it (assumption log 6). -/
def State.withFetchWord (s : State) (nbits w : Nat) : State := placeCommand (decodeTableWord nbits w) s

end Sys2Proof.Machine
end

