-- ==== Sys2Proof/Machine/Scenario.lean ====
section
/-! DEFINITION. Scenarios: the lines of spec/30_encoding.md rule R107, the pseudo-command of R108, and the end of a
run (spec/70_reset_and_hazards.md rule R303). -/

namespace Sys2Proof.Machine

/-- One line of a scenario (R107). -/
inductive ScenarioLine where
  /-- `HOST <command>` -/
  | host (cmd : Instr)
  /-- `HOST RAW <hex bytes>` -/
  | hostRaw (bytes : List Byte)
  /-- `PushFracnList [v0, ...]`, the pseudo-command of R108 -/
  | pushFracnList (values : List U16)
  /-- `FG` -/
  | fg
  /-- `TICK` -/
  | tick
  /-- `LOCK` -/
  | lock
  deriving DecidableEq, Repr

/-- `PushFracn [v0, ..., vk-1]`: the count is k and the slots from k on hold 0 (R107). -/
def pushFracnOf (values : List U16) : Instr :=
  .pushFracn (BitVec.ofNat 8 values.length) (values ++ List.replicate (chunk - values.length) 0)

/-- The chunks of at most 32 values, in order (R108); `fuel` bounds their number. -/
def chunksOf : Nat → List U16 → List Instr
  | 0, _ => []
  | _ + 1, [] => []
  | fuel + 1, v :: vs => pushFracnOf ((v :: vs).take chunk) :: chunksOf fuel ((v :: vs).drop chunk)

/-- The `PushFracn` commands `PushFracnList` expands to (R108). -/
def expandList (values : List U16) : List Instr := chunksOf values.length values

/-- The lines one written line stands for: a `PushFracnList` is its `HOST PushFracn` lines, every other line itself
(R108). DESIGN CHOICE (assumption log 13): no `FG` line stands between the expanded lines; R107 and R108 do not say. -/
def ScenarioLine.expand : ScenarioLine → List ScenarioLine
  | .pushFracnList values => (expandList values).map .host
  | .host cmd => [.host cmd]
  | .hostRaw bytes => [.hostRaw bytes]
  | .fg => [.fg]
  | .tick => [.tick]
  | .lock => [.lock]

/-- The convention of 95_test_vectors.md section 0: every `HOST` line is followed by an `FG` line that is not written. -/
def withForeground : ScenarioLine → List ScenarioLine
  | .host cmd => [.host cmd, .fg]
  | .hostRaw bytes => [.hostRaw bytes, .fg]
  | .pushFracnList values => [.pushFracnList values, .fg]
  | .fg => [.fg]
  | .tick => [.tick]
  | .lock => [.lock]

/-- A scenario of 95_test_vectors.md with its unwritten `FG` lines: each line is expanded first, so that every frame is
drained and dispatched before the next is sent. -/
def vectorLines (lines : List ScenarioLine) : List ScenarioLine :=
  (lines.flatMap ScenarioLine.expand).flatMap withForeground

/-- `RX` takes every byte that waits on the line. In a lock wait it takes none; they are taken after the lock (R311). -/
def deliver (s : State) : Res := acts (List.replicate s.line.length .rx) s

/-- The foreground steps until neither of its actions is enabled (R107), each drain taking all there is (R151). -/
def runForeground : Nat → State → Res
  | 0, s => .next s
  | fuel + 1, s =>
    if enabled .dispatch s then andThen (fire .dispatch s) (runForeground fuel)
    else if enabled (.drain s.ringCount) s then andThen (fire (.drain s.ringCount) s) (runForeground fuel)
    else .next s

/-- The foreground as far as it can go. Each drain takes at least one byte and leaves at most one command, so twice the
bytes in the ring and one more bounds its steps. -/
def foreground (s : State) : Res := runForeground (2 * s.ringCount + 1) s

/-- The action of one line: a host line's bytes join the line to the block (R107). -/
def lineAction : ScenarioLine → State → Res
  | .host cmd, s => act (.hostSend (frame cmd)) s
  | .hostRaw bytes, s => act (.hostSend bytes) s
  | .pushFracnList values, s => act (.hostSend ((expandList values).flatMap frame)) s
  | .fg, s => foreground s
  | .tick, s => act .tick s
  | .lock, s => act .lock s

/-- One line: its action, then `RX` takes what waits on the line. -/
def runLine (l : ScenarioLine) (s : State) : Res := andThen (lineAction l s) deliver

/-- The lines one after another; a halted block ends the run, whatever lines are left (R303). -/
def runLines : List ScenarioLine → State → Res
  | [], s => .next s
  | l :: rest, s => if s.halted then .next s else andThen (runLine l s) (runLines rest)

/-- A run whose lines are exhausted has ended: the block is halted, or phase is `Normal` and no foreground step is
enabled (R303). -/
def runEnded (s : State) : Bool :=
  s.halted || (s.phase == .normal && s.pendingCmd.isNone && s.ringCount == 0)

/-- A run: its lines, and after them the foreground's steps while any is enabled (R303). -/
def run (lines : List ScenarioLine) (s : State) : Res :=
  andThen (runLines (lines.flatMap ScenarioLine.expand) s) foreground

/-- What a run results in (R303). -/
structure RunResult where
  /-- the final state -/
  final    : State
  /-- the port trace -/
  trace    : List PortEvent
  /-- the transmit stream -/
  txStream : List Byte
  deriving DecidableEq, Repr

/-- The result of a run, if it has ended: a run that is left in a lock wait has not (R303). -/
def runResult (lines : List ScenarioLine) (s : State) : Option RunResult :=
  match run lines s with
  | .next t => if runEnded t then some { final := t, trace := t.trace, txStream := t.txStream } else none
  | _ => none

end Sys2Proof.Machine
end

