-- ==== Sys2Proof/Safety.lean ====
section
/-! DEFINITION. The terms the claims use: the named premises of spec/70_reset_and_hazards.md rule R302, the invariants
of spec/10_state.md rule R45 with what they need to be kept by every step, and what a sequence of ring operations or
of ticks does. -/

namespace Sys2Proof.Machine

/-! ## Premises (R302) -/

/-- `ResetState` (R300, R302): every element the spec gives a reset value has it. `RingMem`, `MsgBuf` and `tmr_reload`
are unspecified after reset. Of the model's own fields only the line is empty: a byte on it would be in flight, and
`ResetState` implies `Quiescent` (R302); the others may hold anything. -/
def ResetState (s : State) : Prop :=
  s.slot0 = .empty ∧ s.slot1 = .empty ∧ s.active = .zero ∧ s.pllchangei = -1 ∧ s.fracnI = 0 ∧ s.fracnRem = 0#32 ∧
  s.isRunning = false ∧ s.uploading = false ∧ s.ringRd = 0 ∧ s.ringWr = 0 ∧ s.ringCount = 0 ∧ s.msgLen = 0 ∧
  s.msgOvf = false ∧ s.pendingCmd = none ∧ s.tmrMode = .off ∧ s.phase = .normal ∧ s.halted = false ∧
  s.faultCode = none ∧ s.trace = [] ∧ s.line = []

/-- `Quiescent` (R302): its six elements, and nothing in flight on the link, which is that the line holds no byte
(assumption log 2). -/
def Quiescent (s : State) : Prop :=
  s.halted = false ∧ s.phase = .normal ∧ s.ringCount = 0 ∧ s.msgLen = 0 ∧ s.msgOvf = false ∧ s.pendingCmd = none ∧
  s.line = []

/-! ## Invariants (R45) -/

/-- (I1), with the ranges of `pllchangei` (R26) and of the parameters (R9). -/
def InvCaps (s : State) : Prop :=
  s.config.Valid ∧
  (∀ k, (s.slot k).fracn.length ≤ s.config.fracnCap ∧ (s.slot k).pll.length ≤ s.config.pllCap) ∧
  -1 ≤ s.pllchangei ∧ s.pllchangei < s.config.pllCap

/-- (I2), with the exact count of what is left of the run; that a lock wait programs the current change; and what
`tmr_mode` and `phase` say of `is_running` (R280). Nothing is claimed of the position in a halted block. -/
def InvPlay (s : State) : Prop :=
  (s.halted = false → s.isRunning = true → ∃ c, s.changeAt s.pllchangei = some c ∧
    c.startTick.toNat ≤ s.fracnI.toNat ∧
    s.fracnI.toNat + s.fracnRem.toNat + 1 = c.startTick.toNat + c.forTicks.toNat ∧
    c.startTick.toNat + c.forTicks.toNat ≤ s.slotA.fracn.length ∧
    (∀ o d, s.phase = .lockWait o d → d = c ∧ s.fracnI = c.startTick)) ∧
  (s.phase ≠ .normal → s.isRunning = true) ∧
  (s.tmrMode = .periodic → s.isRunning = true) ∧
  (s.halted = false → s.isRunning = true → s.phase = .normal → s.tmrMode = .periodic)

/-- (I4), with what R62 says of the unread bytes: each of them has been written. -/
def InvRing (s : State) : Prop :=
  1 ≤ s.config.ringCap ∧ s.ringRd < s.config.ringCap ∧ s.ringCount ≤ s.config.ringCap ∧
  s.ringWr = (s.ringRd + s.ringCount) % s.config.ringCap ∧
  s.ringMem.wf = true ∧ (∀ a b, (a, b) ∈ s.ringMem → a < s.config.ringCap) ∧
  ∀ j, j < s.ringCount → (memRead s.ringMem ((s.ringRd + j) % s.config.ringCap)).isSome

/-- (I5), with what R63 says of the frame being assembled: its bytes have been written and none is a terminator. -/
def InvLink (s : State) : Prop :=
  s.msgLen ≤ s.config.msgCap ∧ (s.msgOvf = true → s.msgLen = s.config.msgCap) ∧
  s.msgBuf.wf = true ∧ (∀ a b, (a, b) ∈ s.msgBuf → a < s.config.msgCap) ∧
  ∀ j, j < s.msgLen → ∃ b, memRead s.msgBuf j = some b ∧ b ≠ 0x00#8

/-- `halted` and `fault_code` are set together (R37), and a command decoded by the default `DESER` is well-formed. -/
def InvControl (s : State) : Prop :=
  s.halted = s.faultCode.isSome ∧
  (s.config.deser = .standard → ∀ i, s.pendingCmd = some i → wellFormed i = true)

/-- The invariant of the block. -/
def BlockInv (s : State) : Prop := InvCaps s ∧ InvPlay s ∧ InvRing s ∧ InvLink s ∧ InvControl s

/-! ## The ring -/

/-- The bytes of the ring that are still to be read, oldest first. -/
def ringUnread (s : State) : Option (List Byte) := ringTaken s s.ringCount none

/-- A list up to and including the first byte equal to `delim`; all of it where there is none (R133). -/
def upTo (delim : Option Byte) : List Byte → List Byte
  | [] => []
  | b :: rest => if delim = some b then [b] else b :: upTo delim rest

/-- A call of `RingWrite` or `RingRead`. -/
inductive RingOp where
  | write (data : List Byte)
  | read (max : Nat) (delim : Option Byte)
  deriving DecidableEq, Repr

/-- The calls one after another: the bytes the writes accepted, the bytes the reads returned, and the state left
(R135). -/
def runRing : List RingOp → State → Option (List Byte × List Byte × State)
  | [], s => some ([], [], s)
  | .write data :: rest, s =>
    (runRing rest (ringWrite s data)).map fun r => (data.take (ringAccepts s data) ++ r.1, r.2.1, r.2.2)
  | .read max delim :: rest, s =>
    match ringRead s max delim with
    | none => none
    | some (out, s') => (runRing rest s').map fun r => (r.1, out ++ r.2.1, r.2.2)

/-! ## Playback (R199) -/

/-- The value of a `SYN.set_fractional` event. -/
def PortEvent.fractional : PortEvent → Option U16
  | .synSetFractional v => some v
  | _ => none

/-- The fractional values the block has applied, in order. -/
def appliedValues (s : State) : List U16 := s.trace.filterMap PortEvent.fractional

/-- The values of one run: `fracn[start_tick .. start_tick + for_ticks)` (R23). -/
def runValues (slot : Slot) (c : PllChange) : List U16 := (slot.fracn.drop c.startTick.toNat).take c.forTicks.toNat

/-- The values of one loop of a slot, change by change (R199). -/
def loopValues (slot : Slot) : List U16 := slot.pll.flatMap (runValues slot)

/-- The ticks of one loop of a slot (R199). -/
def loopTicks (slot : Slot) : Nat := (slot.pll.map fun c => c.forTicks.toNat).sum

/-- One expiry and, if it ends in a lock wait, the lock. -/
def tickAndLock (s : State) : Res := andThen (act .tick s) (act .lock)

/-- `n` expiries, each with its lock where one is waited for. -/
def playTicks : Nat → State → Res
  | 0, s => .next s
  | n + 1, s => andThen (tickAndLock s) (playTicks n)

/-- No swap can happen at a boundary, and no fault: no upload is pending, or one is open under `Defer` (R191). -/
def NoSwapAhead (s : State) : Prop :=
  (s.uploading = true ∧ s.config.overrun = .defer) ∨ (s.uploading = false ∧ s.slotB.pll = [])

/-- A selected change that cannot be played, and the code `step` then raises: the first check reports (R194, R274). -/
def FailsWith (c : PllChange) (slot : Slot) (code : FaultCode) : Prop :=
  ((c.forTicks.toNat = 0 ∨ slot.fracn.length < c.startTick.toNat + c.forTicks.toNat) ∧ code = .invalidChange) ∨
  (1 ≤ c.forTicks.toNat ∧ c.startTick.toNat + c.forTicks.toNat ≤ slot.fracn.length ∧ c.timUs = 0#32 ∧
    code = .zeroPeriod)

/-- The block is between two ticks of a running program whose every change can be played (R194). -/
def Playing (s : State) : Prop :=
  s.halted = false ∧ s.phase = .normal ∧ s.isRunning = true ∧ s.tmrMode = .periodic ∧
  s.slotA.fracn.length ≤ 2 ^ 32 ∧ ∀ c ∈ s.slotA.pll, changeValid c s.slotA = true ∧ c.timUs ≠ 0#32

end Sys2Proof.Machine
end

