-- ==== Sys2Proof/Certificates/Slice0/Obligations.lean ====
section
/-! DEFINITION. The statements about the block, each a `Prop`. Every one quantifies over `State.config`, so it holds for
every value of the parameters that meets its hypotheses. -/

open Sys2Proof Sys2Proof.Machine

/-! ## Reset and the whole-machine invariants -/

/-- R300, R302: what reset leaves, and that nothing else leaves the halted state. Nothing is said of `RingMem`, `MsgBuf`
and `tmr_reload`, which the spec leaves unspecified. That the line is empty after reset is the model's choice: the line is
its own element (assumption log 2), and R302 only says that nothing is in flight. -/
def Obligations.ResetLeavesTheStatedValues : Prop :=
  ResetState State.reset ∧ State.reset.txStream = [] ∧
  ∀ a s t, s.halted = true → act a s = .next t → t.halted = true

/-- R302: `ResetState` implies `Quiescent`; in a quiescent block no foreground action is enabled, and nothing is in
flight: there is no byte to receive. That bytes sent and not received stand on a line is the model's (assumption log 2). -/
def Obligations.ResetStateIsQuiescent : Prop :=
  (∀ s, ResetState s → Quiescent s) ∧
  ∀ s, Quiescent s → (∀ n, enabled (.drain n) s = false) ∧ enabled .dispatch s = false ∧ enabled .rx s = false ∧
    s.line = []

/-- R45, R300: the invariant holds after reset, whatever the parameters. The invariant's bound of 2^32 on `FRACN_CAP` is
the model's (assumption log 3). -/
def Obligations.InvariantHoldsAfterReset : Prop := ∀ c : Config, c.Valid → BlockInv { State.reset with config := c }

/-- R45: every step from a state that meets the invariant keeps it. The invariant is stronger than R45's: it also bounds
`FRACN_CAP` (assumption log 3) and holds in halted states. -/
def Obligations.EveryStepKeepsTheInvariant : Prop := ∀ s t, BlockInv s → step s = .next t → BlockInv t

/-- R61, R62, R63: from a state that meets the invariant no step reads an entry or a byte that does not exist, so every
step has a next state. That such a read would stop the model is the model's choice (assumption log 7). -/
def Obligations.EveryStepFromTheInvariantHasANextState : Prop := ∀ s, BlockInv s → ∃ t, step s = .next t

/-- R45 (I2): where playback stands. -/
def Obligations.InvariantBoundsThePlaybackPosition : Prop :=
  ∀ s, BlockInv s → s.halted = false → s.isRunning = true → s.phase = .normal →
    0 ≤ s.pllchangei ∧ s.pllchangei < s.slotA.pll.length ∧
    ∃ c, s.slotA.pll[s.pllchangei.toNat]? = some c ∧
      s.fracnI.toNat + s.fracnRem.toNat < c.startTick.toNat + c.forTicks.toNat ∧
      c.startTick.toNat + c.forTicks.toNat ≤ s.slotA.fracn.length

/-- R45 (I4): the count and the cursors of the ring. -/
def Obligations.InvariantTiesRingCountToCursors : Prop :=
  ∀ s, BlockInv s →
    (s.ringCount ≠ s.config.ringCap → (s.ringCount : Int) = ((s.ringWr : Int) - s.ringRd) % s.config.ringCap) ∧
    (s.ringCount = s.config.ringCap → s.ringWr = s.ringRd)

/-- R41, R9: no action shortens the port trace or the transmit stream, and none changes the parameters. -/
def Obligations.OutputsOnlyGrow : Prop :=
  ∀ a s t, act a s = .next t → s.trace <+: t.trace ∧ s.txStream <+: t.txStream ∧ t.config = s.config

/-! ## Agents -/

/-- R266, R151: when each agent may step. That a byte is delivered means that the line, the model's own (assumption log
2), holds one. A drain is enabled for every `n` of at least 1: that an `n` above `ring_count` is the choice
`n = ring_count` is the model's (assumption log 8). -/
def Obligations.EnablingConditionsOfTheAgents : Prop :=
  ∀ s,
    (enabled .rx s = true ↔ s.halted = false ∧ s.phase = .normal ∧ s.line ≠ []) ∧
    (∀ n, enabled (.drain n) s = true ↔
      s.halted = false ∧ s.phase = .normal ∧ s.pendingCmd = none ∧ 0 < s.ringCount ∧ 1 ≤ n) ∧
    (enabled .dispatch s = true ↔ s.halted = false ∧ s.phase = .normal ∧ ∃ i, s.pendingCmd = some i) ∧
    (enabled .tick s = true ↔ s.halted = false ∧ s.phase = .normal ∧ s.tmrMode ≠ .off) ∧
    (enabled .lock s = true ↔ s.halted = false ∧ ∃ o c, s.phase = .lockWait o c)

/-- R262: a fault sets `halted` and its code and nothing else, and afterwards no action changes anything but the bytes
that wait on the line. The line is the model's (assumption log 2). -/
def Obligations.HaltedBlockNeverChanges : Prop :=
  (∀ c s, raiseFault c s = { s with halted := true, faultCode := some c }) ∧
  ∀ as s, s.halted = true → ∃ t, acts as s = .next t ∧ { t with line := s.line } = s

/-- R270: in a lock wait only `LOCK` can step; until it does, nothing changes but the bytes that wait on the line, which
is the model's (assumption log 2). -/
def Obligations.LockWaitHoldsEveryOtherAgent : Prop :=
  ∀ s o c, s.phase = .lockWait o c →
    (∀ a, enabled a s = true → a = .lock ∨ ∃ bytes, a = .hostSend bytes) ∧
    ∀ as, .lock ∉ as → ∃ t, acts as s = .next t ∧ { t with line := s.line } = s

/-- R230: a step whose chosen action is the dispatch runs the decoded command, taken from `pending_cmd`; and whatever
action the agenda lists next, it is the step (R269). The agenda, and that an action that is not enabled changes nothing,
are the model's (assumption log 2). -/
def Obligations.StepRunsTheDecodedCommand : Prop :=
  (∀ s i rest, s.halted = false → s.phase = .normal → s.agenda = .dispatch :: rest → s.pendingCmd = some i →
    step s = exec i { s with agenda := rest, pendingCmd := none }) ∧
  ∀ s a rest, s.agenda = a :: rest →
    step s = (if enabled a s then fire a { s with agenda := rest } else .next { s with agenda := rest })

/-- R136, R137: `RX` is a `RingWrite` of the byte, which puts it behind the unread ones and touches no other byte, or it
halts the block where the ring is full. The line the byte comes from is the model's (assumption log 2). -/
def Obligations.ReceiveStoresTheByteOrOverflows : Prop :=
  ∀ s b rest u, InvRing s → ringUnread s = some u → s.halted = false → s.phase = .normal → s.line = b :: rest →
    (s.ringCount < s.config.ringCap → ∃ t, act .rx s = .next t ∧ t = ringWrite { s with line := rest } [b] ∧
      ringUnread t = some (u ++ [b]) ∧ memRead t.ringMem s.ringWr = some b ∧
      (∀ i, i ≠ s.ringWr → memRead t.ringMem i = memRead s.ringMem i) ∧
      t.ringWr = (s.ringWr + 1) % s.config.ringCap ∧ t.ringCount = s.ringCount + 1 ∧ t.line = rest ∧
      { t with ringMem := s.ringMem, ringWr := s.ringWr, ringCount := s.ringCount, line := s.line } = s) ∧
    (s.ringCount = s.config.ringCap →
      act .rx s = .next { s with line := rest, halted := true, faultCode := some .ringOverflow })

/-- R74, R45 (I3), R25, R191, R198: no action writes the active slot; only a swap changes which slot is active, at a loop
boundary (R190), with a pending upload, and it leaves the new back slot empty. A tick that finds `pllchangei = -1` in a
running block is in no run from reset; R190 names it, so the boundary here does. -/
def Obligations.ActiveSlotChangesOnlyBySwap : Prop :=
  ∀ a s t, act a s = .next t →
    (t.active = s.active → t.slotA = s.slotA) ∧
    (t.active ≠ s.active → s.uploading = false ∧ s.slotB.pll ≠ [] ∧ t.slotA = s.slotB ∧ t.slotB = .empty ∧
      t.pllchangei = 0 ∧
      (a = .tick ∧ s.isRunning = true ∧ s.fracnRem = 0#32 ∧
          ((s.slotA.pll.length : Int) ≤ s.pllchangei + 1 ∨ s.pllchangei = -1 ∧ s.config.launchIsBoundary = true) ∨
        a = .dispatch ∧ s.pendingCmd = some .startNow ∧ (s.config.launchIsBoundary = true ∨ s.slotA.pll = [])))

/-- R22: an action empties a slot, or appends to it, or leaves it alone; no entry is changed in place. -/
def Obligations.SlotEntriesAreNeverChangedInPlace : Prop :=
  ∀ a s t k, act a s = .next t →
    t.slot k = .empty ∨ ((s.slot k).fracn <+: (t.slot k).fracn ∧ (s.slot k).pll <+: (t.slot k).pll)

/-- R28: `uploading` is set by the two pushes only and cleared by `UploadDone` only. -/
def Obligations.UploadingChangesOnlyByItsCommands : Prop :=
  ∀ a s t, act a s = .next t →
    (s.uploading = true → t.uploading = false → a = .dispatch ∧ s.pendingCmd = some .uploadDone) ∧
    (s.uploading = false → t.uploading = true → a = .dispatch ∧
      ((∃ c, s.pendingCmd = some (.pushPllChange c)) ∨ ∃ n vs, s.pendingCmd = some (.pushFracn n vs)))

/-- R40's column of writers, R136, R151 to R155: what `RX` stores and what a drain assembles and answers never touch the
sequencer. The same of what the host sends, whose line is the model's (assumption log 2). -/
def Obligations.LinkNeverTouchesTheSequencer : Prop :=
  ∀ a s t, act a s = .next t → (a = .rx ∨ (∃ n, a = .drain n) ∨ ∃ bytes, a = .hostSend bytes) →
    t.slot0 = s.slot0 ∧ t.slot1 = s.slot1 ∧ t.active = s.active ∧ t.pllchangei = s.pllchangei ∧ t.fracnI = s.fracnI ∧
    t.fracnRem = s.fracnRem ∧ t.isRunning = s.isRunning ∧ t.uploading = s.uploading ∧ t.tmrMode = s.tmrMode ∧
    t.tmrReload = s.tmrReload ∧ t.phase = s.phase

/-- R164: every terminator draws exactly one reply, an ack or a nack, and no action but a drain replies. -/
def Obligations.OneReplyPerFrame : Prop :=
  (∀ bytes s t, linkAcceptAll bytes s = .next t → ∃ replies, t.txStream = s.txStream ++ replies ∧
    replies.length = bytes.count 0x00#8 ∧ ∀ r ∈ replies, r = ackByte ∨ r = nackByte) ∧
  ∀ a s t, act a s = .next t → (∀ n, a ≠ .drain n) → t.txStream = s.txStream

/-! ## The ring -/

/-- R131: `RingWrite`. -/
def Obligations.RingWriteStoresWhatFits : Prop :=
  ∀ s data, InvRing s →
    let k := min data.length (s.config.ringCap - s.ringCount)
    ringAccepts s data = k ∧
    (∀ j (h : j < data.length), j < k →
      memRead (ringWrite s data).ringMem ((s.ringWr + j) % s.config.ringCap) = some data[j]) ∧
    (∀ i, (∀ j, j < k → i ≠ (s.ringWr + j) % s.config.ringCap) →
      memRead (ringWrite s data).ringMem i = memRead s.ringMem i) ∧
    (ringWrite s data).ringWr = (s.ringWr + k) % s.config.ringCap ∧
    (ringWrite s data).ringCount = s.ringCount + k ∧
    { ringWrite s data with ringMem := s.ringMem, ringWr := s.ringWr, ringCount := s.ringCount } = s

/-- R133: `RingRead`. -/
def Obligations.RingReadTakesUpToTheDelimiter : Prop :=
  ∀ s u max delim, InvRing s → ringUnread s = some u → ∃ out t, ringRead s max delim = some (out, t) ∧
    out = upTo delim (u.take max) ∧ ringUnread t = some (u.drop out.length) ∧
    t.ringRd = (s.ringRd + out.length) % s.config.ringCap ∧ t.ringCount = s.ringCount - out.length ∧
    { t with ringRd := s.ringRd, ringCount := s.ringCount } = s

/-- R135: whatever the order of the calls and the wrap position, the bytes the reads return are a first part of the
bytes the writes accept, and what is left unread is the rest. -/
def Obligations.RingDeliversBytesInOrder : Prop :=
  ∀ ops s, InvRing s → s.ringCount = 0 → ∃ accepted returned t u,
    runRing ops s = some (accepted, returned, t) ∧ ringUnread t = some u ∧ accepted = returned ++ u

/-! ## The Link -/

/-- R152, R153, R154: a byte that is no terminator. -/
def Obligations.LinkAssemblesTheFrame : Prop :=
  ∀ b s, b ≠ 0x00#8 →
    (s.msgOvf = false → s.msgLen < s.config.msgCap → ∃ t, linkAccept b s = .next t ∧ memRead t.msgBuf s.msgLen = some b ∧
      (∀ i, i ≠ s.msgLen → memRead t.msgBuf i = memRead s.msgBuf i) ∧ t.msgLen = s.msgLen + 1 ∧
      { t with msgBuf := s.msgBuf, msgLen := s.msgLen } = s) ∧
    (s.msgOvf = false → s.msgLen = s.config.msgCap → linkAccept b s = .next { s with msgOvf := true } ∧
      linkAccept 0x00#8 { s with msgOvf := true } =
        .next { s with trace := s.trace ++ [.uartTx 0x00#8], msgLen := 0, msgOvf := false }) ∧
    (s.msgOvf = true → linkAccept b s = .next s)

/-- R151: a drain takes at most `n` bytes from the ring, none behind a terminator, and hands them to frame assembly one
by one. -/
def Obligations.DrainFeedsTheLink : Prop :=
  ∀ s n u, s.halted = false → s.phase = .normal → s.pendingCmd = none → ringUnread s = some u → 1 ≤ n →
    n ≤ s.ringCount → ∃ t, act (.drain n) s = linkAcceptAll (upTo (some 0x00#8) (u.take n)) t ∧
      ringUnread t = some (u.drop (upTo (some 0x00#8) (u.take n)).length) ∧
      t.ringRd = (s.ringRd + (upTo (some 0x00#8) (u.take n)).length) % s.config.ringCap ∧
      t.ringCount = s.ringCount - (upTo (some 0x00#8) (u.take n)).length ∧
      { t with ringRd := s.ringRd, ringCount := s.ringCount } = s

/-- R155, R157, R159: the end of a frame. -/
def Obligations.FrameEndRepliesAndQueues : Prop :=
  ∀ s e, memReadRange s.msgBuf 0 s.msgLen = some e →
    (∀ i, s.msgOvf = false → decodeFrame s.config.deser e = .ok i →
      linkAccept 0x00#8 s = .next { s with trace := s.trace ++ [.uartTx 0x01#8], pendingCmd := some i, msgLen := 0 }) ∧
    (∀ why, s.msgOvf = false → decodeFrame s.config.deser e = .reject why →
      linkAccept 0x00#8 s = .next { s with trace := s.trace ++ [.uartTx 0x00#8], msgLen := 0 }) ∧
    (s.msgOvf = true →
      linkAccept 0x00#8 s = .next { s with trace := s.trace ++ [.uartTx 0x00#8], msgLen := 0, msgOvf := false })

/-- R165: a frame of a well-formed command that fits the message buffer is acked and becomes the pending command. -/
def Obligations.FrameRoundTripThroughTheLink : Prop :=
  ∀ i s, wellFormed i = true → (encode i).length ≤ s.config.msgCap → s.config.deser = .standard → s.msgLen = 0 →
    s.msgOvf = false → ∃ buf, linkAcceptAll (frame i) s =
      .next { s with msgBuf := buf, trace := s.trace ++ [.uartTx 0x01#8], pendingCmd := some i }

/-- R136, R151, R155, R230, R241, R302: the bytes of a frame, sent to a quiescent block whose ring and buffer they fit,
are received, drained and acked, and then the command they encode is executed. -/
def Obligations.SentFrameIsAckedThenExecuted : Prop :=
  ∀ i s, Quiescent s → InvRing s → wellFormed i = true → s.config.deser = .standard →
    (encode i).length ≤ s.config.msgCap → (frame i).length ≤ s.config.ringCap →
    ∃ ring buf at_, acts (.hostSend (frame i) :: List.replicate (frame i).length .rx ++
        [.drain (frame i).length, .dispatch]) s =
      exec i { s with ringMem := ring, ringRd := at_, ringWr := at_, msgBuf := buf,
                      trace := s.trace ++ [.uartTx 0x01#8] }

/-! ## Encoding -/

/-- R105, R160: `COBS_DECODE` undoes `COBS` on every payload. -/
def Obligations.CobsDecodeUndoesCobs : Prop := ∀ p, cobsDecode (cobsEncode p) = some p

/-- R90, R91: the stuffed part holds no terminator, and for a payload of at most 253 bytes it is one byte longer. -/
def Obligations.StuffedPartIsZeroFree : Prop :=
  (∀ p, 0x00#8 ∉ cobsEncode p) ∧ ∀ p, p.length ≤ 253 → (cobsEncode p).length = p.length + 1

/-- R161: `COBS_DECODE` fails on exactly the strings that are not one or more whole blocks, each a code byte `c` from 1
to 255 and `c - 1` data bytes. -/
def Obligations.CobsDecodeFailsExactlyOffBlocks : Prop :=
  ∀ e, (∃ p, cobsDecode e = some p) ↔
    ∃ blocks : List (List Byte), blocks ≠ [] ∧ (∀ b ∈ blocks, b.length ≤ 254) ∧
      e = blocks.flatMap fun b => BitVec.ofNat 8 (b.length + 1) :: b

/-- R100, R105, R156, R162: decoding the encoded part of any well-formed command gives the command back. -/
def Obligations.DecodeUndoesEncode : Prop := ∀ i, wellFormed i = true → decodeFrame .standard (encode i) = .ok i

/-- R99, R162, D9: every payload the deserializer accepts is the payload of the command it answers, and that command is
well-formed. -/
def Obligations.AcceptedPayloadsAreCanonical : Prop := ∀ p i, deser p = .ok i → p = payload i ∧ wellFormed i = true

/-- R101: the illegal frames are rejected, each for its reason. -/
def Obligations.IllegalFramesAreRejected : Prop :=
  decodeFrame .standard [] = .reject .emptyEncoded ∧
  (∀ e, e ≠ [] → cobsDecode e = none → decodeFrame .standard e = .reject .malformedStuffing) ∧
  deser [] = .reject .emptyPayload ∧
  (∀ tag fields, 0x0A ≤ tag.toNat → deser (tag :: fields) = .reject .unknownTag) ∧
  (∀ tag fields n, fixedLength tag.toNat = some n → (tag :: fields).length ≠ n →
    deser (tag :: fields) = .reject .wrongLength) ∧
  (∀ fields v, fields.length = 16 → fields[10]? = some v → 1 < v.toNat → deser (0x01#8 :: fields) = .reject .badVcosel) ∧
  (∀ count slots, slots.length = 64 → 32 < count.toNat → deser (0x02#8 :: count :: slots) = .reject .badCount)

/-- R166: replacing one byte of a frame's encoded part by another non-zero byte never leaves the same command. -/
def Obligations.CorruptFrameNeverDecodesTheSame : Prop :=
  ∀ i k b, wellFormed i = true → (h : k < (encode i).length) → b ≠ 0x00#8 → b ≠ (encode i)[k] →
    decodeFrame .standard ((encode i).set k b) ≠ .ok i

/-- R93, R94, R95, R100: words written out from the encoding tables, one per kind of payload. -/
def Obligations.WordsOfTheSpecDecode : Prop :=
  decodeFrame .standard [0x01, 0x01] = .ok .ping ∧
  decodeFrame .standard [0x02, 0x06] = .ok .stopNow ∧
  decodeFrame .standard [0x0E, 0x01, 0xFF, 0xFF, 0xFF, 0xFF, 0x04, 0x03, 0x02, 0x01, 0xCD, 0xAB, 0x01, 0xFF, 0x01, 0x01,
      0x01, 0x01] =
    .ok (.pushPllChange { forTicks := 0xFFFFFFFF, startTick := 0x01020304, divn := 0xABCD, vcosel := true, divp := 255,
                          timUs := 0 }) ∧
  decodeFrame .standard ([0x04, 0x02, 0x02, 0x07, 0x02, 0x08] ++ List.replicate 61 0x01) =
    .ok (.pushFracn 2 ([7, 8] ++ List.replicate 30 0)) ∧
  decodeFrame .standard [0x03, 0x08, 0xAA] = .ok (.epochNow [0xAA])

/-! ## The commands -/

/-- R231, R238, R239, R240: `Ping` and the reserved commands change nothing. -/
def Obligations.PingAndReservedCommandsDoNothing : Prop :=
  ∀ s p,
    (frame .ping = [0x01, 0x01, 0x00] ∧ exec .ping s = .next s) ∧
    (payload (.setLooping p) = 0x07#8 :: p ∧ exec (.setLooping p) s = .next s) ∧
    (payload (.epochNow p) = 0x08#8 :: p ∧ exec (.epochNow p) s = .next s) ∧
    payload (.startAtEpoch p) = 0x09#8 :: p ∧ exec (.startAtEpoch p) s = .next s

/-- R233, R182: `PushFracn`. Where its values fit they are appended to the back slot, `uploading` is set, and nothing
else changes; where they do not, the block halts and nothing was appended. What it says of a command that is not
well-formed, which only a replaced `DESER` can answer, is the model's choice (assumption log 17). -/
def Obligations.PushFracnAppendsItsValuesOrHalts : Prop :=
  ∀ s count values,
    (wellFormed (.pushFracn count values) = true → (payload (.pushFracn count values)).head? = some 0x02#8 ∧
      (payload (.pushFracn count values)).length = 66) ∧
    (s.slotB.fracn.length + min count.toNat values.length ≤ s.config.fracnCap →
      ∃ t, exec (.pushFracn count values) s = .next t ∧
        t.slotB = { fracn := s.slotB.fracn ++ values.take count.toNat, pll := s.slotB.pll } ∧ t.slotA = s.slotA ∧
        t.uploading = true ∧ { t with slot0 := s.slot0, slot1 := s.slot1, uploading := s.uploading } = s) ∧
    (s.config.fracnCap < s.slotB.fracn.length + min count.toNat values.length →
      exec (.pushFracn count values) s = .next { s with halted := true, faultCode := some .fracnCapacity })

/-- R233: the value slots from `count` on have no effect.
Of a command that is not well-formed this is the model's choice (assumption log 17). -/
def Obligations.UnusedValueSlotsHaveNoEffect : Prop :=
  ∀ s count values values', values.take count.toNat = values'.take count.toNat →
    exec (.pushFracn count values) s = exec (.pushFracn count values') s

/-- R232, R184: `PushPllChange`. Where it fits, the record, rebased, is appended to the back slot, `uploading` is set,
and nothing else changes; where it does not, the block halts and nothing was appended. A full list is reported before an
index that overflows. -/
def Obligations.PushPllChangeAppendsTheRebasedRecordOrHalts : Prop :=
  ∀ s c,
    ((payload (.pushPllChange c)).head? = some 0x01#8 ∧ (payload (.pushPllChange c)).length = 17) ∧
    (s.slotB.pll.length ≠ s.config.pllCap → c.startTick.toNat + s.slotB.fracn.length < 2 ^ 32 →
      ∃ t d, exec (.pushPllChange c) s = .next t ∧ t.slotB = { fracn := s.slotB.fracn, pll := s.slotB.pll ++ [d] } ∧
        d.startTick.toNat = c.startTick.toNat + s.slotB.fracn.length ∧ { d with startTick := c.startTick } = c ∧
        t.slotA = s.slotA ∧ t.uploading = true ∧
        { t with slot0 := s.slot0, slot1 := s.slot1, uploading := s.uploading } = s) ∧
    (s.slotB.pll.length = s.config.pllCap →
      exec (.pushPllChange c) s = .next { s with halted := true, faultCode := some .pllCapacity }) ∧
    (s.slotB.pll.length ≠ s.config.pllCap → 2 ^ 32 ≤ c.startTick.toNat + s.slotB.fracn.length →
      exec (.pushPllChange c) s = .next { s with halted := true, faultCode := some .startOverflow })

/-- R234, R187: `ClearBuffers` in Idle empties the back slot and changes nothing else, `uploading` included; while
Running it halts the block. -/
def Obligations.ClearBuffersEmptiesTheBackSlot : Prop :=
  ∀ s, frame .clearBuffers = [0x02, 0x03, 0x00] ∧
    (s.isRunning = false → ∃ t, exec .clearBuffers s = .next t ∧ t.slotB = .empty ∧ t.slotA = s.slotA ∧
      { t with slot0 := s.slot0, slot1 := s.slot1 } = s) ∧
    (s.isRunning = true →
      exec .clearBuffers s = .next { s with halted := true, faultCode := some .clearWhileRunning })

/-- R235, R186: `UploadDone` clears `uploading` and changes nothing else. -/
def Obligations.UploadDoneClearsUploading : Prop :=
  ∀ s, frame .uploadDone = [0x02, 0x04, 0x00] ∧ exec .uploadDone s = .next { s with uploading := false }

/-- R237, R189, R203: `StopNow` while Running; in Idle it is a no-op. -/
def Obligations.StopNowDrainsTheTimer : Prop :=
  ∀ s, frame .stopNow = [0x02, 0x06, 0x00] ∧
    (s.isRunning = true → exec .stopNow s =
      .next { s with isRunning := false, tmrMode := .draining, trace := s.trace ++ [.tmrStartOneshotThenStop] }) ∧
    (s.isRunning = false → exec .stopNow s = .next s)

/-- R236, R188, R190, R191, R195, R196: `StartNow` with a pending upload, where the launch is a boundary, swaps and
programs the upload's first change. -/
def Obligations.StartNowPlaysThePendingUpload : Prop :=
  ∀ s c cs v, (s.config.launchIsBoundary = true ∨ s.slotA.pll = []) → s.uploading = false → s.slotB.pll = c :: cs →
    1 ≤ c.forTicks.toNat → c.startTick.toNat + c.forTicks.toNat ≤ s.slotB.fracn.length → c.timUs ≠ 0#32 →
    s.slotB.fracn[c.startTick.toNat]? = some v →
    ∃ t, exec .startNow s = .next t ∧ t.active = s.active.other ∧ t.slotA = s.slotB ∧ t.slotB = .empty ∧
      t.pllchangei = 0 ∧ t.fracnI = c.startTick ∧ t.fracnRem.toNat = c.forTicks.toNat - 1 ∧ t.isRunning = true ∧
      t.phase = .lockWait .fg c ∧ t.tmrMode = (if s.isRunning then .draining else s.tmrMode) ∧
      t.trace = s.trace ++ (if s.isRunning then [.tmrStartOneshotThenStop] else []) ++
        [.synDisable, .synConfigure c.divn c.divp c.vcosel, .synSetFractional v, .synEnable] ∧
      { t with slot0 := s.slot0, slot1 := s.slot1, active := s.active, pllchangei := s.pllchangei, fracnI := s.fracnI,
               fracnRem := s.fracnRem, isRunning := s.isRunning, phase := s.phase, tmrMode := s.tmrMode,
               trace := s.trace } = s

/-- R236, R188, R190, R191, R195, R196, R204: `StartNow` where no swap happens replays the active slot from its first
change. -/
def Obligations.StartNowReplaysTheActiveSlot : Prop :=
  ∀ s c cs v, (s.config.launchIsBoundary = true → NoSwapAhead s) → s.slotA.pll = c :: cs →
    1 ≤ c.forTicks.toNat → c.startTick.toNat + c.forTicks.toNat ≤ s.slotA.fracn.length → c.timUs ≠ 0#32 →
    s.slotA.fracn[c.startTick.toNat]? = some v →
    ∃ t, exec .startNow s = .next t ∧
      t.pllchangei = 0 ∧ t.fracnI = c.startTick ∧ t.fracnRem.toNat = c.forTicks.toNat - 1 ∧ t.isRunning = true ∧
      t.phase = .lockWait .fg c ∧ t.tmrMode = (if s.isRunning then .draining else s.tmrMode) ∧
      t.trace = s.trace ++ (if s.isRunning then [.tmrStartOneshotThenStop] else []) ++
        [.synDisable, .synConfigure c.divn c.divp c.vcosel, .synSetFractional v, .synEnable] ∧
      { t with pllchangei := s.pllchangei, fracnI := s.fracnI, fracnRem := s.fracnRem, isRunning := s.isRunning,
               phase := s.phase, tmrMode := s.tmrMode, trace := s.trace } = s

/-- R188, R191, R193, R194, R263, R274: where a launch cannot play, the block halts with the first code that applies and
programs nothing, and what the launch wrote before stands: `pllchangei`, `is_running`, the stop of a running block with
its event, and a swap of this step. -/
def Obligations.StartNowThatCannotPlayHalts : Prop :=
  ∀ s : State,
    let boundary := s.config.launchIsBoundary = true ∨ s.slotA.pll = []
    let noSwap := s.config.launchIsBoundary = true → NoSwapAhead s
    let halts := fun (i : Int) (code : FaultCode) =>
      { s with pllchangei := i, isRunning := true, tmrMode := if s.isRunning then .draining else s.tmrMode,
               trace := s.trace ++ (if s.isRunning then [.tmrStartOneshotThenStop] else []),
               halted := true, faultCode := some code }
    (boundary → s.uploading = true → s.config.overrun = .fault →
      exec .startNow s = .next (halts (-1) .uploadOverrun)) ∧
    (s.slotA.pll = [] → NoSwapAhead s → exec .startNow s = .next (halts 0 .emptyProgram)) ∧
    (∀ c cs code, noSwap → s.slotA.pll = c :: cs → FailsWith c s.slotA code →
      exec .startNow s = .next (halts 0 code)) ∧
    ∀ c cs code, boundary → s.uploading = false → s.slotB.pll = c :: cs → FailsWith c s.slotB code → ∃ t,
      exec .startNow s = .next t ∧ t.active = s.active.other ∧ t.slotA = s.slotB ∧ t.slotB = .empty ∧
      { t with slot0 := s.slot0, slot1 := s.slot1, active := s.active } = halts 0 code

/-- R230, R242: every command answers a next state, from every state: a fault of the block is one, and no launch reads
an entry that does not exist. -/
def Obligations.EveryCommandHasANextState : Prop := ∀ i s, ∃ t, exec i s = .next t

/-- R40's column of writers, R231 to R240: no command touches the ring, the message buffer, the pending command or
`tmr_reload`; and every command but `StartNow` leaves `active`, the playback position and `phase` alone. Nor does one
touch the model's own elements: the parameters (assumption log 1), the line, the agenda and the counter of draws
(assumption log 2). -/
def Obligations.CommandsLeaveTheLinkAndThePositionAlone : Prop :=
  ∀ i s t, exec i s = .next t →
    (t.ringMem = s.ringMem ∧ t.ringRd = s.ringRd ∧ t.ringWr = s.ringWr ∧ t.ringCount = s.ringCount ∧
      t.msgBuf = s.msgBuf ∧ t.msgLen = s.msgLen ∧ t.msgOvf = s.msgOvf ∧ t.pendingCmd = s.pendingCmd ∧
      t.tmrReload = s.tmrReload ∧ t.config = s.config ∧ t.line = s.line ∧ t.agenda = s.agenda ∧ t.draws = s.draws) ∧
    (i ≠ .startNow → t.active = s.active ∧ t.pllchangei = s.pllchangei ∧ t.fracnI = s.fracnI ∧ t.fracnRem = s.fracnRem ∧
      t.phase = s.phase)

/-- R318: the commands that are safe to repeat: running one twice is running it once. -/
def Obligations.RepeatableCommandsAreIdempotent : Prop :=
  ∀ i s t, i = .ping ∨ i = .uploadDone ∨ i = .stopNow ∨ (i = .clearBuffers ∧ s.isRunning = false) ∨
      (∃ p, i = .setLooping p ∨ i = .epochNow p ∨ i = .startAtEpoch p) →
    exec i s = .next t → exec i t = .next t

/-! ## Playback -/

/-- R197: the lock completes the step. -/
def Obligations.LockArmsTheTimer : Prop :=
  ∀ s o c, s.halted = false → s.phase = .lockWait o c →
    act .lock s = .next { s with trace := s.trace ++ [.synOutputEnable, .tmrSetPeriod c.timUs, .tmrStart],
                                 tmrReload := c.timUs, tmrMode := .periodic, phase := .normal }

/-- R200: a tick that finds the block not running changes `tmr_mode` only, and only from `Draining`. -/
def Obligations.StaleTickChangesOnlyTheTimer : Prop :=
  ∀ s, s.halted = false → s.phase = .normal → s.tmrMode ≠ .off → s.isRunning = false →
    (s.tmrMode = .draining → act .tick s = .next { s with tmrMode := .off }) ∧
    (s.tmrMode = .periodic → act .tick s = .next s)

/-- R200: a tick inside a run applies the next value. -/
def Obligations.TickAppliesTheNextValue : Prop :=
  ∀ s v, s.halted = false → s.phase = .normal → s.tmrMode = .periodic → s.isRunning = true → s.fracnRem ≠ 0#32 →
    s.fracnI.toNat + 1 < 2 ^ 32 → s.slotA.fracn[s.fracnI.toNat + 1]? = some v → ∃ t, act .tick s = .next t ∧
      t.fracnI.toNat = s.fracnI.toNat + 1 ∧ t.fracnRem.toNat = s.fracnRem.toNat - 1 ∧
      t.trace = s.trace ++ [.synSetFractional v] ∧
      { t with fracnI := s.fracnI, fracnRem := s.fracnRem, trace := s.trace } = s

/-- R190, R192, R195, R196, R200: the tick after a run's last value, not at a loop boundary, programs the next
change. -/
def Obligations.TickStepsToTheNextChange : Prop :=
  ∀ s c v, s.halted = false → s.phase = .normal → s.tmrMode = .periodic → s.isRunning = true → s.fracnRem = 0#32 →
    0 ≤ s.pllchangei → s.slotA.pll[(s.pllchangei + 1).toNat]? = some c → 1 ≤ c.forTicks.toNat →
    c.startTick.toNat + c.forTicks.toNat ≤ s.slotA.fracn.length → c.timUs ≠ 0#32 →
    s.slotA.fracn[c.startTick.toNat]? = some v → ∃ t, act .tick s = .next t ∧
      t.pllchangei = s.pllchangei + 1 ∧ t.fracnI = c.startTick ∧ t.fracnRem.toNat = c.forTicks.toNat - 1 ∧
      t.phase = .lockWait .tick c ∧
      t.trace = s.trace ++ [.synDisable, .synConfigure c.divn c.divp c.vcosel, .synSetFractional v, .synEnable] ∧
      { t with pllchangei := s.pllchangei, fracnI := s.fracnI, fracnRem := s.fracnRem, phase := s.phase,
               trace := s.trace } = s

/-- R194, R263, R274: where the next change cannot be played, the tick halts the block with the first code that applies,
and programs nothing; `pllchangei` is already advanced. -/
def Obligations.TickThatCannotPlayHalts : Prop :=
  ∀ s c, s.halted = false → s.phase = .normal → s.tmrMode = .periodic → s.isRunning = true → s.fracnRem = 0#32 →
    0 ≤ s.pllchangei → s.slotA.pll[(s.pllchangei + 1).toNat]? = some c →
    (c.forTicks.toNat = 0 ∨ s.slotA.fracn.length < c.startTick.toNat + c.forTicks.toNat → act .tick s =
      .next { s with pllchangei := s.pllchangei + 1, halted := true, faultCode := some .invalidChange }) ∧
    (1 ≤ c.forTicks.toNat → c.startTick.toNat + c.forTicks.toNat ≤ s.slotA.fracn.length → c.timUs = 0#32 → act .tick s =
      .next { s with pllchangei := s.pllchangei + 1, halted := true, faultCode := some .zeroPeriod })

/-- R190, R191, R192, R195, R196, R202: at a loop boundary without a swap, be it that no upload is pending or that one is
open under `Defer`, there is no fault and the same program starts again: its first change is programmed, and the slots,
`active` and `uploading` stay. -/
def Obligations.BoundaryWithoutSwapReplaysTheProgram : Prop :=
  ∀ s c cs v, s.halted = false → s.phase = .normal → s.tmrMode = .periodic → s.isRunning = true → s.fracnRem = 0#32 →
    (s.slotA.pll.length : Int) ≤ s.pllchangei + 1 → NoSwapAhead s → s.slotA.pll = c :: cs → 1 ≤ c.forTicks.toNat →
    c.startTick.toNat + c.forTicks.toNat ≤ s.slotA.fracn.length → c.timUs ≠ 0#32 →
    s.slotA.fracn[c.startTick.toNat]? = some v → ∃ t, act .tick s = .next t ∧
      t.pllchangei = 0 ∧ t.fracnI = c.startTick ∧ t.fracnRem.toNat = c.forTicks.toNat - 1 ∧
      t.phase = .lockWait .tick c ∧
      t.trace = s.trace ++ [.synDisable, .synConfigure c.divn c.divp c.vcosel, .synSetFractional v, .synEnable] ∧
      { t with pllchangei := s.pllchangei, fracnI := s.fracnI, fracnRem := s.fracnRem, phase := s.phase,
               trace := s.trace } = s

/-- R190, R191, R192, R195, R196, R202: at the first loop boundary after `UploadDone` the swap happens, the new back slot
is emptied, and the uploaded program's first change is programmed. -/
def Obligations.PendingUploadSwapsAtTheBoundary : Prop :=
  ∀ s c cs v, s.halted = false → s.phase = .normal → s.tmrMode = .periodic → s.isRunning = true → s.fracnRem = 0#32 →
    (s.slotA.pll.length : Int) ≤ s.pllchangei + 1 → s.uploading = false → s.slotB.pll = c :: cs →
    1 ≤ c.forTicks.toNat → c.startTick.toNat + c.forTicks.toNat ≤ s.slotB.fracn.length → c.timUs ≠ 0#32 →
    s.slotB.fracn[c.startTick.toNat]? = some v →
    ∃ t, act .tick s = .next t ∧ t.active = s.active.other ∧ t.slotA = s.slotB ∧ t.slotB = .empty ∧
      t.pllchangei = 0 ∧ t.fracnI = c.startTick ∧ t.fracnRem.toNat = c.forTicks.toNat - 1 ∧
      t.phase = .lockWait .tick c ∧
      t.trace = s.trace ++ [.synDisable, .synConfigure c.divn c.divp c.vcosel, .synSetFractional v, .synEnable] ∧
      { t with slot0 := s.slot0, slot1 := s.slot1, active := s.active, pllchangei := s.pllchangei, fracnI := s.fracnI,
               fracnRem := s.fracnRem, phase := s.phase, trace := s.trace } = s

/-- R191, R193, R194, R263, R274: where the change a loop boundary selects cannot be played, the tick halts the block with
the first code that applies and emits nothing; `pllchangei` is 0, and any swap of the step has occurred. -/
def Obligations.TickAtBoundaryThatCannotPlayHalts : Prop :=
  ∀ s : State, s.halted = false → s.phase = .normal → s.tmrMode = .periodic → s.isRunning = true → s.fracnRem = 0#32 →
    (s.slotA.pll.length : Int) ≤ s.pllchangei + 1 →
    let halts := fun (code : FaultCode) => { s with pllchangei := 0, halted := true, faultCode := some code }
    (s.slotA.pll = [] → NoSwapAhead s → act .tick s = .next (halts .emptyProgram)) ∧
    (∀ c cs code, NoSwapAhead s → s.slotA.pll = c :: cs → FailsWith c s.slotA code →
      act .tick s = .next (halts code)) ∧
    ∀ c cs code, s.uploading = false → s.slotB.pll = c :: cs → FailsWith c s.slotB code → ∃ t,
      act .tick s = .next t ∧ t.active = s.active.other ∧ t.slotA = s.slotB ∧ t.slotB = .empty ∧
      { t with slot0 := s.slot0, slot1 := s.slot1, active := s.active } = halts code

/-- R191, R263: under policy `Fault` a loop boundary with an upload open halts the block and changes nothing else. -/
def Obligations.OpenUploadFaultsUnderPolicyFault : Prop :=
  ∀ s, s.halted = false → s.phase = .normal → s.tmrMode = .periodic → s.isRunning = true → s.fracnRem = 0#32 →
    (s.slotA.pll.length : Int) ≤ s.pllchangei + 1 → s.uploading = true → s.config.overrun = .fault →
    act .tick s = .next { s with halted := true, faultCode := some .uploadOverrun }

/-- R189, R200, R313: after `StopNow` on a running block one more expiry changes `tmr_mode` to `Off`, and no later one
is enabled. -/
def Obligations.AtMostOneExpiryAfterStop : Prop :=
  ∀ s t, s.halted = false → s.phase = .normal → s.isRunning = true → exec .stopNow s = .next t →
    ∀ n, acts (List.replicate (n + 1) .tick) t = .next { t with tmrMode := .off }

/-- R195, R200, R199: the ticks of one run apply its values one by one, in increasing order of their index. -/
def Obligations.TicksApplyTheRunInOrder : Prop :=
  ∀ s k, s.halted = false → s.phase = .normal → s.isRunning = true → s.tmrMode = .periodic →
    s.slotA.fracn.length ≤ 2 ^ 32 → s.fracnI.toNat + s.fracnRem.toNat < s.slotA.fracn.length → k ≤ s.fracnRem.toNat →
    ∃ t, playTicks k s = .next t ∧ t.fracnI.toNat = s.fracnI.toNat + k ∧ t.fracnRem.toNat = s.fracnRem.toNat - k ∧
      t.trace = s.trace ++ ((s.slotA.fracn.drop (s.fracnI.toNat + 1)).take k).map .synSetFractional ∧
      { t with fracnI := s.fracnI, fracnRem := s.fracnRem, trace := s.trace } = s

/-- R199, R201: with no swap ahead, a program whose changes can all be played applies, in one loop, the values of its
runs in order, and after as many ticks as the runs have it stands where it began. The first value was applied by the
step that programmed the first change, so the loop ends by applying it again. -/
def Obligations.LoopPlaysEveryRunInOrder : Prop :=
  ∀ s c cs, Playing s → NoSwapAhead s → s.slotA.pll = c :: cs → s.pllchangei = 0 → s.fracnI = c.startTick →
    s.fracnRem.toNat = c.forTicks.toNat - 1 → ∃ t, playTicks (loopTicks s.slotA) s = .next t ∧
      appliedValues t = appliedValues s ++ (loopValues s.slotA).tail ++ (loopValues s.slotA).take 1 ∧
      t.pllchangei = 0 ∧ t.fracnI = c.startTick ∧ t.fracnRem = s.fracnRem ∧ t.active = s.active ∧
      t.slot0 = s.slot0 ∧ t.slot1 = s.slot1 ∧ t.halted = false ∧ t.phase = .normal ∧ t.isRunning = true

/-! ## Runs -/

/-- R303: a run that has a last state has ended there, halted or with phase `Normal` and no foreground step enabled, and
its result is that state with its outputs; or it is left in a lock wait, and has not ended. How the lines are run is the
model's (assumption log 13). -/
def Obligations.RunEndsUnlessItWaitsForLock : Prop :=
  ∀ lines s t, run lines s = .next t →
    (runResult lines s = some { final := t, trace := t.trace, txStream := t.txStream } ∧
      (t.halted = true ∨ t.phase = .normal ∧ (∀ n, enabled (.drain n) t = false) ∧ enabled .dispatch t = false)) ∨
    (runResult lines s = none ∧ t.halted = false ∧ ∃ o c, t.phase = .lockWait o c)
end

