-- ==== Sys2Proof/Laws/Decode.lean ====
section
/-! SUPPORT. The small laws of the wire's byte assembly and of the COBS loop. -/

namespace Sys2Proof

theorem le16_bytes16 (v : U16) : le16 (BitVec.ofNat 8 v.toNat) (BitVec.ofNat 8 (v.toNat / 256)) = v := by
  apply BitVec.eq_of_toNat_eq
  have := v.isLt
  simp only [le16, BitVec.toNat_ofNat]
  omega

theorem le32_bytes32 (v : U32) :
    le32 (BitVec.ofNat 8 v.toNat) (BitVec.ofNat 8 (v.toNat / 256)) (BitVec.ofNat 8 (v.toNat / 65536))
      (BitVec.ofNat 8 (v.toNat / 16777216)) = v := by
  apply BitVec.eq_of_toNat_eq
  have := v.isLt
  simp only [le32, BitVec.toNat_ofNat]
  omega

theorem bytes16_le16 (b0 b1 : Byte) : bytes16 (le16 b0 b1) = [b0, b1] := by
  have := b0.isLt
  have := b1.isLt
  simp only [bytes16, le16, BitVec.toNat_ofNat, List.cons.injEq, and_true]
  constructor <;> apply BitVec.eq_of_toNat_eq <;> simp only [BitVec.toNat_ofNat] <;> omega

theorem bytes32_le32 (b0 b1 b2 b3 : Byte) : bytes32 (le32 b0 b1 b2 b3) = [b0, b1, b2, b3] := by
  have := b0.isLt
  have := b1.isLt
  have := b2.isLt
  have := b3.isLt
  simp only [bytes32, le32, BitVec.toNat_ofNat, List.cons.injEq, and_true]
  refine ⟨?_, ?_, ?_, ?_⟩ <;> apply BitVec.eq_of_toNat_eq <;> simp only [BitVec.toNat_ofNat] <;> omega

@[simp] theorem le16s_flatMap_bytes16 (vs : List U16) : le16s (vs.flatMap bytes16) = vs := by
  induction vs with
  | nil => rfl
  | cons v vs ih => simp only [List.flatMap_cons, bytes16, List.cons_append, List.nil_append, le16s, le16_bytes16, ih]

@[simp] theorem length_flatMap_bytes16 (vs : List U16) : (vs.flatMap bytes16).length = 2 * vs.length := by
  induction vs with
  | nil => rfl
  | cons v vs ih => simp [bytes16, ih]; omega

/-- An even number of bytes is the bytes of its 16-bit values. -/
theorem flatMap_bytes16_le16s (n : Nat) (bs : List Byte) (h : bs.length = 2 * n) :
    (le16s bs).flatMap bytes16 = bs ∧ (le16s bs).length = n := by
  induction n generalizing bs with
  | zero => have : bs = [] := List.length_eq_zero_iff.1 (by omega)
            subst this; exact ⟨rfl, rfl⟩
  | succ n ih =>
    match bs, h with
    | b0 :: b1 :: rest, h =>
      obtain ⟨h1, h2⟩ := ih rest (by simp at h; omega)
      simp [le16s, bytes16_le16, h1, h2]

/-- One block of the COBS loop: a code byte, its data bytes, and the rest (R160). -/
theorem cobsBlocks_cons {fuel : Nat} {data after : List Byte} (hd : data.length ≤ 254) :
    cobsBlocks (fuel + 1) (BitVec.ofNat 8 (data.length + 1) :: (data ++ after)) =
      (cobsBlocks fuel after).map fun out =>
        data ++ (if data.length + 1 < 255 ∧ after ≠ [] then [0x00#8] else []) ++ out := by
  have hc : (BitVec.ofNat 8 (data.length + 1)).toNat = data.length + 1 := by
    simp only [BitVec.toNat_ofNat]; omega
  have hne : BitVec.ofNat 8 (data.length + 1) ≠ 0x00#8 := by
    intro h
    have := congrArg BitVec.toNat h
    rw [hc] at this
    simp at this
  have hlen : ¬ (data ++ after).length < data.length := by simp
  simp only [cobsBlocks, hne, if_false, hc, Nat.add_sub_cancel, hlen, List.take_left', List.drop_left']

/-- Fuel beyond the number of bytes changes nothing. -/
theorem cobsBlocks_fuel {fuel fuel' : Nat} {e : List Byte} (h : e.length ≤ fuel) (h' : e.length ≤ fuel') :
    cobsBlocks fuel e = cobsBlocks fuel' e := by
  induction fuel generalizing fuel' e with
  | zero =>
    have : e = [] := List.length_eq_zero_iff.1 (by omega)
    subst this
    cases fuel' <;> rfl
  | succ fuel ih =>
    cases e with
    | nil => cases fuel' <;> rfl
    | cons c rest =>
      cases fuel' with
      | zero => simp at h'
      | succ fuel' =>
        simp only [List.length_cons] at h h'
        have := ih (fuel' := fuel') (e := rest.drop (c.toNat - 1)) (by simp; omega) (by simp; omega)
        simp only [cobsBlocks, this]

/-- The COBS loop with all the fuel it can use. -/
theorem cobsDecode_of_ne_nil {e : List Byte} (h : e ≠ []) {fuel : Nat} (hf : e.length ≤ fuel) :
    cobsDecode e = cobsBlocks fuel e := by
  simp only [cobsDecode, h, if_false]
  exact cobsBlocks_fuel (Nat.le_refl _) hf

end Sys2Proof
end

