-- ==== Sys2Proof/Laws/Memory.lean ====
section
/-! SUPPORT. The laws of the byte memories: a read after a write, what a write leaves alone, and that every memory
operation keeps the canonical form. -/

namespace Sys2Proof.Machine

theorem memRead_memWrite_same (m : Memory) (i : Nat) (b : Byte) : memRead (memWrite m i b) i = some b := by
  induction m with
  | nil => simp [memWrite, memRead]
  | cons e rest ih =>
    obtain ⟨a, c⟩ := e
    simp only [memWrite]
    split
    · simp [memRead]
    · split
      · simp [memRead]
      · simp [memRead, *]

theorem memRead_memWrite_ne (m : Memory) {i j : Nat} (b : Byte) (h : j ≠ i) :
    memRead (memWrite m i b) j = memRead m j := by
  induction m with
  | nil => simp [memWrite, memRead, h]
  | cons e rest ih =>
    obtain ⟨a, c⟩ := e
    simp only [memWrite]
    split
    · simp [memRead, h]
    · split
      · next he => subst he; simp [memRead, h]
      · simp [memRead, ih]

/-- The canonical form says that the indices rise strictly. -/
theorem Memory.wf_iff_pairwise (m : Memory) : m.wf = true ↔ m.Pairwise fun x y => x.1 < y.1 := by
  induction m with
  | nil => simp [Memory.wf]
  | cons e rest ih =>
    obtain ⟨a, c⟩ := e
    cases rest with
    | nil => simp [Memory.wf]
    | cons e' rest' =>
      obtain ⟨b, v⟩ := e'
      simp only [Memory.wf, Bool.and_eq_true, decide_eq_true_eq, ih, List.pairwise_cons, List.mem_cons]
      constructor
      · rintro ⟨hab, hall, hp⟩
        refine ⟨?_, hall, hp⟩
        rintro x (rfl | hx)
        · exact hab
        · exact Nat.lt_trans hab (hall x hx)
      · rintro ⟨hall, hp⟩
        exact ⟨hall _ (Or.inl rfl), hp⟩

/-- What a write lists: the new entry, or one that was listed before. -/
theorem mem_memWrite {m : Memory} {i : Nat} {b : Byte} {e : Host.Cell} (h : e ∈ memWrite m i b) :
    e = (i, b) ∨ e ∈ m := by
  induction m with
  | nil => simpa [memWrite] using h
  | cons x rest ih =>
    obtain ⟨a, c⟩ := x
    simp only [memWrite] at h
    split at h
    · simpa using h
    · split at h
      · rcases List.mem_cons.1 h with h | h
        · exact .inl h
        · exact .inr (List.mem_cons_of_mem _ h)
      · rcases List.mem_cons.1 h with h | h
        · exact .inr (h ▸ List.mem_cons_self)
        · exact (ih h).imp id (List.mem_cons_of_mem _)

/-- A write keeps the canonical form. -/
theorem memWrite_wf {m : Memory} (h : m.wf = true) (i : Nat) (b : Byte) : (memWrite m i b).wf = true := by
  rw [Memory.wf_iff_pairwise] at h ⊢
  induction m with
  | nil => simp [memWrite]
  | cons x rest ih =>
    obtain ⟨a, c⟩ := x
    rw [List.pairwise_cons] at h
    simp only [memWrite]
    split
    · next hia =>
      refine List.pairwise_cons.2 ⟨?_, List.pairwise_cons.2 h⟩
      intro y hy
      rcases List.mem_cons.1 hy with rfl | hy
      · exact hia
      · exact Nat.lt_trans hia (h.1 y hy)
    · split
      · next he => subst he; exact List.pairwise_cons.2 h
      · refine List.pairwise_cons.2 ⟨?_, ih h.2⟩
        intro y hy
        rcases mem_memWrite hy with rfl | hy
        · simp only; omega
        · exact h.1 y hy

theorem mem_of_memRead {m : Memory} {i : Nat} {b : Byte} (h : memRead m i = some b) : (i, b) ∈ m := by
  induction m with
  | nil => simp [memRead] at h
  | cons x rest ih =>
    obtain ⟨a, c⟩ := x
    simp only [memRead] at h
    split at h
    · next he => simp_all
    · exact List.mem_cons_of_mem _ (ih h)

theorem memRead_of_mem {m : Memory} (hw : m.wf = true) {i : Nat} {b : Byte} (h : (i, b) ∈ m) : memRead m i = some b := by
  rw [Memory.wf_iff_pairwise] at hw
  induction m with
  | nil => simp at h
  | cons x rest ih =>
    obtain ⟨a, c⟩ := x
    rw [List.pairwise_cons] at hw
    rcases List.mem_cons.1 h with he | hr
    · cases he; simp [memRead]
    · have : a < i := hw.1 _ hr
      simp only [memRead]
      rw [if_neg (by omega), ih hw.2 hr]

/-- Equal memories are equal data: two canonical memories that read alike are the same list. -/
theorem memory_ext {m n : Memory} (hm : m.wf = true) (hn : n.wf = true) (h : ∀ i, memRead m i = memRead n i) : m = n := by
  have key : ∀ e, e ∈ m ↔ e ∈ n := fun ⟨i, b⟩ =>
    ⟨fun he => mem_of_memRead (by rw [← h]; exact memRead_of_mem hm he),
     fun he => mem_of_memRead (by rw [h]; exact memRead_of_mem hn he)⟩
  rw [Memory.wf_iff_pairwise] at hm hn
  clear h
  induction m generalizing n with
  | nil =>
    cases n with
    | nil => rfl
    | cons e n' => exact absurd ((key e).2 List.mem_cons_self) (by simp)
  | cons x m' ih =>
    cases n with
    | nil => exact absurd ((key x).1 List.mem_cons_self) (by simp)
    | cons y n' =>
      rw [List.pairwise_cons] at hm hn
      have hxy : x = y := by
        rcases List.mem_cons.1 ((key x).1 List.mem_cons_self) with hx | hx
        · exact hx
        · rcases List.mem_cons.1 ((key y).2 List.mem_cons_self) with hy | hy
          · exact hy.symm
          · have := hn.1 x hx; have := hm.1 y hy; omega
      subst hxy
      congr 1
      refine ih hm.2 hn.2 fun e => ⟨fun he => ?_, fun he => ?_⟩
      · rcases List.mem_cons.1 ((key e).1 (List.mem_cons_of_mem _ he)) with hx | hx
        · subst hx; exact absurd (hm.1 _ he) (Nat.lt_irrefl _)
        · exact hx
      · rcases List.mem_cons.1 ((key e).2 (List.mem_cons_of_mem _ he)) with hx | hx
        · subst hx; exact absurd (hn.1 _ he) (Nat.lt_irrefl _)
        · exact hx

/-- The bulk write of the ring keeps the canonical form. -/
theorem ringStore_wf {m : Memory} (h : m.wf = true) (cap i : Nat) (data : List Byte) :
    (ringStore cap m i data).wf = true := by
  induction data generalizing m i with
  | nil => exact h
  | cons b rest ih => exact ih (memWrite_wf h _ _) _

/-- The bulk write of the ring writes below the capacity only. -/
theorem ringStore_bounded {m : Memory} {cap : Nat} (hc : 1 ≤ cap) (h : ∀ a b, (a, b) ∈ m → a < cap) (i : Nat)
    (data : List Byte) : ∀ a b, (a, b) ∈ ringStore cap m i data → a < cap := by
  induction data generalizing m i with
  | nil => exact h
  | cons c rest ih =>
    refine ih (fun a b hab => ?_) _
    rcases mem_memWrite hab with he | hm
    · cases he; exact Nat.mod_lt _ hc
    · exact h a b hm

/-- The memories after reset are canonical. -/
theorem reset_memories_wf : State.reset.ringMem.wf = true ∧ State.reset.msgBuf.wf = true := ⟨rfl, rfl⟩

theorem memReadRange_length {m : Memory} {i n : Nat} {l : List Byte} (h : memReadRange m i n = some l) : l.length = n := by
  induction n generalizing i l with
  | zero => simp [memReadRange] at h; simp [← h]
  | succ n ih =>
    simp only [memReadRange] at h
    split at h
    · cases h
    · cases hr : memReadRange m (i + 1) n with
      | none => rw [hr] at h; cases h
      | some bs => rw [hr] at h; cases h; simp [ih hr]

/-- A range read succeeds exactly when each of its bytes has been written, and returns them in order. -/
theorem memReadRange_eq_some {m : Memory} {i : Nat} {l : List Byte} :
    memReadRange m i l.length = some l ↔ ∀ j (h : j < l.length), memRead m (i + j) = some l[j] := by
  induction l generalizing i with
  | nil => simp [memReadRange]
  | cons b rest ih =>
    simp only [List.length_cons, memReadRange]
    constructor
    · intro h
      split at h
      · cases h
      · next c hc =>
        cases hr : memReadRange m (i + 1) rest.length with
        | none => rw [hr] at h; cases h
        | some bs =>
          rw [hr] at h; cases h
          intro j hj
          cases j with
          | zero => simpa using hc
          | succ j => simpa [Nat.add_assoc, Nat.add_comm 1 j] using (ih.1 hr) j (by simpa using hj)
    · intro h
      have h0 : memRead m i = some b := by simpa using h 0 (by simp)
      have hr : memReadRange m (i + 1) rest.length = some rest :=
        ih.2 fun j hj => by
          have := h (j + 1) (Nat.succ_lt_succ hj)
          rwa [List.getElem_cons_succ, Nat.add_comm j 1, ← Nat.add_assoc] at this
      simp [h0, hr]

/-- A range of written bytes can be read. -/
theorem memReadRange_isSome {m : Memory} {i n : Nat} (h : ∀ j, j < n → (memRead m (i + j)).isSome) :
    ∃ l, memReadRange m i n = some l := by
  induction n generalizing i with
  | zero => exact ⟨[], rfl⟩
  | succ n ih =>
    obtain ⟨l, hl⟩ := ih (i := i + 1) fun j hj => by simpa [Nat.add_assoc, Nat.add_comm 1 j] using h (j + 1) (by omega)
    obtain ⟨b, hb⟩ := Option.isSome_iff_exists.1 (by simpa using h 0 (by omega))
    exact ⟨b :: l, by simp [memReadRange, hb, hl]⟩

end Sys2Proof.Machine
end

