-- ==== Sys2Proof/Laws/State.lean ====
section
/-! SUPPORT. What each update of the state leaves in each field: one lemma per field per update, so that no later proof
unfolds a record update; then the slots seen through `active`. -/

namespace Sys2Proof.Machine

/-! ### emit -/

@[simp] theorem emit_slot0 (e : PortEvent) (s : State) : (emit e s).slot0 = s.slot0 := rfl
@[simp] theorem emit_slot1 (e : PortEvent) (s : State) : (emit e s).slot1 = s.slot1 := rfl
@[simp] theorem emit_active (e : PortEvent) (s : State) : (emit e s).active = s.active := rfl
@[simp] theorem emit_pllchangei (e : PortEvent) (s : State) : (emit e s).pllchangei = s.pllchangei := rfl
@[simp] theorem emit_fracnI (e : PortEvent) (s : State) : (emit e s).fracnI = s.fracnI := rfl
@[simp] theorem emit_fracnRem (e : PortEvent) (s : State) : (emit e s).fracnRem = s.fracnRem := rfl
@[simp] theorem emit_isRunning (e : PortEvent) (s : State) : (emit e s).isRunning = s.isRunning := rfl
@[simp] theorem emit_uploading (e : PortEvent) (s : State) : (emit e s).uploading = s.uploading := rfl
@[simp] theorem emit_ringMem (e : PortEvent) (s : State) : (emit e s).ringMem = s.ringMem := rfl
@[simp] theorem emit_ringRd (e : PortEvent) (s : State) : (emit e s).ringRd = s.ringRd := rfl
@[simp] theorem emit_ringWr (e : PortEvent) (s : State) : (emit e s).ringWr = s.ringWr := rfl
@[simp] theorem emit_ringCount (e : PortEvent) (s : State) : (emit e s).ringCount = s.ringCount := rfl
@[simp] theorem emit_msgBuf (e : PortEvent) (s : State) : (emit e s).msgBuf = s.msgBuf := rfl
@[simp] theorem emit_msgLen (e : PortEvent) (s : State) : (emit e s).msgLen = s.msgLen := rfl
@[simp] theorem emit_msgOvf (e : PortEvent) (s : State) : (emit e s).msgOvf = s.msgOvf := rfl
@[simp] theorem emit_pendingCmd (e : PortEvent) (s : State) : (emit e s).pendingCmd = s.pendingCmd := rfl
@[simp] theorem emit_tmrMode (e : PortEvent) (s : State) : (emit e s).tmrMode = s.tmrMode := rfl
@[simp] theorem emit_tmrReload (e : PortEvent) (s : State) : (emit e s).tmrReload = s.tmrReload := rfl
@[simp] theorem emit_phase (e : PortEvent) (s : State) : (emit e s).phase = s.phase := rfl
@[simp] theorem emit_halted (e : PortEvent) (s : State) : (emit e s).halted = s.halted := rfl
@[simp] theorem emit_faultCode (e : PortEvent) (s : State) : (emit e s).faultCode = s.faultCode := rfl
@[simp] theorem emit_trace (e : PortEvent) (s : State) : (emit e s).trace = s.trace ++ [e] := rfl
@[simp] theorem emit_config (e : PortEvent) (s : State) : (emit e s).config = s.config := rfl
@[simp] theorem emit_line (e : PortEvent) (s : State) : (emit e s).line = s.line := rfl
@[simp] theorem emit_agenda (e : PortEvent) (s : State) : (emit e s).agenda = s.agenda := rfl
@[simp] theorem emit_draws (e : PortEvent) (s : State) : (emit e s).draws = s.draws := rfl

/-! ### emitAll -/

@[simp] theorem emitAll_slot0 (es : List PortEvent) (s : State) : (emitAll es s).slot0 = s.slot0 := rfl
@[simp] theorem emitAll_slot1 (es : List PortEvent) (s : State) : (emitAll es s).slot1 = s.slot1 := rfl
@[simp] theorem emitAll_active (es : List PortEvent) (s : State) : (emitAll es s).active = s.active := rfl
@[simp] theorem emitAll_pllchangei (es : List PortEvent) (s : State) : (emitAll es s).pllchangei = s.pllchangei := rfl
@[simp] theorem emitAll_fracnI (es : List PortEvent) (s : State) : (emitAll es s).fracnI = s.fracnI := rfl
@[simp] theorem emitAll_fracnRem (es : List PortEvent) (s : State) : (emitAll es s).fracnRem = s.fracnRem := rfl
@[simp] theorem emitAll_isRunning (es : List PortEvent) (s : State) : (emitAll es s).isRunning = s.isRunning := rfl
@[simp] theorem emitAll_uploading (es : List PortEvent) (s : State) : (emitAll es s).uploading = s.uploading := rfl
@[simp] theorem emitAll_ringMem (es : List PortEvent) (s : State) : (emitAll es s).ringMem = s.ringMem := rfl
@[simp] theorem emitAll_ringRd (es : List PortEvent) (s : State) : (emitAll es s).ringRd = s.ringRd := rfl
@[simp] theorem emitAll_ringWr (es : List PortEvent) (s : State) : (emitAll es s).ringWr = s.ringWr := rfl
@[simp] theorem emitAll_ringCount (es : List PortEvent) (s : State) : (emitAll es s).ringCount = s.ringCount := rfl
@[simp] theorem emitAll_msgBuf (es : List PortEvent) (s : State) : (emitAll es s).msgBuf = s.msgBuf := rfl
@[simp] theorem emitAll_msgLen (es : List PortEvent) (s : State) : (emitAll es s).msgLen = s.msgLen := rfl
@[simp] theorem emitAll_msgOvf (es : List PortEvent) (s : State) : (emitAll es s).msgOvf = s.msgOvf := rfl
@[simp] theorem emitAll_pendingCmd (es : List PortEvent) (s : State) : (emitAll es s).pendingCmd = s.pendingCmd := rfl
@[simp] theorem emitAll_tmrMode (es : List PortEvent) (s : State) : (emitAll es s).tmrMode = s.tmrMode := rfl
@[simp] theorem emitAll_tmrReload (es : List PortEvent) (s : State) : (emitAll es s).tmrReload = s.tmrReload := rfl
@[simp] theorem emitAll_phase (es : List PortEvent) (s : State) : (emitAll es s).phase = s.phase := rfl
@[simp] theorem emitAll_halted (es : List PortEvent) (s : State) : (emitAll es s).halted = s.halted := rfl
@[simp] theorem emitAll_faultCode (es : List PortEvent) (s : State) : (emitAll es s).faultCode = s.faultCode := rfl
@[simp] theorem emitAll_trace (es : List PortEvent) (s : State) : (emitAll es s).trace = s.trace ++ es := rfl
@[simp] theorem emitAll_config (es : List PortEvent) (s : State) : (emitAll es s).config = s.config := rfl
@[simp] theorem emitAll_line (es : List PortEvent) (s : State) : (emitAll es s).line = s.line := rfl
@[simp] theorem emitAll_agenda (es : List PortEvent) (s : State) : (emitAll es s).agenda = s.agenda := rfl
@[simp] theorem emitAll_draws (es : List PortEvent) (s : State) : (emitAll es s).draws = s.draws := rfl

/-! ### reply -/

@[simp] theorem reply_slot0 (b : Byte) (s : State) : (reply b s).slot0 = s.slot0 := rfl
@[simp] theorem reply_slot1 (b : Byte) (s : State) : (reply b s).slot1 = s.slot1 := rfl
@[simp] theorem reply_active (b : Byte) (s : State) : (reply b s).active = s.active := rfl
@[simp] theorem reply_pllchangei (b : Byte) (s : State) : (reply b s).pllchangei = s.pllchangei := rfl
@[simp] theorem reply_fracnI (b : Byte) (s : State) : (reply b s).fracnI = s.fracnI := rfl
@[simp] theorem reply_fracnRem (b : Byte) (s : State) : (reply b s).fracnRem = s.fracnRem := rfl
@[simp] theorem reply_isRunning (b : Byte) (s : State) : (reply b s).isRunning = s.isRunning := rfl
@[simp] theorem reply_uploading (b : Byte) (s : State) : (reply b s).uploading = s.uploading := rfl
@[simp] theorem reply_ringMem (b : Byte) (s : State) : (reply b s).ringMem = s.ringMem := rfl
@[simp] theorem reply_ringRd (b : Byte) (s : State) : (reply b s).ringRd = s.ringRd := rfl
@[simp] theorem reply_ringWr (b : Byte) (s : State) : (reply b s).ringWr = s.ringWr := rfl
@[simp] theorem reply_ringCount (b : Byte) (s : State) : (reply b s).ringCount = s.ringCount := rfl
@[simp] theorem reply_msgBuf (b : Byte) (s : State) : (reply b s).msgBuf = s.msgBuf := rfl
@[simp] theorem reply_msgLen (b : Byte) (s : State) : (reply b s).msgLen = s.msgLen := rfl
@[simp] theorem reply_msgOvf (b : Byte) (s : State) : (reply b s).msgOvf = s.msgOvf := rfl
@[simp] theorem reply_pendingCmd (b : Byte) (s : State) : (reply b s).pendingCmd = s.pendingCmd := rfl
@[simp] theorem reply_tmrMode (b : Byte) (s : State) : (reply b s).tmrMode = s.tmrMode := rfl
@[simp] theorem reply_tmrReload (b : Byte) (s : State) : (reply b s).tmrReload = s.tmrReload := rfl
@[simp] theorem reply_phase (b : Byte) (s : State) : (reply b s).phase = s.phase := rfl
@[simp] theorem reply_halted (b : Byte) (s : State) : (reply b s).halted = s.halted := rfl
@[simp] theorem reply_faultCode (b : Byte) (s : State) : (reply b s).faultCode = s.faultCode := rfl
@[simp] theorem reply_trace (b : Byte) (s : State) : (reply b s).trace = s.trace ++ [.uartTx b] := rfl
@[simp] theorem reply_config (b : Byte) (s : State) : (reply b s).config = s.config := rfl
@[simp] theorem reply_line (b : Byte) (s : State) : (reply b s).line = s.line := rfl
@[simp] theorem reply_agenda (b : Byte) (s : State) : (reply b s).agenda = s.agenda := rfl
@[simp] theorem reply_draws (b : Byte) (s : State) : (reply b s).draws = s.draws := rfl

/-! ### raiseFault -/

@[simp] theorem raiseFault_slot0 (c : FaultCode) (s : State) : (raiseFault c s).slot0 = s.slot0 := rfl
@[simp] theorem raiseFault_slot1 (c : FaultCode) (s : State) : (raiseFault c s).slot1 = s.slot1 := rfl
@[simp] theorem raiseFault_active (c : FaultCode) (s : State) : (raiseFault c s).active = s.active := rfl
@[simp] theorem raiseFault_pllchangei (c : FaultCode) (s : State) : (raiseFault c s).pllchangei = s.pllchangei := rfl
@[simp] theorem raiseFault_fracnI (c : FaultCode) (s : State) : (raiseFault c s).fracnI = s.fracnI := rfl
@[simp] theorem raiseFault_fracnRem (c : FaultCode) (s : State) : (raiseFault c s).fracnRem = s.fracnRem := rfl
@[simp] theorem raiseFault_isRunning (c : FaultCode) (s : State) : (raiseFault c s).isRunning = s.isRunning := rfl
@[simp] theorem raiseFault_uploading (c : FaultCode) (s : State) : (raiseFault c s).uploading = s.uploading := rfl
@[simp] theorem raiseFault_ringMem (c : FaultCode) (s : State) : (raiseFault c s).ringMem = s.ringMem := rfl
@[simp] theorem raiseFault_ringRd (c : FaultCode) (s : State) : (raiseFault c s).ringRd = s.ringRd := rfl
@[simp] theorem raiseFault_ringWr (c : FaultCode) (s : State) : (raiseFault c s).ringWr = s.ringWr := rfl
@[simp] theorem raiseFault_ringCount (c : FaultCode) (s : State) : (raiseFault c s).ringCount = s.ringCount := rfl
@[simp] theorem raiseFault_msgBuf (c : FaultCode) (s : State) : (raiseFault c s).msgBuf = s.msgBuf := rfl
@[simp] theorem raiseFault_msgLen (c : FaultCode) (s : State) : (raiseFault c s).msgLen = s.msgLen := rfl
@[simp] theorem raiseFault_msgOvf (c : FaultCode) (s : State) : (raiseFault c s).msgOvf = s.msgOvf := rfl
@[simp] theorem raiseFault_pendingCmd (c : FaultCode) (s : State) : (raiseFault c s).pendingCmd = s.pendingCmd := rfl
@[simp] theorem raiseFault_tmrMode (c : FaultCode) (s : State) : (raiseFault c s).tmrMode = s.tmrMode := rfl
@[simp] theorem raiseFault_tmrReload (c : FaultCode) (s : State) : (raiseFault c s).tmrReload = s.tmrReload := rfl
@[simp] theorem raiseFault_phase (c : FaultCode) (s : State) : (raiseFault c s).phase = s.phase := rfl
@[simp] theorem raiseFault_halted (c : FaultCode) (s : State) : (raiseFault c s).halted = true := rfl
@[simp] theorem raiseFault_faultCode (c : FaultCode) (s : State) : (raiseFault c s).faultCode = some c := rfl
@[simp] theorem raiseFault_trace (c : FaultCode) (s : State) : (raiseFault c s).trace = s.trace := rfl
@[simp] theorem raiseFault_config (c : FaultCode) (s : State) : (raiseFault c s).config = s.config := rfl
@[simp] theorem raiseFault_line (c : FaultCode) (s : State) : (raiseFault c s).line = s.line := rfl
@[simp] theorem raiseFault_agenda (c : FaultCode) (s : State) : (raiseFault c s).agenda = s.agenda := rfl
@[simp] theorem raiseFault_draws (c : FaultCode) (s : State) : (raiseFault c s).draws = s.draws := rfl

/-! ### setRunning -/

@[simp] theorem setRunning_slot0 (v : Bool) (s : State) : (setRunning v s).slot0 = s.slot0 := rfl
@[simp] theorem setRunning_slot1 (v : Bool) (s : State) : (setRunning v s).slot1 = s.slot1 := rfl
@[simp] theorem setRunning_active (v : Bool) (s : State) : (setRunning v s).active = s.active := rfl
@[simp] theorem setRunning_pllchangei (v : Bool) (s : State) : (setRunning v s).pllchangei = s.pllchangei := rfl
@[simp] theorem setRunning_fracnI (v : Bool) (s : State) : (setRunning v s).fracnI = s.fracnI := rfl
@[simp] theorem setRunning_fracnRem (v : Bool) (s : State) : (setRunning v s).fracnRem = s.fracnRem := rfl
@[simp] theorem setRunning_isRunning (v : Bool) (s : State) : (setRunning v s).isRunning = v := rfl
@[simp] theorem setRunning_uploading (v : Bool) (s : State) : (setRunning v s).uploading = s.uploading := rfl
@[simp] theorem setRunning_ringMem (v : Bool) (s : State) : (setRunning v s).ringMem = s.ringMem := rfl
@[simp] theorem setRunning_ringRd (v : Bool) (s : State) : (setRunning v s).ringRd = s.ringRd := rfl
@[simp] theorem setRunning_ringWr (v : Bool) (s : State) : (setRunning v s).ringWr = s.ringWr := rfl
@[simp] theorem setRunning_ringCount (v : Bool) (s : State) : (setRunning v s).ringCount = s.ringCount := rfl
@[simp] theorem setRunning_msgBuf (v : Bool) (s : State) : (setRunning v s).msgBuf = s.msgBuf := rfl
@[simp] theorem setRunning_msgLen (v : Bool) (s : State) : (setRunning v s).msgLen = s.msgLen := rfl
@[simp] theorem setRunning_msgOvf (v : Bool) (s : State) : (setRunning v s).msgOvf = s.msgOvf := rfl
@[simp] theorem setRunning_pendingCmd (v : Bool) (s : State) : (setRunning v s).pendingCmd = s.pendingCmd := rfl
@[simp] theorem setRunning_tmrMode (v : Bool) (s : State) : (setRunning v s).tmrMode = s.tmrMode := rfl
@[simp] theorem setRunning_tmrReload (v : Bool) (s : State) : (setRunning v s).tmrReload = s.tmrReload := rfl
@[simp] theorem setRunning_phase (v : Bool) (s : State) : (setRunning v s).phase = s.phase := rfl
@[simp] theorem setRunning_halted (v : Bool) (s : State) : (setRunning v s).halted = s.halted := rfl
@[simp] theorem setRunning_faultCode (v : Bool) (s : State) : (setRunning v s).faultCode = s.faultCode := rfl
@[simp] theorem setRunning_trace (v : Bool) (s : State) : (setRunning v s).trace = s.trace := rfl
@[simp] theorem setRunning_config (v : Bool) (s : State) : (setRunning v s).config = s.config := rfl
@[simp] theorem setRunning_line (v : Bool) (s : State) : (setRunning v s).line = s.line := rfl
@[simp] theorem setRunning_agenda (v : Bool) (s : State) : (setRunning v s).agenda = s.agenda := rfl
@[simp] theorem setRunning_draws (v : Bool) (s : State) : (setRunning v s).draws = s.draws := rfl

/-! ### setUploading -/

@[simp] theorem setUploading_slot0 (v : Bool) (s : State) : (setUploading v s).slot0 = s.slot0 := rfl
@[simp] theorem setUploading_slot1 (v : Bool) (s : State) : (setUploading v s).slot1 = s.slot1 := rfl
@[simp] theorem setUploading_active (v : Bool) (s : State) : (setUploading v s).active = s.active := rfl
@[simp] theorem setUploading_pllchangei (v : Bool) (s : State) : (setUploading v s).pllchangei = s.pllchangei := rfl
@[simp] theorem setUploading_fracnI (v : Bool) (s : State) : (setUploading v s).fracnI = s.fracnI := rfl
@[simp] theorem setUploading_fracnRem (v : Bool) (s : State) : (setUploading v s).fracnRem = s.fracnRem := rfl
@[simp] theorem setUploading_isRunning (v : Bool) (s : State) : (setUploading v s).isRunning = s.isRunning := rfl
@[simp] theorem setUploading_uploading (v : Bool) (s : State) : (setUploading v s).uploading = v := rfl
@[simp] theorem setUploading_ringMem (v : Bool) (s : State) : (setUploading v s).ringMem = s.ringMem := rfl
@[simp] theorem setUploading_ringRd (v : Bool) (s : State) : (setUploading v s).ringRd = s.ringRd := rfl
@[simp] theorem setUploading_ringWr (v : Bool) (s : State) : (setUploading v s).ringWr = s.ringWr := rfl
@[simp] theorem setUploading_ringCount (v : Bool) (s : State) : (setUploading v s).ringCount = s.ringCount := rfl
@[simp] theorem setUploading_msgBuf (v : Bool) (s : State) : (setUploading v s).msgBuf = s.msgBuf := rfl
@[simp] theorem setUploading_msgLen (v : Bool) (s : State) : (setUploading v s).msgLen = s.msgLen := rfl
@[simp] theorem setUploading_msgOvf (v : Bool) (s : State) : (setUploading v s).msgOvf = s.msgOvf := rfl
@[simp] theorem setUploading_pendingCmd (v : Bool) (s : State) : (setUploading v s).pendingCmd = s.pendingCmd := rfl
@[simp] theorem setUploading_tmrMode (v : Bool) (s : State) : (setUploading v s).tmrMode = s.tmrMode := rfl
@[simp] theorem setUploading_tmrReload (v : Bool) (s : State) : (setUploading v s).tmrReload = s.tmrReload := rfl
@[simp] theorem setUploading_phase (v : Bool) (s : State) : (setUploading v s).phase = s.phase := rfl
@[simp] theorem setUploading_halted (v : Bool) (s : State) : (setUploading v s).halted = s.halted := rfl
@[simp] theorem setUploading_faultCode (v : Bool) (s : State) : (setUploading v s).faultCode = s.faultCode := rfl
@[simp] theorem setUploading_trace (v : Bool) (s : State) : (setUploading v s).trace = s.trace := rfl
@[simp] theorem setUploading_config (v : Bool) (s : State) : (setUploading v s).config = s.config := rfl
@[simp] theorem setUploading_line (v : Bool) (s : State) : (setUploading v s).line = s.line := rfl
@[simp] theorem setUploading_agenda (v : Bool) (s : State) : (setUploading v s).agenda = s.agenda := rfl
@[simp] theorem setUploading_draws (v : Bool) (s : State) : (setUploading v s).draws = s.draws := rfl

/-! ### setMsgOvf -/

@[simp] theorem setMsgOvf_slot0 (v : Bool) (s : State) : (setMsgOvf v s).slot0 = s.slot0 := rfl
@[simp] theorem setMsgOvf_slot1 (v : Bool) (s : State) : (setMsgOvf v s).slot1 = s.slot1 := rfl
@[simp] theorem setMsgOvf_active (v : Bool) (s : State) : (setMsgOvf v s).active = s.active := rfl
@[simp] theorem setMsgOvf_pllchangei (v : Bool) (s : State) : (setMsgOvf v s).pllchangei = s.pllchangei := rfl
@[simp] theorem setMsgOvf_fracnI (v : Bool) (s : State) : (setMsgOvf v s).fracnI = s.fracnI := rfl
@[simp] theorem setMsgOvf_fracnRem (v : Bool) (s : State) : (setMsgOvf v s).fracnRem = s.fracnRem := rfl
@[simp] theorem setMsgOvf_isRunning (v : Bool) (s : State) : (setMsgOvf v s).isRunning = s.isRunning := rfl
@[simp] theorem setMsgOvf_uploading (v : Bool) (s : State) : (setMsgOvf v s).uploading = s.uploading := rfl
@[simp] theorem setMsgOvf_ringMem (v : Bool) (s : State) : (setMsgOvf v s).ringMem = s.ringMem := rfl
@[simp] theorem setMsgOvf_ringRd (v : Bool) (s : State) : (setMsgOvf v s).ringRd = s.ringRd := rfl
@[simp] theorem setMsgOvf_ringWr (v : Bool) (s : State) : (setMsgOvf v s).ringWr = s.ringWr := rfl
@[simp] theorem setMsgOvf_ringCount (v : Bool) (s : State) : (setMsgOvf v s).ringCount = s.ringCount := rfl
@[simp] theorem setMsgOvf_msgBuf (v : Bool) (s : State) : (setMsgOvf v s).msgBuf = s.msgBuf := rfl
@[simp] theorem setMsgOvf_msgLen (v : Bool) (s : State) : (setMsgOvf v s).msgLen = s.msgLen := rfl
@[simp] theorem setMsgOvf_msgOvf (v : Bool) (s : State) : (setMsgOvf v s).msgOvf = v := rfl
@[simp] theorem setMsgOvf_pendingCmd (v : Bool) (s : State) : (setMsgOvf v s).pendingCmd = s.pendingCmd := rfl
@[simp] theorem setMsgOvf_tmrMode (v : Bool) (s : State) : (setMsgOvf v s).tmrMode = s.tmrMode := rfl
@[simp] theorem setMsgOvf_tmrReload (v : Bool) (s : State) : (setMsgOvf v s).tmrReload = s.tmrReload := rfl
@[simp] theorem setMsgOvf_phase (v : Bool) (s : State) : (setMsgOvf v s).phase = s.phase := rfl
@[simp] theorem setMsgOvf_halted (v : Bool) (s : State) : (setMsgOvf v s).halted = s.halted := rfl
@[simp] theorem setMsgOvf_faultCode (v : Bool) (s : State) : (setMsgOvf v s).faultCode = s.faultCode := rfl
@[simp] theorem setMsgOvf_trace (v : Bool) (s : State) : (setMsgOvf v s).trace = s.trace := rfl
@[simp] theorem setMsgOvf_config (v : Bool) (s : State) : (setMsgOvf v s).config = s.config := rfl
@[simp] theorem setMsgOvf_line (v : Bool) (s : State) : (setMsgOvf v s).line = s.line := rfl
@[simp] theorem setMsgOvf_agenda (v : Bool) (s : State) : (setMsgOvf v s).agenda = s.agenda := rfl
@[simp] theorem setMsgOvf_draws (v : Bool) (s : State) : (setMsgOvf v s).draws = s.draws := rfl

/-! ### resetAssembly -/

@[simp] theorem resetAssembly_slot0 (s : State) : (resetAssembly s).slot0 = s.slot0 := rfl
@[simp] theorem resetAssembly_slot1 (s : State) : (resetAssembly s).slot1 = s.slot1 := rfl
@[simp] theorem resetAssembly_active (s : State) : (resetAssembly s).active = s.active := rfl
@[simp] theorem resetAssembly_pllchangei (s : State) : (resetAssembly s).pllchangei = s.pllchangei := rfl
@[simp] theorem resetAssembly_fracnI (s : State) : (resetAssembly s).fracnI = s.fracnI := rfl
@[simp] theorem resetAssembly_fracnRem (s : State) : (resetAssembly s).fracnRem = s.fracnRem := rfl
@[simp] theorem resetAssembly_isRunning (s : State) : (resetAssembly s).isRunning = s.isRunning := rfl
@[simp] theorem resetAssembly_uploading (s : State) : (resetAssembly s).uploading = s.uploading := rfl
@[simp] theorem resetAssembly_ringMem (s : State) : (resetAssembly s).ringMem = s.ringMem := rfl
@[simp] theorem resetAssembly_ringRd (s : State) : (resetAssembly s).ringRd = s.ringRd := rfl
@[simp] theorem resetAssembly_ringWr (s : State) : (resetAssembly s).ringWr = s.ringWr := rfl
@[simp] theorem resetAssembly_ringCount (s : State) : (resetAssembly s).ringCount = s.ringCount := rfl
@[simp] theorem resetAssembly_msgBuf (s : State) : (resetAssembly s).msgBuf = s.msgBuf := rfl
@[simp] theorem resetAssembly_msgLen (s : State) : (resetAssembly s).msgLen = 0 := rfl
@[simp] theorem resetAssembly_msgOvf (s : State) : (resetAssembly s).msgOvf = false := rfl
@[simp] theorem resetAssembly_pendingCmd (s : State) : (resetAssembly s).pendingCmd = s.pendingCmd := rfl
@[simp] theorem resetAssembly_tmrMode (s : State) : (resetAssembly s).tmrMode = s.tmrMode := rfl
@[simp] theorem resetAssembly_tmrReload (s : State) : (resetAssembly s).tmrReload = s.tmrReload := rfl
@[simp] theorem resetAssembly_phase (s : State) : (resetAssembly s).phase = s.phase := rfl
@[simp] theorem resetAssembly_halted (s : State) : (resetAssembly s).halted = s.halted := rfl
@[simp] theorem resetAssembly_faultCode (s : State) : (resetAssembly s).faultCode = s.faultCode := rfl
@[simp] theorem resetAssembly_trace (s : State) : (resetAssembly s).trace = s.trace := rfl
@[simp] theorem resetAssembly_config (s : State) : (resetAssembly s).config = s.config := rfl
@[simp] theorem resetAssembly_line (s : State) : (resetAssembly s).line = s.line := rfl
@[simp] theorem resetAssembly_agenda (s : State) : (resetAssembly s).agenda = s.agenda := rfl
@[simp] theorem resetAssembly_draws (s : State) : (resetAssembly s).draws = s.draws := rfl

/-! ### ringAdvance -/

@[simp] theorem ringAdvance_slot0 (k : Nat) (s : State) : (ringAdvance s k).slot0 = s.slot0 := rfl
@[simp] theorem ringAdvance_slot1 (k : Nat) (s : State) : (ringAdvance s k).slot1 = s.slot1 := rfl
@[simp] theorem ringAdvance_active (k : Nat) (s : State) : (ringAdvance s k).active = s.active := rfl
@[simp] theorem ringAdvance_pllchangei (k : Nat) (s : State) : (ringAdvance s k).pllchangei = s.pllchangei := rfl
@[simp] theorem ringAdvance_fracnI (k : Nat) (s : State) : (ringAdvance s k).fracnI = s.fracnI := rfl
@[simp] theorem ringAdvance_fracnRem (k : Nat) (s : State) : (ringAdvance s k).fracnRem = s.fracnRem := rfl
@[simp] theorem ringAdvance_isRunning (k : Nat) (s : State) : (ringAdvance s k).isRunning = s.isRunning := rfl
@[simp] theorem ringAdvance_uploading (k : Nat) (s : State) : (ringAdvance s k).uploading = s.uploading := rfl
@[simp] theorem ringAdvance_ringMem (k : Nat) (s : State) : (ringAdvance s k).ringMem = s.ringMem := rfl
@[simp] theorem ringAdvance_ringRd (k : Nat) (s : State) : (ringAdvance s k).ringRd = (s.ringRd + k) % s.config.ringCap := rfl
@[simp] theorem ringAdvance_ringWr (k : Nat) (s : State) : (ringAdvance s k).ringWr = s.ringWr := rfl
@[simp] theorem ringAdvance_ringCount (k : Nat) (s : State) : (ringAdvance s k).ringCount = s.ringCount - k := rfl
@[simp] theorem ringAdvance_msgBuf (k : Nat) (s : State) : (ringAdvance s k).msgBuf = s.msgBuf := rfl
@[simp] theorem ringAdvance_msgLen (k : Nat) (s : State) : (ringAdvance s k).msgLen = s.msgLen := rfl
@[simp] theorem ringAdvance_msgOvf (k : Nat) (s : State) : (ringAdvance s k).msgOvf = s.msgOvf := rfl
@[simp] theorem ringAdvance_pendingCmd (k : Nat) (s : State) : (ringAdvance s k).pendingCmd = s.pendingCmd := rfl
@[simp] theorem ringAdvance_tmrMode (k : Nat) (s : State) : (ringAdvance s k).tmrMode = s.tmrMode := rfl
@[simp] theorem ringAdvance_tmrReload (k : Nat) (s : State) : (ringAdvance s k).tmrReload = s.tmrReload := rfl
@[simp] theorem ringAdvance_phase (k : Nat) (s : State) : (ringAdvance s k).phase = s.phase := rfl
@[simp] theorem ringAdvance_halted (k : Nat) (s : State) : (ringAdvance s k).halted = s.halted := rfl
@[simp] theorem ringAdvance_faultCode (k : Nat) (s : State) : (ringAdvance s k).faultCode = s.faultCode := rfl
@[simp] theorem ringAdvance_trace (k : Nat) (s : State) : (ringAdvance s k).trace = s.trace := rfl
@[simp] theorem ringAdvance_config (k : Nat) (s : State) : (ringAdvance s k).config = s.config := rfl
@[simp] theorem ringAdvance_line (k : Nat) (s : State) : (ringAdvance s k).line = s.line := rfl
@[simp] theorem ringAdvance_agenda (k : Nat) (s : State) : (ringAdvance s k).agenda = s.agenda := rfl
@[simp] theorem ringAdvance_draws (k : Nat) (s : State) : (ringAdvance s k).draws = s.draws := rfl

/-! ### ringWrite -/

@[simp] theorem ringWrite_slot0 (data : List Byte) (s : State) : (ringWrite s data).slot0 = s.slot0 := rfl
@[simp] theorem ringWrite_slot1 (data : List Byte) (s : State) : (ringWrite s data).slot1 = s.slot1 := rfl
@[simp] theorem ringWrite_active (data : List Byte) (s : State) : (ringWrite s data).active = s.active := rfl
@[simp] theorem ringWrite_pllchangei (data : List Byte) (s : State) : (ringWrite s data).pllchangei = s.pllchangei := rfl
@[simp] theorem ringWrite_fracnI (data : List Byte) (s : State) : (ringWrite s data).fracnI = s.fracnI := rfl
@[simp] theorem ringWrite_fracnRem (data : List Byte) (s : State) : (ringWrite s data).fracnRem = s.fracnRem := rfl
@[simp] theorem ringWrite_isRunning (data : List Byte) (s : State) : (ringWrite s data).isRunning = s.isRunning := rfl
@[simp] theorem ringWrite_uploading (data : List Byte) (s : State) : (ringWrite s data).uploading = s.uploading := rfl
@[simp] theorem ringWrite_ringMem (data : List Byte) (s : State) : (ringWrite s data).ringMem = ringStore s.config.ringCap s.ringMem s.ringWr (data.take (ringAccepts s data)) := rfl
@[simp] theorem ringWrite_ringRd (data : List Byte) (s : State) : (ringWrite s data).ringRd = s.ringRd := rfl
@[simp] theorem ringWrite_ringWr (data : List Byte) (s : State) : (ringWrite s data).ringWr = (s.ringWr + ringAccepts s data) % s.config.ringCap := rfl
@[simp] theorem ringWrite_ringCount (data : List Byte) (s : State) : (ringWrite s data).ringCount = s.ringCount + ringAccepts s data := rfl
@[simp] theorem ringWrite_msgBuf (data : List Byte) (s : State) : (ringWrite s data).msgBuf = s.msgBuf := rfl
@[simp] theorem ringWrite_msgLen (data : List Byte) (s : State) : (ringWrite s data).msgLen = s.msgLen := rfl
@[simp] theorem ringWrite_msgOvf (data : List Byte) (s : State) : (ringWrite s data).msgOvf = s.msgOvf := rfl
@[simp] theorem ringWrite_pendingCmd (data : List Byte) (s : State) : (ringWrite s data).pendingCmd = s.pendingCmd := rfl
@[simp] theorem ringWrite_tmrMode (data : List Byte) (s : State) : (ringWrite s data).tmrMode = s.tmrMode := rfl
@[simp] theorem ringWrite_tmrReload (data : List Byte) (s : State) : (ringWrite s data).tmrReload = s.tmrReload := rfl
@[simp] theorem ringWrite_phase (data : List Byte) (s : State) : (ringWrite s data).phase = s.phase := rfl
@[simp] theorem ringWrite_halted (data : List Byte) (s : State) : (ringWrite s data).halted = s.halted := rfl
@[simp] theorem ringWrite_faultCode (data : List Byte) (s : State) : (ringWrite s data).faultCode = s.faultCode := rfl
@[simp] theorem ringWrite_trace (data : List Byte) (s : State) : (ringWrite s data).trace = s.trace := rfl
@[simp] theorem ringWrite_config (data : List Byte) (s : State) : (ringWrite s data).config = s.config := rfl
@[simp] theorem ringWrite_line (data : List Byte) (s : State) : (ringWrite s data).line = s.line := rfl
@[simp] theorem ringWrite_agenda (data : List Byte) (s : State) : (ringWrite s data).agenda = s.agenda := rfl
@[simp] theorem ringWrite_draws (data : List Byte) (s : State) : (ringWrite s data).draws = s.draws := rfl

/-! ### programChange -/

@[simp] theorem programChange_slot0 (o : Origin) (c : PllChange) (v : U16) (s : State) : (programChange o c v s).slot0 = s.slot0 := rfl
@[simp] theorem programChange_slot1 (o : Origin) (c : PllChange) (v : U16) (s : State) : (programChange o c v s).slot1 = s.slot1 := rfl
@[simp] theorem programChange_active (o : Origin) (c : PllChange) (v : U16) (s : State) : (programChange o c v s).active = s.active := rfl
@[simp] theorem programChange_pllchangei (o : Origin) (c : PllChange) (v : U16) (s : State) : (programChange o c v s).pllchangei = s.pllchangei := rfl
@[simp] theorem programChange_fracnI (o : Origin) (c : PllChange) (v : U16) (s : State) : (programChange o c v s).fracnI = c.startTick := rfl
@[simp] theorem programChange_fracnRem (o : Origin) (c : PllChange) (v : U16) (s : State) : (programChange o c v s).fracnRem = BitVec.ofNat 32 (c.forTicks.toNat - 1) := rfl
@[simp] theorem programChange_isRunning (o : Origin) (c : PllChange) (v : U16) (s : State) : (programChange o c v s).isRunning = s.isRunning := rfl
@[simp] theorem programChange_uploading (o : Origin) (c : PllChange) (v : U16) (s : State) : (programChange o c v s).uploading = s.uploading := rfl
@[simp] theorem programChange_ringMem (o : Origin) (c : PllChange) (v : U16) (s : State) : (programChange o c v s).ringMem = s.ringMem := rfl
@[simp] theorem programChange_ringRd (o : Origin) (c : PllChange) (v : U16) (s : State) : (programChange o c v s).ringRd = s.ringRd := rfl
@[simp] theorem programChange_ringWr (o : Origin) (c : PllChange) (v : U16) (s : State) : (programChange o c v s).ringWr = s.ringWr := rfl
@[simp] theorem programChange_ringCount (o : Origin) (c : PllChange) (v : U16) (s : State) : (programChange o c v s).ringCount = s.ringCount := rfl
@[simp] theorem programChange_msgBuf (o : Origin) (c : PllChange) (v : U16) (s : State) : (programChange o c v s).msgBuf = s.msgBuf := rfl
@[simp] theorem programChange_msgLen (o : Origin) (c : PllChange) (v : U16) (s : State) : (programChange o c v s).msgLen = s.msgLen := rfl
@[simp] theorem programChange_msgOvf (o : Origin) (c : PllChange) (v : U16) (s : State) : (programChange o c v s).msgOvf = s.msgOvf := rfl
@[simp] theorem programChange_pendingCmd (o : Origin) (c : PllChange) (v : U16) (s : State) : (programChange o c v s).pendingCmd = s.pendingCmd := rfl
@[simp] theorem programChange_tmrMode (o : Origin) (c : PllChange) (v : U16) (s : State) : (programChange o c v s).tmrMode = s.tmrMode := rfl
@[simp] theorem programChange_tmrReload (o : Origin) (c : PllChange) (v : U16) (s : State) : (programChange o c v s).tmrReload = s.tmrReload := rfl
@[simp] theorem programChange_phase (o : Origin) (c : PllChange) (v : U16) (s : State) : (programChange o c v s).phase = .lockWait o c := rfl
@[simp] theorem programChange_halted (o : Origin) (c : PllChange) (v : U16) (s : State) : (programChange o c v s).halted = s.halted := rfl
@[simp] theorem programChange_faultCode (o : Origin) (c : PllChange) (v : U16) (s : State) : (programChange o c v s).faultCode = s.faultCode := rfl
@[simp] theorem programChange_trace (o : Origin) (c : PllChange) (v : U16) (s : State) : (programChange o c v s).trace = s.trace ++ [.synDisable, .synConfigure c.divn c.divp c.vcosel, .synSetFractional v, .synEnable] := rfl
@[simp] theorem programChange_config (o : Origin) (c : PllChange) (v : U16) (s : State) : (programChange o c v s).config = s.config := rfl
@[simp] theorem programChange_line (o : Origin) (c : PllChange) (v : U16) (s : State) : (programChange o c v s).line = s.line := rfl
@[simp] theorem programChange_agenda (o : Origin) (c : PllChange) (v : U16) (s : State) : (programChange o c v s).agenda = s.agenda := rfl
@[simp] theorem programChange_draws (o : Origin) (c : PllChange) (v : U16) (s : State) : (programChange o c v s).draws = s.draws := rfl

/-! ### lockDone -/

@[simp] theorem lockDone_slot0 (c : PllChange) (s : State) : (lockDone c s).slot0 = s.slot0 := rfl
@[simp] theorem lockDone_slot1 (c : PllChange) (s : State) : (lockDone c s).slot1 = s.slot1 := rfl
@[simp] theorem lockDone_active (c : PllChange) (s : State) : (lockDone c s).active = s.active := rfl
@[simp] theorem lockDone_pllchangei (c : PllChange) (s : State) : (lockDone c s).pllchangei = s.pllchangei := rfl
@[simp] theorem lockDone_fracnI (c : PllChange) (s : State) : (lockDone c s).fracnI = s.fracnI := rfl
@[simp] theorem lockDone_fracnRem (c : PllChange) (s : State) : (lockDone c s).fracnRem = s.fracnRem := rfl
@[simp] theorem lockDone_isRunning (c : PllChange) (s : State) : (lockDone c s).isRunning = s.isRunning := rfl
@[simp] theorem lockDone_uploading (c : PllChange) (s : State) : (lockDone c s).uploading = s.uploading := rfl
@[simp] theorem lockDone_ringMem (c : PllChange) (s : State) : (lockDone c s).ringMem = s.ringMem := rfl
@[simp] theorem lockDone_ringRd (c : PllChange) (s : State) : (lockDone c s).ringRd = s.ringRd := rfl
@[simp] theorem lockDone_ringWr (c : PllChange) (s : State) : (lockDone c s).ringWr = s.ringWr := rfl
@[simp] theorem lockDone_ringCount (c : PllChange) (s : State) : (lockDone c s).ringCount = s.ringCount := rfl
@[simp] theorem lockDone_msgBuf (c : PllChange) (s : State) : (lockDone c s).msgBuf = s.msgBuf := rfl
@[simp] theorem lockDone_msgLen (c : PllChange) (s : State) : (lockDone c s).msgLen = s.msgLen := rfl
@[simp] theorem lockDone_msgOvf (c : PllChange) (s : State) : (lockDone c s).msgOvf = s.msgOvf := rfl
@[simp] theorem lockDone_pendingCmd (c : PllChange) (s : State) : (lockDone c s).pendingCmd = s.pendingCmd := rfl
@[simp] theorem lockDone_tmrMode (c : PllChange) (s : State) : (lockDone c s).tmrMode = .periodic := rfl
@[simp] theorem lockDone_tmrReload (c : PllChange) (s : State) : (lockDone c s).tmrReload = c.timUs := rfl
@[simp] theorem lockDone_phase (c : PllChange) (s : State) : (lockDone c s).phase = .normal := rfl
@[simp] theorem lockDone_halted (c : PllChange) (s : State) : (lockDone c s).halted = s.halted := rfl
@[simp] theorem lockDone_faultCode (c : PllChange) (s : State) : (lockDone c s).faultCode = s.faultCode := rfl
@[simp] theorem lockDone_trace (c : PllChange) (s : State) : (lockDone c s).trace = s.trace ++ [.synOutputEnable, .tmrSetPeriod c.timUs, .tmrStart] := rfl
@[simp] theorem lockDone_config (c : PllChange) (s : State) : (lockDone c s).config = s.config := rfl
@[simp] theorem lockDone_line (c : PllChange) (s : State) : (lockDone c s).line = s.line := rfl
@[simp] theorem lockDone_agenda (c : PllChange) (s : State) : (lockDone c s).agenda = s.agenda := rfl
@[simp] theorem lockDone_draws (c : PllChange) (s : State) : (lockDone c s).draws = s.draws := rfl

/-! ### sendBytes -/

@[simp] theorem sendBytes_slot0 (bytes : List Byte) (s : State) : (sendBytes bytes s).slot0 = s.slot0 := rfl
@[simp] theorem sendBytes_slot1 (bytes : List Byte) (s : State) : (sendBytes bytes s).slot1 = s.slot1 := rfl
@[simp] theorem sendBytes_active (bytes : List Byte) (s : State) : (sendBytes bytes s).active = s.active := rfl
@[simp] theorem sendBytes_pllchangei (bytes : List Byte) (s : State) : (sendBytes bytes s).pllchangei = s.pllchangei := rfl
@[simp] theorem sendBytes_fracnI (bytes : List Byte) (s : State) : (sendBytes bytes s).fracnI = s.fracnI := rfl
@[simp] theorem sendBytes_fracnRem (bytes : List Byte) (s : State) : (sendBytes bytes s).fracnRem = s.fracnRem := rfl
@[simp] theorem sendBytes_isRunning (bytes : List Byte) (s : State) : (sendBytes bytes s).isRunning = s.isRunning := rfl
@[simp] theorem sendBytes_uploading (bytes : List Byte) (s : State) : (sendBytes bytes s).uploading = s.uploading := rfl
@[simp] theorem sendBytes_ringMem (bytes : List Byte) (s : State) : (sendBytes bytes s).ringMem = s.ringMem := rfl
@[simp] theorem sendBytes_ringRd (bytes : List Byte) (s : State) : (sendBytes bytes s).ringRd = s.ringRd := rfl
@[simp] theorem sendBytes_ringWr (bytes : List Byte) (s : State) : (sendBytes bytes s).ringWr = s.ringWr := rfl
@[simp] theorem sendBytes_ringCount (bytes : List Byte) (s : State) : (sendBytes bytes s).ringCount = s.ringCount := rfl
@[simp] theorem sendBytes_msgBuf (bytes : List Byte) (s : State) : (sendBytes bytes s).msgBuf = s.msgBuf := rfl
@[simp] theorem sendBytes_msgLen (bytes : List Byte) (s : State) : (sendBytes bytes s).msgLen = s.msgLen := rfl
@[simp] theorem sendBytes_msgOvf (bytes : List Byte) (s : State) : (sendBytes bytes s).msgOvf = s.msgOvf := rfl
@[simp] theorem sendBytes_pendingCmd (bytes : List Byte) (s : State) : (sendBytes bytes s).pendingCmd = s.pendingCmd := rfl
@[simp] theorem sendBytes_tmrMode (bytes : List Byte) (s : State) : (sendBytes bytes s).tmrMode = s.tmrMode := rfl
@[simp] theorem sendBytes_tmrReload (bytes : List Byte) (s : State) : (sendBytes bytes s).tmrReload = s.tmrReload := rfl
@[simp] theorem sendBytes_phase (bytes : List Byte) (s : State) : (sendBytes bytes s).phase = s.phase := rfl
@[simp] theorem sendBytes_halted (bytes : List Byte) (s : State) : (sendBytes bytes s).halted = s.halted := rfl
@[simp] theorem sendBytes_faultCode (bytes : List Byte) (s : State) : (sendBytes bytes s).faultCode = s.faultCode := rfl
@[simp] theorem sendBytes_trace (bytes : List Byte) (s : State) : (sendBytes bytes s).trace = s.trace := rfl
@[simp] theorem sendBytes_config (bytes : List Byte) (s : State) : (sendBytes bytes s).config = s.config := rfl
@[simp] theorem sendBytes_line (bytes : List Byte) (s : State) : (sendBytes bytes s).line = s.line ++ bytes := rfl
@[simp] theorem sendBytes_agenda (bytes : List Byte) (s : State) : (sendBytes bytes s).agenda = s.agenda := rfl
@[simp] theorem sendBytes_draws (bytes : List Byte) (s : State) : (sendBytes bytes s).draws = s.draws := rfl

/-! ### setB -/

@[simp] theorem setB_active (s : State) (v : Slot) : (s.setB v).active = s.active := by unfold State.setB State.setSlot; split <;> rfl
@[simp] theorem setB_pllchangei (s : State) (v : Slot) : (s.setB v).pllchangei = s.pllchangei := by unfold State.setB State.setSlot; split <;> rfl
@[simp] theorem setB_fracnI (s : State) (v : Slot) : (s.setB v).fracnI = s.fracnI := by unfold State.setB State.setSlot; split <;> rfl
@[simp] theorem setB_fracnRem (s : State) (v : Slot) : (s.setB v).fracnRem = s.fracnRem := by unfold State.setB State.setSlot; split <;> rfl
@[simp] theorem setB_isRunning (s : State) (v : Slot) : (s.setB v).isRunning = s.isRunning := by unfold State.setB State.setSlot; split <;> rfl
@[simp] theorem setB_uploading (s : State) (v : Slot) : (s.setB v).uploading = s.uploading := by unfold State.setB State.setSlot; split <;> rfl
@[simp] theorem setB_ringMem (s : State) (v : Slot) : (s.setB v).ringMem = s.ringMem := by unfold State.setB State.setSlot; split <;> rfl
@[simp] theorem setB_ringRd (s : State) (v : Slot) : (s.setB v).ringRd = s.ringRd := by unfold State.setB State.setSlot; split <;> rfl
@[simp] theorem setB_ringWr (s : State) (v : Slot) : (s.setB v).ringWr = s.ringWr := by unfold State.setB State.setSlot; split <;> rfl
@[simp] theorem setB_ringCount (s : State) (v : Slot) : (s.setB v).ringCount = s.ringCount := by unfold State.setB State.setSlot; split <;> rfl
@[simp] theorem setB_msgBuf (s : State) (v : Slot) : (s.setB v).msgBuf = s.msgBuf := by unfold State.setB State.setSlot; split <;> rfl
@[simp] theorem setB_msgLen (s : State) (v : Slot) : (s.setB v).msgLen = s.msgLen := by unfold State.setB State.setSlot; split <;> rfl
@[simp] theorem setB_msgOvf (s : State) (v : Slot) : (s.setB v).msgOvf = s.msgOvf := by unfold State.setB State.setSlot; split <;> rfl
@[simp] theorem setB_pendingCmd (s : State) (v : Slot) : (s.setB v).pendingCmd = s.pendingCmd := by unfold State.setB State.setSlot; split <;> rfl
@[simp] theorem setB_tmrMode (s : State) (v : Slot) : (s.setB v).tmrMode = s.tmrMode := by unfold State.setB State.setSlot; split <;> rfl
@[simp] theorem setB_tmrReload (s : State) (v : Slot) : (s.setB v).tmrReload = s.tmrReload := by unfold State.setB State.setSlot; split <;> rfl
@[simp] theorem setB_phase (s : State) (v : Slot) : (s.setB v).phase = s.phase := by unfold State.setB State.setSlot; split <;> rfl
@[simp] theorem setB_halted (s : State) (v : Slot) : (s.setB v).halted = s.halted := by unfold State.setB State.setSlot; split <;> rfl
@[simp] theorem setB_faultCode (s : State) (v : Slot) : (s.setB v).faultCode = s.faultCode := by unfold State.setB State.setSlot; split <;> rfl
@[simp] theorem setB_trace (s : State) (v : Slot) : (s.setB v).trace = s.trace := by unfold State.setB State.setSlot; split <;> rfl
@[simp] theorem setB_config (s : State) (v : Slot) : (s.setB v).config = s.config := by unfold State.setB State.setSlot; split <;> rfl
@[simp] theorem setB_line (s : State) (v : Slot) : (s.setB v).line = s.line := by unfold State.setB State.setSlot; split <;> rfl
@[simp] theorem setB_agenda (s : State) (v : Slot) : (s.setB v).agenda = s.agenda := by unfold State.setB State.setSlot; split <;> rfl
@[simp] theorem setB_draws (s : State) (v : Slot) : (s.setB v).draws = s.draws := by unfold State.setB State.setSlot; split <;> rfl

/-! ### swap -/

@[simp] theorem swap_active (s : State) : (swap s).active = s.active.other := by unfold swap State.setB State.setSlot; split <;> rfl
@[simp] theorem swap_pllchangei (s : State) : (swap s).pllchangei = s.pllchangei := by unfold swap State.setB State.setSlot; split <;> rfl
@[simp] theorem swap_fracnI (s : State) : (swap s).fracnI = s.fracnI := by unfold swap State.setB State.setSlot; split <;> rfl
@[simp] theorem swap_fracnRem (s : State) : (swap s).fracnRem = s.fracnRem := by unfold swap State.setB State.setSlot; split <;> rfl
@[simp] theorem swap_isRunning (s : State) : (swap s).isRunning = s.isRunning := by unfold swap State.setB State.setSlot; split <;> rfl
@[simp] theorem swap_uploading (s : State) : (swap s).uploading = s.uploading := by unfold swap State.setB State.setSlot; split <;> rfl
@[simp] theorem swap_ringMem (s : State) : (swap s).ringMem = s.ringMem := by unfold swap State.setB State.setSlot; split <;> rfl
@[simp] theorem swap_ringRd (s : State) : (swap s).ringRd = s.ringRd := by unfold swap State.setB State.setSlot; split <;> rfl
@[simp] theorem swap_ringWr (s : State) : (swap s).ringWr = s.ringWr := by unfold swap State.setB State.setSlot; split <;> rfl
@[simp] theorem swap_ringCount (s : State) : (swap s).ringCount = s.ringCount := by unfold swap State.setB State.setSlot; split <;> rfl
@[simp] theorem swap_msgBuf (s : State) : (swap s).msgBuf = s.msgBuf := by unfold swap State.setB State.setSlot; split <;> rfl
@[simp] theorem swap_msgLen (s : State) : (swap s).msgLen = s.msgLen := by unfold swap State.setB State.setSlot; split <;> rfl
@[simp] theorem swap_msgOvf (s : State) : (swap s).msgOvf = s.msgOvf := by unfold swap State.setB State.setSlot; split <;> rfl
@[simp] theorem swap_pendingCmd (s : State) : (swap s).pendingCmd = s.pendingCmd := by unfold swap State.setB State.setSlot; split <;> rfl
@[simp] theorem swap_tmrMode (s : State) : (swap s).tmrMode = s.tmrMode := by unfold swap State.setB State.setSlot; split <;> rfl
@[simp] theorem swap_tmrReload (s : State) : (swap s).tmrReload = s.tmrReload := by unfold swap State.setB State.setSlot; split <;> rfl
@[simp] theorem swap_phase (s : State) : (swap s).phase = s.phase := by unfold swap State.setB State.setSlot; split <;> rfl
@[simp] theorem swap_halted (s : State) : (swap s).halted = s.halted := by unfold swap State.setB State.setSlot; split <;> rfl
@[simp] theorem swap_faultCode (s : State) : (swap s).faultCode = s.faultCode := by unfold swap State.setB State.setSlot; split <;> rfl
@[simp] theorem swap_trace (s : State) : (swap s).trace = s.trace := by unfold swap State.setB State.setSlot; split <;> rfl
@[simp] theorem swap_config (s : State) : (swap s).config = s.config := by unfold swap State.setB State.setSlot; split <;> rfl
@[simp] theorem swap_line (s : State) : (swap s).line = s.line := by unfold swap State.setB State.setSlot; split <;> rfl
@[simp] theorem swap_agenda (s : State) : (swap s).agenda = s.agenda := by unfold swap State.setB State.setSlot; split <;> rfl
@[simp] theorem swap_draws (s : State) : (swap s).draws = s.draws := by unfold swap State.setB State.setSlot; split <;> rfl

/-! ### expireOneshot -/

@[simp] theorem expireOneshot_slot0 (s : State) : (expireOneshot s).slot0 = s.slot0 := by unfold expireOneshot; split <;> rfl
@[simp] theorem expireOneshot_slot1 (s : State) : (expireOneshot s).slot1 = s.slot1 := by unfold expireOneshot; split <;> rfl
@[simp] theorem expireOneshot_active (s : State) : (expireOneshot s).active = s.active := by unfold expireOneshot; split <;> rfl
@[simp] theorem expireOneshot_pllchangei (s : State) : (expireOneshot s).pllchangei = s.pllchangei := by unfold expireOneshot; split <;> rfl
@[simp] theorem expireOneshot_fracnI (s : State) : (expireOneshot s).fracnI = s.fracnI := by unfold expireOneshot; split <;> rfl
@[simp] theorem expireOneshot_fracnRem (s : State) : (expireOneshot s).fracnRem = s.fracnRem := by unfold expireOneshot; split <;> rfl
@[simp] theorem expireOneshot_isRunning (s : State) : (expireOneshot s).isRunning = s.isRunning := by unfold expireOneshot; split <;> rfl
@[simp] theorem expireOneshot_uploading (s : State) : (expireOneshot s).uploading = s.uploading := by unfold expireOneshot; split <;> rfl
@[simp] theorem expireOneshot_ringMem (s : State) : (expireOneshot s).ringMem = s.ringMem := by unfold expireOneshot; split <;> rfl
@[simp] theorem expireOneshot_ringRd (s : State) : (expireOneshot s).ringRd = s.ringRd := by unfold expireOneshot; split <;> rfl
@[simp] theorem expireOneshot_ringWr (s : State) : (expireOneshot s).ringWr = s.ringWr := by unfold expireOneshot; split <;> rfl
@[simp] theorem expireOneshot_ringCount (s : State) : (expireOneshot s).ringCount = s.ringCount := by unfold expireOneshot; split <;> rfl
@[simp] theorem expireOneshot_msgBuf (s : State) : (expireOneshot s).msgBuf = s.msgBuf := by unfold expireOneshot; split <;> rfl
@[simp] theorem expireOneshot_msgLen (s : State) : (expireOneshot s).msgLen = s.msgLen := by unfold expireOneshot; split <;> rfl
@[simp] theorem expireOneshot_msgOvf (s : State) : (expireOneshot s).msgOvf = s.msgOvf := by unfold expireOneshot; split <;> rfl
@[simp] theorem expireOneshot_pendingCmd (s : State) : (expireOneshot s).pendingCmd = s.pendingCmd := by unfold expireOneshot; split <;> rfl
@[simp] theorem expireOneshot_tmrMode (s : State) : (expireOneshot s).tmrMode = if s.tmrMode = .draining then .off else s.tmrMode := by unfold expireOneshot; split <;> rfl
@[simp] theorem expireOneshot_tmrReload (s : State) : (expireOneshot s).tmrReload = s.tmrReload := by unfold expireOneshot; split <;> rfl
@[simp] theorem expireOneshot_phase (s : State) : (expireOneshot s).phase = s.phase := by unfold expireOneshot; split <;> rfl
@[simp] theorem expireOneshot_halted (s : State) : (expireOneshot s).halted = s.halted := by unfold expireOneshot; split <;> rfl
@[simp] theorem expireOneshot_faultCode (s : State) : (expireOneshot s).faultCode = s.faultCode := by unfold expireOneshot; split <;> rfl
@[simp] theorem expireOneshot_trace (s : State) : (expireOneshot s).trace = s.trace := by unfold expireOneshot; split <;> rfl
@[simp] theorem expireOneshot_config (s : State) : (expireOneshot s).config = s.config := by unfold expireOneshot; split <;> rfl
@[simp] theorem expireOneshot_line (s : State) : (expireOneshot s).line = s.line := by unfold expireOneshot; split <;> rfl
@[simp] theorem expireOneshot_agenda (s : State) : (expireOneshot s).agenda = s.agenda := by unfold expireOneshot; split <;> rfl
@[simp] theorem expireOneshot_draws (s : State) : (expireOneshot s).draws = s.draws := by unfold expireOneshot; split <;> rfl

/-! ### stop -/

@[simp] theorem stop_slot0 (s : State) : (stop s).slot0 = s.slot0 := by unfold stop; split <;> simp_all
@[simp] theorem stop_slot1 (s : State) : (stop s).slot1 = s.slot1 := by unfold stop; split <;> simp_all
@[simp] theorem stop_active (s : State) : (stop s).active = s.active := by unfold stop; split <;> simp_all
@[simp] theorem stop_pllchangei (s : State) : (stop s).pllchangei = s.pllchangei := by unfold stop; split <;> simp_all
@[simp] theorem stop_fracnI (s : State) : (stop s).fracnI = s.fracnI := by unfold stop; split <;> simp_all
@[simp] theorem stop_fracnRem (s : State) : (stop s).fracnRem = s.fracnRem := by unfold stop; split <;> simp_all
@[simp] theorem stop_isRunning (s : State) : (stop s).isRunning = false := by unfold stop; split <;> simp_all
@[simp] theorem stop_uploading (s : State) : (stop s).uploading = s.uploading := by unfold stop; split <;> simp_all
@[simp] theorem stop_ringMem (s : State) : (stop s).ringMem = s.ringMem := by unfold stop; split <;> simp_all
@[simp] theorem stop_ringRd (s : State) : (stop s).ringRd = s.ringRd := by unfold stop; split <;> simp_all
@[simp] theorem stop_ringWr (s : State) : (stop s).ringWr = s.ringWr := by unfold stop; split <;> simp_all
@[simp] theorem stop_ringCount (s : State) : (stop s).ringCount = s.ringCount := by unfold stop; split <;> simp_all
@[simp] theorem stop_msgBuf (s : State) : (stop s).msgBuf = s.msgBuf := by unfold stop; split <;> simp_all
@[simp] theorem stop_msgLen (s : State) : (stop s).msgLen = s.msgLen := by unfold stop; split <;> simp_all
@[simp] theorem stop_msgOvf (s : State) : (stop s).msgOvf = s.msgOvf := by unfold stop; split <;> simp_all
@[simp] theorem stop_pendingCmd (s : State) : (stop s).pendingCmd = s.pendingCmd := by unfold stop; split <;> simp_all
@[simp] theorem stop_tmrMode (s : State) : (stop s).tmrMode = if s.isRunning then .draining else s.tmrMode := by unfold stop; split <;> simp_all
@[simp] theorem stop_tmrReload (s : State) : (stop s).tmrReload = s.tmrReload := by unfold stop; split <;> simp_all
@[simp] theorem stop_phase (s : State) : (stop s).phase = s.phase := by unfold stop; split <;> simp_all
@[simp] theorem stop_halted (s : State) : (stop s).halted = s.halted := by unfold stop; split <;> simp_all
@[simp] theorem stop_faultCode (s : State) : (stop s).faultCode = s.faultCode := by unfold stop; split <;> simp_all
@[simp] theorem stop_trace (s : State) : (stop s).trace = s.trace ++ if s.isRunning then [.tmrStartOneshotThenStop] else [] := by unfold stop; split <;> simp_all
@[simp] theorem stop_config (s : State) : (stop s).config = s.config := by unfold stop; split <;> simp_all
@[simp] theorem stop_line (s : State) : (stop s).line = s.line := by unfold stop; split <;> simp_all
@[simp] theorem stop_agenda (s : State) : (stop s).agenda = s.agenda := by unfold stop; split <;> simp_all
@[simp] theorem stop_draws (s : State) : (stop s).draws = s.draws := by unfold stop; split <;> simp_all

/-! ### restart -/

@[simp] theorem restart_slot0 (s : State) : (restart s).slot0 = s.slot0 := by simp [restart]
@[simp] theorem restart_slot1 (s : State) : (restart s).slot1 = s.slot1 := by simp [restart]
@[simp] theorem restart_active (s : State) : (restart s).active = s.active := by simp [restart]
@[simp] theorem restart_pllchangei (s : State) : (restart s).pllchangei = -1 := by simp [restart]
@[simp] theorem restart_fracnI (s : State) : (restart s).fracnI = s.fracnI := by simp [restart]
@[simp] theorem restart_fracnRem (s : State) : (restart s).fracnRem = s.fracnRem := by simp [restart]
@[simp] theorem restart_isRunning (s : State) : (restart s).isRunning = true := by simp [restart]
@[simp] theorem restart_uploading (s : State) : (restart s).uploading = s.uploading := by simp [restart]
@[simp] theorem restart_ringMem (s : State) : (restart s).ringMem = s.ringMem := by simp [restart]
@[simp] theorem restart_ringRd (s : State) : (restart s).ringRd = s.ringRd := by simp [restart]
@[simp] theorem restart_ringWr (s : State) : (restart s).ringWr = s.ringWr := by simp [restart]
@[simp] theorem restart_ringCount (s : State) : (restart s).ringCount = s.ringCount := by simp [restart]
@[simp] theorem restart_msgBuf (s : State) : (restart s).msgBuf = s.msgBuf := by simp [restart]
@[simp] theorem restart_msgLen (s : State) : (restart s).msgLen = s.msgLen := by simp [restart]
@[simp] theorem restart_msgOvf (s : State) : (restart s).msgOvf = s.msgOvf := by simp [restart]
@[simp] theorem restart_pendingCmd (s : State) : (restart s).pendingCmd = s.pendingCmd := by simp [restart]
@[simp] theorem restart_tmrMode (s : State) : (restart s).tmrMode = if s.isRunning then .draining else s.tmrMode := by simp [restart]
@[simp] theorem restart_tmrReload (s : State) : (restart s).tmrReload = s.tmrReload := by simp [restart]
@[simp] theorem restart_phase (s : State) : (restart s).phase = s.phase := by simp [restart]
@[simp] theorem restart_halted (s : State) : (restart s).halted = s.halted := by simp [restart]
@[simp] theorem restart_faultCode (s : State) : (restart s).faultCode = s.faultCode := by simp [restart]
@[simp] theorem restart_trace (s : State) : (restart s).trace = s.trace ++ if s.isRunning then [.tmrStartOneshotThenStop] else [] := by simp [restart]
@[simp] theorem restart_config (s : State) : (restart s).config = s.config := by simp [restart]
@[simp] theorem restart_line (s : State) : (restart s).line = s.line := by simp [restart]
@[simp] theorem restart_agenda (s : State) : (restart s).agenda = s.agenda := by simp [restart]
@[simp] theorem restart_draws (s : State) : (restart s).draws = s.draws := by simp [restart]

/-! ### advance -/

@[simp] theorem advance_pllchangei (s : State) : (advance s).pllchangei = if atBoundary s then 0 else s.pllchangei + 1 := by unfold advance swapDecision; split <;> (try split) <;> simp
@[simp] theorem advance_fracnI (s : State) : (advance s).fracnI = s.fracnI := by unfold advance swapDecision; split <;> (try split) <;> simp
@[simp] theorem advance_fracnRem (s : State) : (advance s).fracnRem = s.fracnRem := by unfold advance swapDecision; split <;> (try split) <;> simp
@[simp] theorem advance_isRunning (s : State) : (advance s).isRunning = s.isRunning := by unfold advance swapDecision; split <;> (try split) <;> simp
@[simp] theorem advance_uploading (s : State) : (advance s).uploading = s.uploading := by unfold advance swapDecision; split <;> (try split) <;> simp
@[simp] theorem advance_ringMem (s : State) : (advance s).ringMem = s.ringMem := by unfold advance swapDecision; split <;> (try split) <;> simp
@[simp] theorem advance_ringRd (s : State) : (advance s).ringRd = s.ringRd := by unfold advance swapDecision; split <;> (try split) <;> simp
@[simp] theorem advance_ringWr (s : State) : (advance s).ringWr = s.ringWr := by unfold advance swapDecision; split <;> (try split) <;> simp
@[simp] theorem advance_ringCount (s : State) : (advance s).ringCount = s.ringCount := by unfold advance swapDecision; split <;> (try split) <;> simp
@[simp] theorem advance_msgBuf (s : State) : (advance s).msgBuf = s.msgBuf := by unfold advance swapDecision; split <;> (try split) <;> simp
@[simp] theorem advance_msgLen (s : State) : (advance s).msgLen = s.msgLen := by unfold advance swapDecision; split <;> (try split) <;> simp
@[simp] theorem advance_msgOvf (s : State) : (advance s).msgOvf = s.msgOvf := by unfold advance swapDecision; split <;> (try split) <;> simp
@[simp] theorem advance_pendingCmd (s : State) : (advance s).pendingCmd = s.pendingCmd := by unfold advance swapDecision; split <;> (try split) <;> simp
@[simp] theorem advance_tmrMode (s : State) : (advance s).tmrMode = s.tmrMode := by unfold advance swapDecision; split <;> (try split) <;> simp
@[simp] theorem advance_tmrReload (s : State) : (advance s).tmrReload = s.tmrReload := by unfold advance swapDecision; split <;> (try split) <;> simp
@[simp] theorem advance_phase (s : State) : (advance s).phase = s.phase := by unfold advance swapDecision; split <;> (try split) <;> simp
@[simp] theorem advance_halted (s : State) : (advance s).halted = s.halted := by unfold advance swapDecision; split <;> (try split) <;> simp
@[simp] theorem advance_faultCode (s : State) : (advance s).faultCode = s.faultCode := by unfold advance swapDecision; split <;> (try split) <;> simp
@[simp] theorem advance_trace (s : State) : (advance s).trace = s.trace := by unfold advance swapDecision; split <;> (try split) <;> simp
@[simp] theorem advance_config (s : State) : (advance s).config = s.config := by unfold advance swapDecision; split <;> (try split) <;> simp
@[simp] theorem advance_line (s : State) : (advance s).line = s.line := by unfold advance swapDecision; split <;> (try split) <;> simp
@[simp] theorem advance_agenda (s : State) : (advance s).agenda = s.agenda := by unfold advance swapDecision; split <;> (try split) <;> simp
@[simp] theorem advance_draws (s : State) : (advance s).draws = s.draws := by unfold advance swapDecision; split <;> (try split) <;> simp

/-! ### takeChoice -/

@[simp] theorem takeChoice_slot0 (s : State) : (takeChoice s).slot0 = s.slot0 := by unfold takeChoice; split <;> rfl
@[simp] theorem takeChoice_slot1 (s : State) : (takeChoice s).slot1 = s.slot1 := by unfold takeChoice; split <;> rfl
@[simp] theorem takeChoice_active (s : State) : (takeChoice s).active = s.active := by unfold takeChoice; split <;> rfl
@[simp] theorem takeChoice_pllchangei (s : State) : (takeChoice s).pllchangei = s.pllchangei := by unfold takeChoice; split <;> rfl
@[simp] theorem takeChoice_fracnI (s : State) : (takeChoice s).fracnI = s.fracnI := by unfold takeChoice; split <;> rfl
@[simp] theorem takeChoice_fracnRem (s : State) : (takeChoice s).fracnRem = s.fracnRem := by unfold takeChoice; split <;> rfl
@[simp] theorem takeChoice_isRunning (s : State) : (takeChoice s).isRunning = s.isRunning := by unfold takeChoice; split <;> rfl
@[simp] theorem takeChoice_uploading (s : State) : (takeChoice s).uploading = s.uploading := by unfold takeChoice; split <;> rfl
@[simp] theorem takeChoice_ringMem (s : State) : (takeChoice s).ringMem = s.ringMem := by unfold takeChoice; split <;> rfl
@[simp] theorem takeChoice_ringRd (s : State) : (takeChoice s).ringRd = s.ringRd := by unfold takeChoice; split <;> rfl
@[simp] theorem takeChoice_ringWr (s : State) : (takeChoice s).ringWr = s.ringWr := by unfold takeChoice; split <;> rfl
@[simp] theorem takeChoice_ringCount (s : State) : (takeChoice s).ringCount = s.ringCount := by unfold takeChoice; split <;> rfl
@[simp] theorem takeChoice_msgBuf (s : State) : (takeChoice s).msgBuf = s.msgBuf := by unfold takeChoice; split <;> rfl
@[simp] theorem takeChoice_msgLen (s : State) : (takeChoice s).msgLen = s.msgLen := by unfold takeChoice; split <;> rfl
@[simp] theorem takeChoice_msgOvf (s : State) : (takeChoice s).msgOvf = s.msgOvf := by unfold takeChoice; split <;> rfl
@[simp] theorem takeChoice_pendingCmd (s : State) : (takeChoice s).pendingCmd = s.pendingCmd := by unfold takeChoice; split <;> rfl
@[simp] theorem takeChoice_tmrMode (s : State) : (takeChoice s).tmrMode = s.tmrMode := by unfold takeChoice; split <;> rfl
@[simp] theorem takeChoice_tmrReload (s : State) : (takeChoice s).tmrReload = s.tmrReload := by unfold takeChoice; split <;> rfl
@[simp] theorem takeChoice_phase (s : State) : (takeChoice s).phase = s.phase := by unfold takeChoice; split <;> rfl
@[simp] theorem takeChoice_halted (s : State) : (takeChoice s).halted = s.halted := by unfold takeChoice; split <;> rfl
@[simp] theorem takeChoice_faultCode (s : State) : (takeChoice s).faultCode = s.faultCode := by unfold takeChoice; split <;> rfl
@[simp] theorem takeChoice_trace (s : State) : (takeChoice s).trace = s.trace := by unfold takeChoice; split <;> rfl
@[simp] theorem takeChoice_config (s : State) : (takeChoice s).config = s.config := by unfold takeChoice; split <;> rfl
@[simp] theorem takeChoice_line (s : State) : (takeChoice s).line = s.line := by unfold takeChoice; split <;> rfl

/-! ### slots -/

@[simp] theorem SlotId.other_other (k : SlotId) : k.other.other = k := by cases k <;> rfl

@[simp] theorem SlotId.other_ne (k : SlotId) : k.other ≠ k := by cases k <;> decide

/-- `A` after an update that changes neither the slots nor `active`. -/
theorem slotA_congr {s t : State} (h0 : t.slot0 = s.slot0) (h1 : t.slot1 = s.slot1) (ha : t.active = s.active) :
    t.slotA = s.slotA := by
  simp [State.slotA, State.slot, h0, h1, ha]

/-- `B` after an update that changes neither the slots nor `active`. -/
theorem slotB_congr {s t : State} (h0 : t.slot0 = s.slot0) (h1 : t.slot1 = s.slot1) (ha : t.active = s.active) :
    t.slotB = s.slotB := by
  simp [State.slotB, State.slot, h0, h1, ha]

@[simp] theorem emit_slotA (e : PortEvent) (s : State) : (emit e s).slotA = s.slotA := slotA_congr (by simp) (by simp) (by simp)
@[simp] theorem emit_slotB (e : PortEvent) (s : State) : (emit e s).slotB = s.slotB := slotB_congr (by simp) (by simp) (by simp)
@[simp] theorem emitAll_slotA (es : List PortEvent) (s : State) : (emitAll es s).slotA = s.slotA := slotA_congr (by simp) (by simp) (by simp)
@[simp] theorem emitAll_slotB (es : List PortEvent) (s : State) : (emitAll es s).slotB = s.slotB := slotB_congr (by simp) (by simp) (by simp)
@[simp] theorem reply_slotA (b : Byte) (s : State) : (reply b s).slotA = s.slotA := slotA_congr (by simp) (by simp) (by simp)
@[simp] theorem reply_slotB (b : Byte) (s : State) : (reply b s).slotB = s.slotB := slotB_congr (by simp) (by simp) (by simp)
@[simp] theorem raiseFault_slotA (c : FaultCode) (s : State) : (raiseFault c s).slotA = s.slotA := slotA_congr (by simp) (by simp) (by simp)
@[simp] theorem raiseFault_slotB (c : FaultCode) (s : State) : (raiseFault c s).slotB = s.slotB := slotB_congr (by simp) (by simp) (by simp)
@[simp] theorem setRunning_slotA (v : Bool) (s : State) : (setRunning v s).slotA = s.slotA := slotA_congr (by simp) (by simp) (by simp)
@[simp] theorem setRunning_slotB (v : Bool) (s : State) : (setRunning v s).slotB = s.slotB := slotB_congr (by simp) (by simp) (by simp)
@[simp] theorem setUploading_slotA (v : Bool) (s : State) : (setUploading v s).slotA = s.slotA := slotA_congr (by simp) (by simp) (by simp)
@[simp] theorem setUploading_slotB (v : Bool) (s : State) : (setUploading v s).slotB = s.slotB := slotB_congr (by simp) (by simp) (by simp)
@[simp] theorem setMsgOvf_slotA (v : Bool) (s : State) : (setMsgOvf v s).slotA = s.slotA := slotA_congr (by simp) (by simp) (by simp)
@[simp] theorem setMsgOvf_slotB (v : Bool) (s : State) : (setMsgOvf v s).slotB = s.slotB := slotB_congr (by simp) (by simp) (by simp)
@[simp] theorem resetAssembly_slotA (s : State) : (resetAssembly s).slotA = s.slotA := slotA_congr (by simp) (by simp) (by simp)
@[simp] theorem resetAssembly_slotB (s : State) : (resetAssembly s).slotB = s.slotB := slotB_congr (by simp) (by simp) (by simp)
@[simp] theorem ringAdvance_slotA (k : Nat) (s : State) : (ringAdvance s k).slotA = s.slotA := slotA_congr (by simp) (by simp) (by simp)
@[simp] theorem ringAdvance_slotB (k : Nat) (s : State) : (ringAdvance s k).slotB = s.slotB := slotB_congr (by simp) (by simp) (by simp)
@[simp] theorem ringWrite_slotA (data : List Byte) (s : State) : (ringWrite s data).slotA = s.slotA := slotA_congr (by simp) (by simp) (by simp)
@[simp] theorem ringWrite_slotB (data : List Byte) (s : State) : (ringWrite s data).slotB = s.slotB := slotB_congr (by simp) (by simp) (by simp)
@[simp] theorem programChange_slotA (o : Origin) (c : PllChange) (v : U16) (s : State) : (programChange o c v s).slotA = s.slotA := slotA_congr (by simp) (by simp) (by simp)
@[simp] theorem programChange_slotB (o : Origin) (c : PllChange) (v : U16) (s : State) : (programChange o c v s).slotB = s.slotB := slotB_congr (by simp) (by simp) (by simp)
@[simp] theorem lockDone_slotA (c : PllChange) (s : State) : (lockDone c s).slotA = s.slotA := slotA_congr (by simp) (by simp) (by simp)
@[simp] theorem lockDone_slotB (c : PllChange) (s : State) : (lockDone c s).slotB = s.slotB := slotB_congr (by simp) (by simp) (by simp)
@[simp] theorem sendBytes_slotA (bytes : List Byte) (s : State) : (sendBytes bytes s).slotA = s.slotA := slotA_congr (by simp) (by simp) (by simp)
@[simp] theorem sendBytes_slotB (bytes : List Byte) (s : State) : (sendBytes bytes s).slotB = s.slotB := slotB_congr (by simp) (by simp) (by simp)
@[simp] theorem expireOneshot_slotA (s : State) : (expireOneshot s).slotA = s.slotA := slotA_congr (by simp) (by simp) (by simp)
@[simp] theorem expireOneshot_slotB (s : State) : (expireOneshot s).slotB = s.slotB := slotB_congr (by simp) (by simp) (by simp)
@[simp] theorem stop_slotA (s : State) : (stop s).slotA = s.slotA := slotA_congr (by simp) (by simp) (by simp)
@[simp] theorem stop_slotB (s : State) : (stop s).slotB = s.slotB := slotB_congr (by simp) (by simp) (by simp)
@[simp] theorem restart_slotA (s : State) : (restart s).slotA = s.slotA := slotA_congr (by simp) (by simp) (by simp)
@[simp] theorem restart_slotB (s : State) : (restart s).slotB = s.slotB := slotB_congr (by simp) (by simp) (by simp)
@[simp] theorem takeChoice_slotA (s : State) : (takeChoice s).slotA = s.slotA := slotA_congr (by simp) (by simp) (by simp)
@[simp] theorem takeChoice_slotB (s : State) : (takeChoice s).slotB = s.slotB := slotB_congr (by simp) (by simp) (by simp)

@[simp] theorem setB_slotB (s : State) (v : Slot) : (s.setB v).slotB = v := by
  unfold State.slotB State.setB State.setSlot State.slot; cases s.active <;> rfl

@[simp] theorem setB_slotA (s : State) (v : Slot) : (s.setB v).slotA = s.slotA := by
  unfold State.slotA State.setB State.setSlot State.slot; cases h : s.active <;> simp [SlotId.other]

/-- After a swap the active slot is the one that was uploaded (R191). -/
@[simp] theorem swap_slotA (s : State) : (swap s).slotA = s.slotB := by
  unfold swap State.slotA State.slotB State.setB State.setSlot State.slot; cases h : s.active <;> simp [SlotId.other]

/-- After a swap the back slot is empty (R191). -/
@[simp] theorem swap_slotB (s : State) : (swap s).slotB = .empty := by
  unfold swap State.slotB State.setB State.setSlot State.slot; cases h : s.active <;> simp [SlotId.other]

/-- Writing the back slot changes the two slots and nothing else. -/
theorem setB_frame (s : State) (v : Slot) : { s.setB v with slot0 := s.slot0, slot1 := s.slot1 } = s := by
  unfold State.setB State.setSlot; split <;> rfl

/-- Both slots satisfy a property exactly when the active and the back slot do. -/
theorem forall_slot_iff (s : State) (P : Slot → Prop) : (∀ k, P (s.slot k)) ↔ P s.slotA ∧ P s.slotB := by
  unfold State.slotA State.slotB
  constructor
  · exact fun h => ⟨h _, h _⟩
  · rintro ⟨ha, hb⟩ k
    cases hk : s.active <;> cases k <;> simp_all [SlotId.other]

end Sys2Proof.Machine
end

