-- ==== Sys2Proof/Laws/Sequencer.lean ====
section
/-! SUPPORT. What the shared operations of the sequencer and the agents can do, said once: how an outcome is composed,
the cases of `step`, and the cases of an action. -/

namespace Sys2Proof.Machine

/-! ## Outcomes -/

@[simp] theorem andThen_next (s : State) (f : State → Res) : andThen (.next s) f = f s := rfl

theorem andThen_eq_next {r : Res} {f : State → Res} {t : State} :
    andThen r f = .next t ↔ ∃ s, r = .next s ∧ f s = .next t := by
  cases r <;> simp [andThen]

/-- Two lists of actions one after the other. -/
theorem acts_append (as bs : List Action) (s : State) : acts (as ++ bs) s = andThen (acts as s) (acts bs) := by
  induction as generalizing s with
  | nil => rfl
  | cons a as ih =>
    simp only [List.cons_append, acts]
    cases h : act a s with
    | next u => simpa using ih u
    | fault r => rfl
    | refused r => rfl

theorem act_disabled {a : Action} {s : State} (h : enabled a s = false) : act a s = .next s := by simp [act, h]

theorem act_enabled {a : Action} {s : State} (h : enabled a s = true) : act a s = fire a s := by simp [act, h]

/-- An action that leads to a next state is one that is not enabled and changes nothing, or one that fires. -/
theorem act_cases {a : Action} {s t : State} (h : act a s = .next t) :
    (enabled a s = false ∧ t = s) ∨ (enabled a s = true ∧ fire a s = .next t) := by
  cases he : enabled a s with
  | false => rw [act_disabled he] at h; cases h; exact .inl ⟨rfl, rfl⟩
  | true => exact .inr ⟨rfl, by rwa [act_enabled he] at h⟩

/-! ## Reads -/

theorem changeAt_eq_some {s : State} {i : Int} {c : PllChange} :
    s.changeAt i = some c ↔ 0 ≤ i ∧ s.slotA.pll[i.toNat]? = some c := by
  unfold State.changeAt
  split <;> simp <;> omega

/-- An index within the list has an entry. -/
theorem changeAt_of_lt {s : State} {i : Int} (h0 : 0 ≤ i) (h1 : i < s.slotA.pll.length) :
    ∃ c, s.changeAt i = some c := by
  refine ⟨s.slotA.pll[i.toNat]'(by omega), changeAt_eq_some.2 ⟨h0, ?_⟩⟩
  exact List.getElem?_eq_getElem _

theorem changeAt_lt {s : State} {i : Int} {c : PllChange} (h : s.changeAt i = some c) : i < s.slotA.pll.length := by
  obtain ⟨h0, h⟩ := changeAt_eq_some.1 h
  have := (List.getElem?_eq_some_iff.1 h).1
  omega

theorem changeValid_iff {c : PllChange} {slot : Slot} : changeValid c slot = true ↔
    1 ≤ c.forTicks.toNat ∧ c.startTick.toNat + c.forTicks.toNat ≤ slot.fracn.length := by
  simp [changeValid]

/-- A valid change has a first value (R61). -/
theorem valueAt_of_valid {s : State} {c : PllChange} (h : changeValid c s.slotA = true) :
    ∃ v, s.valueAt c.startTick.toNat = some v := by
  obtain ⟨h1, h2⟩ := changeValid_iff.1 h
  exact ⟨s.slotA.fracn[c.startTick.toNat]'(by omega), List.getElem?_eq_getElem _⟩

/-! ## Step -/

theorem playCurrent_of_empty {o : Origin} {s : State} (h : s.slotA.pll = []) :
    playCurrent o s = .next (raiseFault .emptyProgram s) := by simp [playCurrent, h]

theorem pll_ne_nil_of_changeAt {s : State} {i : Int} {c : PllChange} (h : s.changeAt i = some c) : s.slotA.pll ≠ [] := by
  intro he
  have := (changeAt_eq_some.1 h).2
  simp [he] at this

theorem playCurrent_of_invalid {o : Origin} {s : State} {c : PllChange} (hc : s.changeAt s.pllchangei = some c)
    (hv : changeValid c s.slotA = false) : playCurrent o s = .next (raiseFault .invalidChange s) := by
  simp [playCurrent, pll_ne_nil_of_changeAt hc, hc, hv]

theorem playCurrent_of_zeroPeriod {o : Origin} {s : State} {c : PllChange} (hc : s.changeAt s.pllchangei = some c)
    (hv : changeValid c s.slotA = true) (hz : c.timUs = 0#32) : playCurrent o s = .next (raiseFault .zeroPeriod s) := by
  simp [playCurrent, pll_ne_nil_of_changeAt hc, hc, hv, hz]

theorem playCurrent_of_valid {o : Origin} {s : State} {c : PllChange} {v : U16} (hc : s.changeAt s.pllchangei = some c)
    (hv : changeValid c s.slotA = true) (hz : c.timUs ≠ 0#32) (hval : s.valueAt c.startTick.toNat = some v) :
    playCurrent o s = .next (programChange o c v s) := by
  simp [playCurrent, pll_ne_nil_of_changeAt hc, hc, hv, hz, hval]

/-- Everything `step` can do from its checks on. -/
theorem playCurrent_cases {o : Origin} {s t : State} (h : playCurrent o s = .next t) :
    (s.slotA.pll = [] ∧ t = raiseFault .emptyProgram s) ∨
    (∃ c, s.changeAt s.pllchangei = some c ∧ changeValid c s.slotA = false ∧ t = raiseFault .invalidChange s) ∨
    (∃ c, s.changeAt s.pllchangei = some c ∧ changeValid c s.slotA = true ∧ c.timUs = 0#32 ∧
      t = raiseFault .zeroPeriod s) ∨
    (∃ c v, s.changeAt s.pllchangei = some c ∧ changeValid c s.slotA = true ∧ c.timUs ≠ 0#32 ∧
      s.valueAt c.startTick.toNat = some v ∧ t = programChange o c v s) := by
  by_cases he : s.slotA.pll = []
  · rw [playCurrent_of_empty he] at h; cases h; exact .inl ⟨he, rfl⟩
  · cases hc : s.changeAt s.pllchangei with
    | none => simp [playCurrent, he, hc] at h
    | some c =>
      cases hv : changeValid c s.slotA with
      | false => rw [playCurrent_of_invalid hc hv] at h; cases h; exact .inr (.inl ⟨c, rfl, hv, rfl⟩)
      | true =>
        by_cases hz : c.timUs = 0#32
        · rw [playCurrent_of_zeroPeriod hc hv hz] at h; cases h; exact .inr (.inr (.inl ⟨c, rfl, hv, hz, rfl⟩))
        · obtain ⟨v, hval⟩ := valueAt_of_valid hv
          rw [playCurrent_of_valid hc hv hz hval] at h; cases h
          exact .inr (.inr (.inr ⟨c, v, rfl, hv, hz, hval, rfl⟩))

/-- `step` from its checks on has a next state wherever `pllchangei` is an index of a non-empty program. -/
theorem playCurrent_total {o : Origin} {s : State}
    (h : s.slotA.pll ≠ [] → ∃ c, s.changeAt s.pllchangei = some c) : ∃ t, playCurrent o s = .next t := by
  by_cases he : s.slotA.pll = []
  · exact ⟨_, playCurrent_of_empty he⟩
  · obtain ⟨c, hc⟩ := h he
    cases hv : changeValid c s.slotA with
    | false => exact ⟨_, playCurrent_of_invalid hc hv⟩
    | true =>
      by_cases hz : c.timUs = 0#32
      · exact ⟨_, playCurrent_of_zeroPeriod hc hv hz⟩
      · obtain ⟨v, hval⟩ := valueAt_of_valid hv
        exact ⟨_, playCurrent_of_valid hc hv hz hval⟩

theorem atBoundary_iff {s : State} : atBoundary s = true ↔
    (s.pllchangei = -1 ∧ s.config.launchIsBoundary = true) ∨ (s.slotA.pll.length : Int) ≤ s.pllchangei + 1 := by
  simp [atBoundary]

theorem overrunFaults_iff {s : State} : overrunFaults s = true ↔ s.uploading = true ∧ s.config.overrun = .fault := by
  simp [overrunFaults]

theorem pendingUpload_iff {s : State} : pendingUpload s = true ↔ s.uploading = false ∧ s.slotB.pll ≠ [] := by
  simp [pendingUpload]

/-- Away from a boundary the choice of the next change touches `pllchangei` only. -/
theorem advance_of_not_boundary {s : State} (h : atBoundary s = false) :
    advance s = { s with pllchangei := s.pllchangei + 1 } := by simp [advance, h]

/-- At a boundary without a pending upload the same program starts again. -/
theorem advance_of_no_swap {s : State} (h : atBoundary s = true) (hp : pendingUpload s = false) :
    advance s = { s with pllchangei := 0 } := by simp [advance, swapDecision, h, hp]

/-- At a boundary with a pending upload the slots are swapped. -/
theorem advance_of_swap {s : State} (h : atBoundary s = true) (hp : pendingUpload s = true) :
    advance s = { swap s with pllchangei := 0 } := by simp [advance, swapDecision, h, hp]

/-- What the choice of the next change does to the slots: nothing, or a swap. -/
theorem advance_slots (s : State) :
    ((advance s).active = s.active ∧ (advance s).slot0 = s.slot0 ∧ (advance s).slot1 = s.slot1 ∧
      (advance s).slotA = s.slotA ∧ (advance s).slotB = s.slotB) ∨
    (atBoundary s = true ∧ pendingUpload s = true ∧ (advance s).active = s.active.other ∧
      (advance s).slotA = s.slotB ∧ (advance s).slotB = .empty) := by
  cases hb : atBoundary s with
  | false => rw [advance_of_not_boundary hb]; exact .inl ⟨rfl, rfl, rfl, rfl, rfl⟩
  | true =>
    cases hp : pendingUpload s with
    | false => rw [advance_of_no_swap hb hp]; exact .inl ⟨rfl, rfl, rfl, rfl, rfl⟩
    | true =>
      rw [advance_of_swap hb hp]
      exact .inr ⟨rfl, rfl, swap_active s, swap_slotA s, swap_slotB s⟩

/-- After the choice of the next change, `pllchangei` is an index of the program if that is not empty. -/
theorem advance_changeAt {s : State} (h : -1 ≤ s.pllchangei) (hne : (advance s).slotA.pll ≠ []) :
    ∃ c, (advance s).changeAt (advance s).pllchangei = some c := by
  cases hb : atBoundary s with
  | true =>
    refine changeAt_of_lt (by simp [hb]) ?_
    have := List.length_pos_iff.2 hne
    simp [hb]; omega
  | false =>
    have hnb : ¬ (s.slotA.pll.length : Int) ≤ s.pllchangei + 1 := fun hl => by
      simp [atBoundary_iff.2 (.inr hl)] at hb
    rw [advance_of_not_boundary hb]
    exact changeAt_of_lt (by simp only; omega) (by simp only; exact Int.not_le.1 hnb)

/-- Everything `step` can do: an overrun fault, or the checks on the chosen change. -/
theorem stepSeq_cases {o : Origin} {s t : State} (h : stepSeq o s = .next t) :
    (atBoundary s = true ∧ overrunFaults s = true ∧ t = raiseFault .uploadOverrun s) ∨
    ((atBoundary s && overrunFaults s) = false ∧ playCurrent o (advance s) = .next t) := by
  unfold stepSeq at h
  split at h
  · next hb => simp only [Bool.and_eq_true] at hb; cases h; exact .inl ⟨hb.1, hb.2, rfl⟩
  · next hb => exact .inr ⟨by simpa using hb, h⟩

theorem stepSeq_total {o : Origin} {s : State} (h : -1 ≤ s.pllchangei) : ∃ t, stepSeq o s = .next t := by
  unfold stepSeq
  split
  · exact ⟨_, rfl⟩
  · exact playCurrent_total (advance_changeAt h)

/-! ## Tick -/

/-- Everything a tick can do. -/
theorem tickHandler_cases {s t : State} (h : tickHandler s = .next t) :
    (s.isRunning = false ∧ t = expireOneshot s) ∨
    (s.isRunning = true ∧ s.fracnRem = 0#32 ∧ stepSeq .tick (expireOneshot s) = .next t) ∨
    (s.isRunning = true ∧ s.fracnRem ≠ 0#32 ∧ applyNext (expireOneshot s) = .next t) := by
  unfold tickHandler tickBody at h
  simp only [expireOneshot_isRunning, expireOneshot_fracnRem] at h
  split at h
  · next hr => cases h; exact .inl ⟨by simpa using hr, rfl⟩
  · next hr =>
    have hr : s.isRunning = true := by simpa using hr
    split at h
    · next hz => exact .inr (.inl ⟨hr, hz, h⟩)
    · next hz => exact .inr (.inr ⟨hr, hz, h⟩)

/-- What the application of the next value leaves. -/
theorem applyNext_cases {s t : State} (h : applyNext s = .next t) : ∃ v, s.valueAt (s.fracnI.toNat + 1) = some v ∧
    s.fracnI.toNat + 1 < 2 ^ 32 ∧ t = emit (.synSetFractional v)
      { s with fracnI := BitVec.ofNat 32 (s.fracnI.toNat + 1), fracnRem := BitVec.ofNat 32 (s.fracnRem.toNat - 1) } := by
  unfold applyNext at h
  split at h
  · cases h
  · next v hv =>
    split at h
    · next hlt => cases h; exact ⟨v, hv, hlt, rfl⟩
    · cases h

theorem applyNext_eq {s : State} {v : U16} (hv : s.valueAt (s.fracnI.toNat + 1) = some v)
    (hlt : s.fracnI.toNat + 1 < 2 ^ 32) : applyNext s = .next (emit (.synSetFractional v)
      { s with fracnI := BitVec.ofNat 32 (s.fracnI.toNat + 1), fracnRem := BitVec.ofNat 32 (s.fracnRem.toNat - 1) }) := by
  unfold applyNext
  rw [hv]
  simp only [hlt, if_true]

end Sys2Proof.Machine
end

