-- ==== Sys2Proof/Laws/Link.lean ====
section
/-! SUPPORT. What frame assembly does to the message buffer, and the cases of a drain. -/

namespace Sys2Proof.Machine

@[simp] theorem linkAcceptAll_nil (s : State) : linkAcceptAll [] s = .next s := rfl

theorem linkAcceptAll_cons (b : Byte) (bs : List Byte) (s : State) :
    linkAcceptAll (b :: bs) s = andThen (linkAccept b s) (linkAcceptAll bs) := rfl

theorem linkAcceptAll_append (as bs : List Byte) (s : State) :
    linkAcceptAll (as ++ bs) s = andThen (linkAcceptAll as s) (linkAcceptAll bs) := by
  induction as generalizing s with
  | nil => rfl
  | cons a as ih =>
    simp only [List.cons_append, linkAcceptAll_cons]
    cases h : linkAccept a s with
    | next u => simpa using ih u
    | fault r => rfl
    | refused r => rfl

theorem linkAccept_of_ne {b : Byte} (hb : b ≠ 0x00#8) (s : State) : linkAccept b s = .next (acceptByte b s) := by
  simp [linkAccept, hb]

theorem linkAccept_zero (s : State) : linkAccept 0x00#8 s = frameEnd s := by simp [linkAccept]

/-- Everything a byte that is no terminator can do (R152, R153, R154). -/
theorem acceptByte_cases (b : Byte) (s : State) :
    (s.msgOvf = true ∧ acceptByte b s = s) ∨
    (s.msgOvf = false ∧ s.msgLen < s.config.msgCap ∧
      acceptByte b s = { s with msgBuf := memWrite s.msgBuf s.msgLen b, msgLen := s.msgLen + 1 }) ∨
    (s.msgOvf = false ∧ s.config.msgCap ≤ s.msgLen ∧ acceptByte b s = setMsgOvf true s) := by
  unfold acceptByte
  cases ho : s.msgOvf with
  | true => exact .inl ⟨rfl, by simp⟩
  | false =>
    by_cases hl : s.msgLen < s.config.msgCap
    · exact .inr (.inl ⟨rfl, hl, by simp [hl]⟩)
    · exact .inr (.inr ⟨rfl, by omega, by simp [hl]⟩)

/-- Everything the end of a frame can do (R155). -/
theorem frameEnd_cases {s t : State} (h : frameEnd s = .next t) :
    (s.msgOvf = true ∧ t = resetAssembly (reply nackByte s)) ∨
    (s.msgOvf = false ∧ ∃ e, memReadRange s.msgBuf 0 s.msgLen = some e ∧
      ((∃ i, decodeFrame s.config.deser e = .ok i ∧
          t = resetAssembly { reply ackByte s with pendingCmd := some i }) ∨
        (∃ why, decodeFrame s.config.deser e = .reject why ∧ t = resetAssembly (reply nackByte s)))) := by
  unfold frameEnd at h
  cases ho : s.msgOvf with
  | true => rw [ho] at h; simp only [if_true] at h; cases h; exact .inl ⟨rfl, rfl⟩
  | false =>
    rw [ho] at h
    simp only [Bool.false_eq_true, if_false] at h
    split at h
    · cases h
    · next e he =>
      cases h
      refine .inr ⟨rfl, e, he, ?_⟩
      unfold answerFrame
      split
      · next i hi => exact .inl ⟨i, hi, rfl⟩
      · next why hw => exact .inr ⟨why, hw, rfl⟩

/-- The assembly of bytes that are no terminators and fit the buffer: they stand behind the bytes already there. -/
theorem linkAcceptAll_of_fits {bs : List Byte} {s : State} (hz : 0x00#8 ∉ bs) (ho : s.msgOvf = false)
    (hl : s.msgLen + bs.length ≤ s.config.msgCap) :
    ∃ buf, linkAcceptAll bs s = .next { s with msgBuf := buf, msgLen := s.msgLen + bs.length } ∧
      (∀ j (h : j < bs.length), memRead buf (s.msgLen + j) = some bs[j]) ∧
      ∀ i, i < s.msgLen → memRead buf i = memRead s.msgBuf i := by
  induction bs generalizing s with
  | nil => exact ⟨s.msgBuf, by simp, by simp, fun _ _ => rfl⟩
  | cons b bs ih =>
    simp only [List.mem_cons, not_or] at hz
    simp only [List.length_cons] at hl
    have hb : acceptByte b s = { s with msgBuf := memWrite s.msgBuf s.msgLen b, msgLen := s.msgLen + 1 } := by
      simp [acceptByte, ho, show s.msgLen < s.config.msgCap by omega]
    obtain ⟨buf, hrun, hnew, hold⟩ := ih (s := { s with msgBuf := memWrite s.msgBuf s.msgLen b, msgLen := s.msgLen + 1 })
      hz.2 ho (by simp only; omega)
    refine ⟨buf, ?_, ?_, ?_⟩
    · rw [linkAcceptAll_cons, linkAccept_of_ne (Ne.symm hz.1), hb, andThen_next, hrun]
      simp [Nat.add_assoc, Nat.add_comm 1]
    · intro j hj
      cases j with
      | zero =>
        rw [Nat.add_zero, hold s.msgLen (Nat.lt_succ_self _)]
        exact memRead_memWrite_same _ _ _
      | succ j =>
        have := hnew j (by simpa using hj)
        simp only at this
        rw [List.getElem_cons_succ, ← this]
        congr 1
        omega
    · intro i hi
      rw [hold i (by simp only; omega)]
      exact memRead_memWrite_ne _ _ (by omega)

/-- The test `quiescent` is the premise `Quiescent` (R302). -/
theorem quiescent_iff (s : State) : quiescent s = true ↔ Quiescent s := by
  simp [quiescent, Quiescent, interruptsEnabled]
  tauto

/-- A drain from a ring with known unread bytes. -/
theorem drain_cases {n : Nat} {s t : State} (h : drain n s = .next t) :
    ∃ bytes s', ringRead s n (some 0x00#8) = some (bytes, s') ∧ linkAcceptAll bytes s' = .next t := by
  unfold drain at h
  split at h
  · cases h
  · next bytes s' hr => exact ⟨bytes, s', hr, h⟩

end Sys2Proof.Machine
end

