-- ==== Sys2Proof/Laws/Ring.lean ====
section
/-! SUPPORT. What `RingWrite` and `RingRead` do, in terms of the unread bytes. -/

namespace Sys2Proof.Machine

/-- Two offsets less than the capacity apart reach the same index of the ring only if they are equal. -/
theorem ringIndex_inj {cap rd i j : Nat} (hi : i < cap) (hj : j < cap) (h : (rd + i) % cap = (rd + j) % cap) : i = j := by
  have := Nat.ModEq.add_left_cancel' rd h
  exact Nat.ModEq.eq_of_lt_of_lt this hi hj

/-- The bulk write leaves an index alone that it does not reach. -/
theorem memRead_ringStore_ne {cap : Nat} {m : Memory} {i k : Nat} {data : List Byte}
    (h : ∀ j, j < data.length → (i + j) % cap ≠ k) : memRead (ringStore cap m i data) k = memRead m k := by
  induction data generalizing m i with
  | nil => rfl
  | cons b rest ih =>
    simp only [ringStore]
    rw [ih fun j hj => by simpa [Nat.add_assoc, Nat.add_comm 1 j] using h (j + 1) (by simpa using hj)]
    exact memRead_memWrite_ne _ _ (Ne.symm (by simpa using h 0 (by simp)))

/-- The bulk write puts byte `j` of the data `j` places after the start, if the data fit the ring. -/
theorem memRead_ringStore {cap : Nat} {m : Memory} {i j : Nat} {data : List Byte} (hfit : data.length ≤ cap)
    (hj : j < data.length) : memRead (ringStore cap m i data) ((i + j) % cap) = some data[j] := by
  induction data generalizing m i j with
  | nil => simp at hj
  | cons b rest ih =>
    simp only [List.length_cons] at hfit hj
    simp only [ringStore]
    cases j with
    | zero =>
      rw [memRead_ringStore_ne fun j' hj' => ?_]
      · simpa using memRead_memWrite_same _ _ _
      · intro he
        have : 1 + j' = 0 := ringIndex_inj (cap := cap) (rd := i) (by omega) (by omega) (by rw [← Nat.add_assoc]; simpa using he)
        omega
    | succ j =>
      have := ih (m := memWrite m (i % cap) b) (i := i + 1) (j := j) (by omega) (by omega)
      simpa [Nat.add_assoc, Nat.add_comm 1 j] using this

/-- A scan without a delimiter reads exactly the bytes that were written. -/
theorem ringScan_none {cap : Nat} {mem : Memory} {i : Nat} {l : List Byte} :
    ringScan cap mem none i l.length = some l ↔ ∀ j (h : j < l.length), memRead mem ((i + j) % cap) = some l[j] := by
  induction l generalizing i with
  | nil => simp [ringScan]
  | cons b rest ih =>
    simp only [List.length_cons, ringScan]
    constructor
    · intro h
      split at h
      · cases h
      · next c hc =>
        simp only [reduceCtorEq, if_false] at h
        cases hr : ringScan cap mem none (i + 1) rest.length with
        | none => rw [hr] at h; cases h
        | some bs =>
          rw [hr] at h; cases h
          intro j hj
          cases j with
          | zero => simpa using hc
          | succ j => simpa [Nat.add_assoc, Nat.add_comm 1 j] using (ih.1 hr) j (by simpa using hj)
    · intro h
      have h0 : memRead mem (i % cap) = some b := by simpa using h 0 (by simp)
      have hr : ringScan cap mem none (i + 1) rest.length = some rest :=
        ih.2 fun j hj => by
          have := h (j + 1) (Nat.succ_lt_succ hj)
          rwa [List.getElem_cons_succ, Nat.add_comm j 1, ← Nat.add_assoc] at this
      simp [h0, hr]

/-- A scan with a delimiter reads a first part of what a longer scan without one reads. -/
theorem ringScan_delim {cap : Nat} {mem : Memory} {i m : Nat} {l : List Byte} (delim : Option Byte)
    (h : ∀ j (hj : j < l.length), memRead mem ((i + j) % cap) = some l[j]) (hm : m ≤ l.length) :
    ringScan cap mem delim i m = some (upTo delim (l.take m)) := by
  induction l generalizing i m with
  | nil => have : m = 0 := by simpa using hm
           subst this; rfl
  | cons b rest ih =>
    cases m with
    | zero => simp [ringScan, upTo]
    | succ m =>
      have h0 : memRead mem (i % cap) = some b := by
        have := h 0 (Nat.succ_pos _)
        rwa [List.getElem_cons_zero, Nat.add_zero] at this
      have := ih (i := i + 1) (m := m)
        (fun j hj => by
          have := h (j + 1) (Nat.succ_lt_succ hj)
          rwa [List.getElem_cons_succ, Nat.add_comm j 1, ← Nat.add_assoc] at this) (by simpa using hm)
      simp only [ringScan, h0, this, List.take_succ_cons, upTo]
      split <;> simp

/-- A scan that may take a byte takes one at least, and no more than it may (R133). -/
theorem ringScan_bounds {cap : Nat} {mem : Memory} {delim : Option Byte} {i m : Nat} {l : List Byte} (hm : 0 < m)
    (h : ringScan cap mem delim i m = some l) : 1 ≤ l.length ∧ l.length ≤ m := by
  induction m generalizing i l with
  | zero => omega
  | succ m ih =>
    unfold ringScan at h
    split at h
    · cases h
    · split at h
      · cases h; simp
      · obtain ⟨r, hr, rfl⟩ := Option.map_eq_some_iff.1 h
        cases m with
        | zero => simp [ringScan] at hr; subst hr; simp
        | succ m => have := ih (by omega) hr; simp; omega

theorem ringScan_length {cap : Nat} {mem : Memory} {i m : Nat} {l : List Byte} (h : ringScan cap mem none i m = some l) :
    l.length = m := by
  induction m generalizing i l with
  | zero => simp [ringScan] at h; simp [← h]
  | succ m ih =>
    simp only [ringScan, reduceCtorEq, if_false] at h
    split at h
    · cases h
    · cases hr : ringScan cap mem none (i + 1) m with
      | none => rw [hr] at h; cases h
      | some bs => rw [hr] at h; cases h; simp [ih hr]

/-- What the unread bytes are. -/
theorem ringUnread_eq_some {s : State} {u : List Byte} : ringUnread s = some u ↔
    u.length = s.ringCount ∧ ∀ j (h : j < u.length), memRead s.ringMem ((s.ringRd + j) % s.config.ringCap) = some u[j] := by
  unfold ringUnread ringTaken
  rw [Nat.min_self]
  constructor
  · intro h
    have hl := ringScan_length h
    rw [← hl] at h
    exact ⟨hl, ringScan_none.1 h⟩
  · rintro ⟨hl, h⟩
    rw [← hl]
    exact ringScan_none.2 h

/-- The invariant gives the unread bytes. -/
theorem InvRing.unread {s : State} (h : InvRing s) : ∃ u, ringUnread s = some u := by
  obtain ⟨-, -, -, -, -, -, hw⟩ := h
  have : ∀ n i, (∀ j, j < n → (memRead s.ringMem ((i + j) % s.config.ringCap)).isSome) →
      ∃ l, ringScan s.config.ringCap s.ringMem none i n = some l := by
    intro n
    induction n with
    | zero => exact fun i _ => ⟨[], rfl⟩
    | succ n ih =>
      intro i hi
      obtain ⟨l, hl⟩ := ih (i + 1) fun j hj => by simpa [Nat.add_assoc, Nat.add_comm 1 j] using hi (j + 1) (by omega)
      obtain ⟨b, hb⟩ := Option.isSome_iff_exists.1 (by simpa using hi 0 (by omega))
      exact ⟨b :: l, by simp [ringScan, hb, hl]⟩
  unfold ringUnread ringTaken
  rw [Nat.min_self]
  exact this _ _ hw

theorem upTo_isPrefix (delim : Option Byte) (l : List Byte) : upTo delim l <+: l := by
  induction l with
  | nil => exact List.prefix_rfl
  | cons b rest ih =>
    simp only [upTo]
    split
    · exact ⟨rest, rfl⟩
    · simpa using ih

@[simp] theorem upTo_none (l : List Byte) : upTo none l = l := by
  induction l with
  | nil => rfl
  | cons b rest ih => simp [upTo, ih]

/-- What `RingRead` does: it returns a first part of the unread bytes and leaves the rest (R133). -/
theorem ringRead_eq {s : State} {u : List Byte} (hu : ringUnread s = some u) (max : Nat) (delim : Option Byte) :
    ringRead s max delim =
      some (upTo delim (u.take max), ringAdvance s (upTo delim (u.take max)).length) := by
  obtain ⟨hl, hr⟩ := ringUnread_eq_some.1 hu
  have ht : u.take (min max s.ringCount) = u.take max := by
    rw [← hl, List.take_eq_take_iff]; simp
  unfold ringRead ringTaken
  rw [ringScan_delim delim hr (by omega), ht]
  rfl

/-- The unread bytes after a `RingRead` of `k` bytes. -/
theorem ringUnread_ringAdvance {s : State} {u : List Byte} (hu : ringUnread s = some u) {k : Nat} (hk : k ≤ u.length) :
    ringUnread (ringAdvance s k) = some (u.drop k) := by
  obtain ⟨hl, hr⟩ := ringUnread_eq_some.1 hu
  refine ringUnread_eq_some.2 ⟨by simp [hl], fun j hj => ?_⟩
  have hj' : k + j < u.length := by simp at hj; omega
  have := hr (k + j) hj'
  simp only [ringAdvance_ringMem, ringAdvance_ringRd, ringAdvance_config, List.getElem_drop]
  rw [← this]
  congr 1
  rw [Nat.mod_add_mod, Nat.add_assoc]

/-- A `RingRead` keeps the ring's invariant. -/
theorem InvRing.advance {s : State} (h : InvRing s) {k : Nat} (hk : k ≤ s.ringCount) : InvRing (ringAdvance s k) := by
  obtain ⟨hc, hrd, hcnt, hwr, hwf, hb, hw⟩ := h
  refine ⟨hc, by simpa using Nat.mod_lt _ hc, by simp; omega, ?_, hwf, hb, fun j hj => ?_⟩
  · simp only [ringAdvance_ringWr, ringAdvance_ringRd, ringAdvance_ringCount, ringAdvance_config, hwr]
    rw [Nat.mod_add_mod, Nat.add_assoc, Nat.add_sub_of_le hk]
  · simp only [ringAdvance_ringCount, ringAdvance_ringMem, ringAdvance_ringRd, ringAdvance_config] at hj ⊢
    rw [Nat.mod_add_mod, Nat.add_assoc]
    exact hw _ (by omega)

/-- The unread bytes after a `RingWrite`: what was accepted stands behind what was unread (R131). -/
theorem ringUnread_ringWrite {s : State} (h : InvRing s) {u : List Byte} (hu : ringUnread s = some u)
    (data : List Byte) : ringUnread (ringWrite s data) = some (u ++ data.take (ringAccepts s data)) := by
  obtain ⟨hc, hrd, hcnt, hwr, -, -, -⟩ := h
  obtain ⟨hl, hr⟩ := ringUnread_eq_some.1 hu
  have hk : ringAccepts s data ≤ s.config.ringCap - s.ringCount := Nat.min_le_right _ _
  have hk' : ringAccepts s data ≤ data.length := Nat.min_le_left _ _
  generalize hd : data.take (ringAccepts s data) = d
  have hdl : d.length = ringAccepts s data := by rw [← hd]; simp; omega
  have hat : ∀ j, (s.ringWr + j) % s.config.ringCap = (s.ringRd + (s.ringCount + j)) % s.config.ringCap := by
    intro j; rw [hwr, Nat.mod_add_mod, Nat.add_assoc]
  refine ringUnread_eq_some.2 ⟨by simp [hl, hdl], fun j hj => ?_⟩
  simp only [List.length_append] at hj
  simp only [ringWrite_ringMem, ringWrite_ringRd, ringWrite_config, hd]
  by_cases hju : j < u.length
  · rw [memRead_ringStore_ne fun j' hj' => ?_, hr j hju, List.getElem_append_left hju]
    intro he
    rw [hat] at he
    have := ringIndex_inj (by omega) (by omega) he
    omega
  · have := memRead_ringStore (cap := s.config.ringCap) (m := s.ringMem) (i := s.ringWr) (j := j - u.length) (data := d)
      (by omega) (by omega)
    rw [hat, ← hl, Nat.add_sub_of_le (by omega)] at this
    rw [this, List.getElem_append_right (by omega)]

/-- A `RingWrite` keeps the ring's invariant. -/
theorem InvRing.write {s : State} (h : InvRing s) (data : List Byte) : InvRing (ringWrite s data) := by
  obtain ⟨u, hu⟩ := h.unread
  have hu' := ringUnread_eq_some.1 (ringUnread_ringWrite h hu data)
  obtain ⟨hc, hrd, hcnt, hwr, hwf, hb, -⟩ := h
  have hk : ringAccepts s data ≤ s.config.ringCap - s.ringCount := Nat.min_le_right _ _
  refine ⟨hc, hrd, by simp; omega, ?_, ringStore_wf hwf _ _ _, ringStore_bounded hc hb _ _, fun j hj => ?_⟩
  · simp only [ringWrite_ringWr, ringWrite_ringRd, ringWrite_ringCount, ringWrite_config, hwr]
    rw [Nat.mod_add_mod, Nat.add_assoc]
  · rw [hu'.2 j (by rw [hu'.1]; exact hj)]
    rfl

/-- The ring's invariant speaks of the ring and its capacity only. -/
theorem InvRing.congr {s t : State} (h : InvRing s) (hm : t.ringMem = s.ringMem) (hr : t.ringRd = s.ringRd)
    (hw : t.ringWr = s.ringWr) (hc : t.ringCount = s.ringCount) (hg : t.config = s.config) : InvRing t := by
  unfold InvRing at *
  rw [hm, hr, hw, hc, hg]
  exact h

end Sys2Proof.Machine
end

