-- ==== Sys2Proof/Laws/Frames.lean ====
section
/-! SUPPORT. What the link's operations and the commands leave alone, each said once. -/

namespace Sys2Proof.Machine

/-- Frame assembly and the frame end touch the message buffer, `pending_cmd` and the trace only. -/
theorem linkAccept_frame {b : Byte} {s t : State} (h : linkAccept b s = .next t) :
    { t with msgBuf := s.msgBuf, msgLen := s.msgLen, msgOvf := s.msgOvf, pendingCmd := s.pendingCmd,
             trace := s.trace } = s := by
  by_cases hb : b = 0x00#8
  · subst hb
    rw [linkAccept_zero] at h
    rcases frameEnd_cases h with ⟨-, rfl⟩ | ⟨-, e, -, ⟨i, -, rfl⟩ | ⟨w, -, rfl⟩⟩
    · rfl
    · rfl
    · rfl
  · rw [linkAccept_of_ne hb] at h
    cases h
    rcases acceptByte_cases b s with ⟨-, h⟩ | ⟨-, -, h⟩ | ⟨-, -, h⟩ <;> simp [h, setMsgOvf]

theorem linkAcceptAll_frame {bs : List Byte} {s t : State} (h : linkAcceptAll bs s = .next t) :
    { t with msgBuf := s.msgBuf, msgLen := s.msgLen, msgOvf := s.msgOvf, pendingCmd := s.pendingCmd,
             trace := s.trace } = s := by
  induction bs generalizing s with
  | nil => cases h; rfl
  | cons b bs ih =>
    obtain ⟨u, hu, ht⟩ := andThen_eq_next.1 h
    have h1 := linkAccept_frame hu
    have h2 := ih ht
    calc _ = { ({ t with msgBuf := u.msgBuf, msgLen := u.msgLen, msgOvf := u.msgOvf, pendingCmd := u.pendingCmd,
                         trace := u.trace } : State) with
                msgBuf := s.msgBuf, msgLen := s.msgLen, msgOvf := s.msgOvf, pendingCmd := s.pendingCmd,
                trace := s.trace } := rfl
      _ = s := by rw [h2]; exact h1

/-- A drain touches the ring's cursors, the message buffer, `pending_cmd` and the trace only. -/
theorem drain_frame {n : Nat} {s t : State} (h : drain n s = .next t) :
    { t with ringRd := s.ringRd, ringCount := s.ringCount, msgBuf := s.msgBuf, msgLen := s.msgLen, msgOvf := s.msgOvf,
             pendingCmd := s.pendingCmd, trace := s.trace } = s := by
  obtain ⟨bytes, u, hr, hl⟩ := drain_cases h
  unfold ringRead at hr
  cases ht : ringTaken s n (some 0x00#8) with
  | none => rw [ht] at hr; cases hr
  | some out =>
    rw [ht] at hr
    cases hr
    have h2 := linkAcceptAll_frame hl
    exact congrArg (fun x : State =>
      { x with ringRd := s.ringRd, ringCount := s.ringCount, msgBuf := s.msgBuf, msgLen := s.msgLen, msgOvf := s.msgOvf,
               pendingCmd := s.pendingCmd, trace := s.trace }) h2

/-- `RX` touches the ring, the line and, on an overflow, `halted` and `fault_code` only. -/
theorem receiveNext_frame (s : State) :
    { receiveNext s with ringMem := s.ringMem, ringWr := s.ringWr, ringCount := s.ringCount, line := s.line,
                         halted := s.halted, faultCode := s.faultCode } = s := by
  unfold receiveNext
  split
  · rfl
  · unfold receiveByte; split <;> rfl

/-- The checks of `step` and its programming touch the position, `phase`, the trace, `halted` and `fault_code` only. -/
theorem playCurrent_frame {o : Origin} {s t : State} (h : playCurrent o s = .next t) :
    { t with fracnI := s.fracnI, fracnRem := s.fracnRem, phase := s.phase, trace := s.trace, halted := s.halted,
             faultCode := s.faultCode } = s := by
  rcases playCurrent_cases h with ⟨-, rfl⟩ | ⟨c, -, -, rfl⟩ | ⟨c, -, -, -, rfl⟩ | ⟨c, v, -, -, -, -, rfl⟩ <;> rfl

/-- The choice of the next change touches the slots, `active` and `pllchangei` only. -/
theorem advance_frame (s : State) :
    { advance s with slot0 := s.slot0, slot1 := s.slot1, active := s.active, pllchangei := s.pllchangei } = s := by
  unfold advance swapDecision swap State.setB State.setSlot
  split
  · split
    · split <;> rfl
    · rfl
  · rfl

/-- `step` touches the slots, the position, `phase`, the trace, `halted` and `fault_code` only. -/
theorem stepSeq_frame {o : Origin} {s t : State} (h : stepSeq o s = .next t) :
    { t with slot0 := s.slot0, slot1 := s.slot1, active := s.active, pllchangei := s.pllchangei, fracnI := s.fracnI,
             fracnRem := s.fracnRem, phase := s.phase, trace := s.trace, halted := s.halted,
             faultCode := s.faultCode } = s := by
  rcases stepSeq_cases h with ⟨-, -, rfl⟩ | ⟨-, h⟩
  · rfl
  · have h1 := playCurrent_frame h
    have h2 := advance_frame s
    rw [← h1] at h2
    refine Eq.trans ?_ h2
    have hf : (advance s).fracnI = s.fracnI ∧ (advance s).fracnRem = s.fracnRem ∧ (advance s).phase = s.phase ∧
        (advance s).trace = s.trace ∧ (advance s).halted = s.halted ∧ (advance s).faultCode = s.faultCode := by simp
    obtain ⟨e1, e2, e3, e4, e5, e6⟩ := hf
    simp only [e1, e2, e3, e4, e5, e6]

/-- The first two things a tick does touch the timer's mode, the position and the trace only. -/
theorem applyNext_frame {s t : State} (h : applyNext s = .next t) :
    { t with fracnI := s.fracnI, fracnRem := s.fracnRem, trace := s.trace } = s := by
  obtain ⟨v, -, -, rfl⟩ := applyNext_cases h
  rfl

/-- The cases of a command, by what it does to the state. -/
theorem exec_cases {i : Instr} {s t : State} (h : exec i s = .next t) :
    t = s ∨ (∃ c, i = .pushPllChange c ∧ t = pushPllChange c s) ∨
    (∃ n vs, i = .pushFracn n vs ∧ t = pushFracn (usedValues n vs) s) ∨ (i = .clearBuffers ∧ t = clearBuffers s) ∨
    (i = .uploadDone ∧ t = notifyUploadDone s) ∨ (i = .stopNow ∧ t = stop s) ∨
    (i = .startNow ∧ stepSeq .fg (restart s) = .next t) := by
  cases i <;> simp only [exec, execPing, execPushPllChange, execPushFracn, execClearBuffers, execUploadDone, execStartNow,
    execStopNow, execSetLooping, execEpochNow, execStartAtEpoch, launch, Host.Outcome.next.injEq] at h <;> simp [h]

end Sys2Proof.Machine
end

