-- ==== Sys2Proof/Laws/PerInstr.lean ====
section
/-! SUPPORT. The statements made per instruction, about the instruction as syntax. -/

namespace Sys2Proof.Laws.PayloadLength

/-- A well-formed command's payload begins with its tag of R100 and has the length R100 gives that tag, where it is
fixed (R92 to R97). -/
def Statement (i : Instr) : Prop :=
  (tagOf i).toNat ≤ 9 ∧ (payload i).head? = some (tagOf i) ∧
  (wellFormed i = true → ∀ n, fixedLength (tagOf i).toNat = some n → (payload i).length = n)

theorem ping : Statement .ping := by
  refine ⟨by simp [tagOf], rfl, fun _ n h => ?_⟩
  simpa [fixedLength, tagOf, payload, fieldBytes] using h

theorem pushPllChange (change : PllChange) : Statement (.pushPllChange change) := by
  refine ⟨by simp [tagOf], rfl, fun _ n h => ?_⟩
  simpa [fixedLength, tagOf, payload, fieldBytes, bytes32, bytes16] using h

theorem pushFracn (count : Byte) (values : List U16) : Statement (.pushFracn count values) := by
  refine ⟨by simp [tagOf], rfl, fun hw n h => ?_⟩
  have hl : values.length = 32 := by simp [wellFormed, allSlotsPresent, chunk] at hw; exact hw.2
  have hn : 66 = n := by simpa [fixedLength, tagOf] using h
  simp only [payload, fieldBytes, List.length_cons, length_flatMap_bytes16, hl, ← hn]

theorem clearBuffers : Statement .clearBuffers := by
  refine ⟨by simp [tagOf], rfl, fun _ n h => ?_⟩
  simpa [fixedLength, tagOf, payload, fieldBytes] using h

theorem uploadDone : Statement .uploadDone := by
  refine ⟨by simp [tagOf], rfl, fun _ n h => ?_⟩
  simpa [fixedLength, tagOf, payload, fieldBytes] using h

theorem startNow : Statement .startNow := by
  refine ⟨by simp [tagOf], rfl, fun _ n h => ?_⟩
  simpa [fixedLength, tagOf, payload, fieldBytes] using h

theorem stopNow : Statement .stopNow := by
  refine ⟨by simp [tagOf], rfl, fun _ n h => ?_⟩
  simpa [fixedLength, tagOf, payload, fieldBytes] using h

theorem setLooping (payload : List Byte) : Statement (.setLooping payload) := by
  refine ⟨by simp [tagOf], rfl, fun _ n h => ?_⟩
  simp [fixedLength, tagOf] at h

theorem epochNow (payload : List Byte) : Statement (.epochNow payload) := by
  refine ⟨by simp [tagOf], rfl, fun _ n h => ?_⟩
  simp [fixedLength, tagOf] at h

theorem startAtEpoch (payload : List Byte) : Statement (.startAtEpoch payload) := by
  refine ⟨by simp [tagOf], rfl, fun _ n h => ?_⟩
  simp [fixedLength, tagOf] at h

end Sys2Proof.Laws.PayloadLength
end

