-- ==== Sys2Proof/Tests/Slice0.lean ====
section
/-! SUPPORT. The model's own tests: ill-formed terms, words of the spec, one step of each command and agent, and for
every statement with hypotheses a concrete state and operands that meet them. Expected values are the spec's
(spec/95_test_vectors.md, spec/43_commands.md), or computed by hand from its rules. -/

set_option maxRecDepth 20000

namespace Sys2Proof.Tests

open Sys2Proof Sys2Proof.Machine

/-! ## Small states -/

/-- The state a step leads to, if it has one. -/
def after (r : Res) : Option State :=
  match r with
  | .next s => some s
  | _ => none

/-- 95_test_vectors.md section 0: `PushPllChange for=2 start=0` with the default fields. -/
def changeTwo : PllChange := { forTicks := 2, startTick := 0, divn := 100, vcosel := false, divp := 2, timUs := 10 }

/-- The same with one tick. -/
def changeOne : PllChange := { changeTwo with forTicks := 1 }

/-- A program of one change over two values. -/
def progTwo : Slot := { fracn := [10, 11], pll := [changeTwo] }

/-- Three changes that cannot be played over two values: no ticks, one tick too many, period 0. -/
def changeNoTicks : PllChange := { changeTwo with forTicks := 0 }

def changePastEnd : PllChange := { changeTwo with forTicks := 3 }

def changeNoPeriod : PllChange := { changeTwo with timUs := 0 }

/-- A program of the one change over two values. -/
def progOf (c : PllChange) : Slot := { fracn := [10, 11], pll := [c] }

/-- Small capacities, for the boundary cases. -/
def tiny : Config := { Config.vectors with fracnCap := 2, pllCap := 1, ringCap := 1 }

/-- Reset, with a pending upload in the back slot. -/
def uploaded : State := { State.reset with slot1 := progTwo }

/-- Reset, with the program in the active slot. -/
def loaded : State := { State.reset with slot0 := progTwo }

/-- The program runs; its first value has been applied and one is left. -/
def playing : State :=
  { loaded with isRunning := true, pllchangei := 0, fracnI := 0, fracnRem := 1, tmrMode := .periodic, tmrReload := 10 }

/-- The program runs and its last value has been applied: the next tick is a loop boundary. -/
def atEnd : State := { playing with fracnI := 1, fracnRem := 0 }

/-- The same with a second change: the next tick is no boundary. -/
def midway : State := { atEnd with slot0 := { fracn := [10, 11, 12], pll := [changeTwo, { changeOne with startTick := 2 }] } }

/-- A lock wait of the program's first change. -/
def locking : State := { playing with tmrMode := .off, phase := .lockWait .fg changeTwo }

/-- A frame `01 01 00` (`Ping`) unread in the ring. -/
def ringPing : State :=
  { State.reset with ringMem := [(0, 0x01), (1, 0x01), (2, 0x00)], ringWr := 3, ringCount := 3 }

/-- The same frame in a ring of four bytes, with one more byte on the line: there is room for just that one. -/
def ringAlmostFull : State := { ringPing with config := { Config.vectors with ringCap := 4 }, line := [0x41] }

/-- A ring of one byte that is full. -/
def ringFull : State := { State.reset with config := tiny, ringMem := [(0, 0x41)], ringCount := 1 }

/-- The encoded part `01 01` (`Ping`) assembled. -/
def assembled : State := { State.reset with msgBuf := [(0, 0x01), (1, 0x01)], msgLen := 2 }

/-- A frame that has overflowed a message buffer of two bytes. -/
def overflowed : State := { assembled with config := { Config.vectors with msgCap := 2 }, msgOvf := true }

/-- `uploading` holds over a back slot that has a change. -/
def openUpload : State := { atEnd with slot1 := progTwo, uploading := true }

/-- The upload is pending. -/
def pendingAtEnd : State := { openUpload with uploading := false }

/-- The program runs, the next tick is a loop boundary, and the active slot is empty: in no run from reset. -/
def atEndOfNothing : State := { atEnd with slot0 := .empty }

/-- Policy `Fault`. -/
def strict (s : State) : State := { s with config := { s.config with overrun := .fault } }

/-- A launch is no boundary by itself. -/
def noLaunchBoundary (s : State) : State := { s with config := { s.config with launchIsBoundary := false } }

/-! ## Well-formedness -/

theorem test_wellFormed_refuses_count_33 : wellFormed (.pushFracn 33 (List.replicate 32 0)) = false := by decide

theorem test_wellFormed_refuses_31_slots : wellFormed (.pushFracn 2 (List.replicate 31 0)) = false := by decide

theorem test_wellFormed_accepts_count_32 : wellFormed (.pushFracn 32 (List.replicate 32 0)) = true := by decide

/-! ## Words of the spec (95_test_vectors.md section 0, 43_commands.md) -/

theorem test_decode_ping : decodeFrame .standard [0x01, 0x01] = .ok .ping := by decide

theorem test_decode_pushPllChange :
    decodeFrame .standard [0x03, 0x01, 0x03, 0x01, 0x01, 0x01, 0x01, 0x01, 0x01, 0x07, 0x90, 0x01, 0x01, 0x02, 0xE8,
      0x03, 0x01, 0x01] =
    .ok (.pushPllChange { forTicks := 3, startTick := 0, divn := 400, vcosel := true, divp := 2, timUs := 1000 }) := by
  decide

theorem test_decode_pushFracn :
    decodeFrame .standard ([0x04, 0x02, 0x03, 0x64, 0x02, 0x65, 0x02, 0x66] ++ List.replicate 59 0x01) =
    .ok (.pushFracn 3 ([100, 101, 102] ++ List.replicate 29 0)) := by decide

theorem test_decode_clearBuffers : decodeFrame .standard [0x02, 0x03] = .ok .clearBuffers := by decide

theorem test_decode_uploadDone : decodeFrame .standard [0x02, 0x04] = .ok .uploadDone := by decide

theorem test_decode_startNow : decodeFrame .standard [0x02, 0x05] = .ok .startNow := by decide

theorem test_decode_stopNow : decodeFrame .standard [0x02, 0x06] = .ok .stopNow := by decide

theorem test_decode_setLooping : decodeFrame .standard [0x02, 0x07] = .ok (.setLooping []) := by decide

theorem test_decode_epochNow : decodeFrame .standard [0x03, 0x08, 0xAA] = .ok (.epochNow [0xAA]) := by decide

theorem test_decode_startAtEpoch : decodeFrame .standard [0x02, 0x09] = .ok (.startAtEpoch []) := by decide

/-- V-L2. -/
theorem test_cobs_vectors :
    cobsDecode [0x01] = some [] ∧ cobsDecode [0x03, 0x11, 0x22, 0x02, 0x33] = some [0x11, 0x22, 0x00, 0x33] ∧
    cobsDecode [0x05, 0x01, 0x02] = none ∧ cobsDecode [0x02, 0x05, 0x01] = some [0x05, 0x00] := by decide

/-- V-L3 to V-L7. -/
theorem test_illegal_frames :
    decodeFrame .standard [] = .reject .emptyEncoded ∧ decodeFrame .standard [0x01] = .reject .emptyPayload ∧
    decodeFrame .standard [0x02, 0x0A] = .reject .unknownTag ∧
    decodeFrame .standard [0x05, 0x01, 0x02] = .reject .malformedStuffing ∧
    decodeFrame .standard [0x03, 0x03, 0x01] = .reject .wrongLength ∧
    decodeFrame .standard [0x02, 0x05, 0x01] = .reject .wrongLength ∧
    decodeFrame .standard [0x03, 0x01, 0x01, 0x01, 0x01, 0x01, 0x01, 0x01, 0x01, 0x02, 0x01, 0x04, 0x02, 0x01, 0x01, 0x01,
      0x01, 0x01] = .reject .badVcosel ∧
    decodeFrame .standard ([0x03, 0x02, 0x21] ++ List.replicate 64 0x01) = .reject .badCount := by decide

/-! ## The opcode table's words -/

theorem test_decodeTableWord :
    decodeTableWord 8 0 = some .ping ∧ decodeTableWord 8 5 = some .startNow ∧ decodeTableWord 8 8 = some (.epochNow []) ∧
    decodeTableWord 8 1 = some (.pushPllChange { forTicks := 0, startTick := 0, divn := 0, vcosel := false, divp := 0, timUs := 0 }) ∧
    decodeTableWord 8 2 = some (.pushFracn 0 (List.replicate 32 0)) ∧ decodeTableWord 8 0x0A = none := by decide

theorem test_withFetchWord_runs_uploadDone :
    (after (step ({ State.reset with uploading := true }.withFetchWord 8 4))).map (fun t => t.uploading) = some false := by
  decide

/-! ## One step of each command -/

theorem test_ping_keeps_the_state : after (exec .ping playing) = some playing := by decide

/-- V-S1: a change pushed behind ten values starts at 10. -/
theorem test_pushPllChange_rebases :
    (after (exec (.pushPllChange changeTwo) { State.reset with slot1 := { fracn := List.replicate 10 7, pll := [] } })).map
      (fun t => (t.slot1.pll.map fun c => c.startTick.toNat, t.uploading, t.slot0.pll.length)) = some ([10], true, 0) := by
  decide

/-- V-S10. -/
theorem test_pushPllChange_start_overflow :
    (after (exec (.pushPllChange { changeOne with startTick := 0xFFFFFFFF }) { State.reset with slot1 := { fracn := [9], pll := [] } })).map
      (fun t => (t.halted, t.faultCode, t.slot1.pll, t.slot1.fracn)) = some (true, some .startOverflow, [], [9]) := by decide

/-- 43_commands.md R233. -/
theorem test_pushFracn_takes_the_first_two :
    (after (exec (.pushFracn 2 ([7, 8] ++ List.replicate 30 9)) State.reset)).map (fun t => (t.slot1.fracn, t.uploading)) =
      some ([7, 8], true) := by decide

/-- V-S11, on a back slot of two entries. -/
theorem test_pushFracn_beyond_capacity :
    (after (exec (.pushFracn 1 (List.replicate 32 5)) { uploaded with config := tiny })).map
      (fun t => (t.faultCode, t.slot1.fracn, t.uploading)) = some (some .fracnCapacity, [10, 11], false) := by decide

/-- 42_sequencer.md R187. -/
theorem test_clearBuffers_empties_the_back_slot :
    (after (exec .clearBuffers { uploaded with slot0 := progTwo, uploading := true })).map
      (fun t => (t.slot1, t.slot0, t.uploading)) = some (Slot.empty, progTwo, true) := by decide

theorem test_clearBuffers_while_running :
    (after (exec .clearBuffers { playing with slot1 := progTwo })).map (fun t => (t.faultCode, t.slot1)) =
      some (some .clearWhileRunning, progTwo) := by decide

theorem test_uploadDone : (after (exec .uploadDone openUpload)).map (fun t => (t.uploading, t.active)) =
    some (false, .zero) := by decide

/-- V-S5, V-S9 and P1 in small: a pending upload is swapped in and its first change programmed. -/
theorem test_startNow_swaps :
    (after (exec .startNow uploaded)).map (fun t => (t.active, t.slot0, t.trace, t.phase, t.fracnRem.toNat)) =
      some (.one, Slot.empty, [.synDisable, .synConfigure 100 2 false, .synSetFractional 10, .synEnable],
        .lockWait .fg changeTwo, 1) := by decide

/-- V-S4. -/
theorem test_startNow_from_reset_halts :
    (after (exec .startNow State.reset)).map (fun t => (t.faultCode, t.isRunning, t.pllchangei, t.tmrMode, t.trace)) =
      some (some .emptyProgram, true, 0, .off, []) := by decide

/-- V-S8. -/
theorem test_stopNow_drains :
    (after (exec .stopNow playing)).map (fun t => (t.isRunning, t.tmrMode, t.pllchangei, t.trace)) =
      some (false, .draining, 0, [.tmrStartOneshotThenStop]) := by decide

theorem test_stopNow_twice : after (exec .stopNow loaded) = some loaded := by decide

theorem test_reserved_commands_keep_the_state :
    after (exec (.setLooping [0x01]) playing) = some playing ∧ after (exec (.epochNow [0xAA]) playing) = some playing ∧
    after (exec (.startAtEpoch []) playing) = some playing := by decide

/-! ## One step of each agent -/

/-- V-R1. -/
theorem test_ringRead_stops_at_the_delimiter :
    (ringRead (ringWrite State.reset [0x01, 0x02, 0x00, 0x03, 0x04]) 100 (some 0x00)).map
      (fun r => (r.1, r.2.ringRd, r.2.ringCount)) = some ([0x01, 0x02, 0x00], 3, 2) := by decide

/-- V-R4, on a ring of one byte. -/
theorem test_rx_overflow :
    (after (act .rx { ringFull with line := [0x42] })).map (fun t => (t.faultCode, t.ringMem, t.ringCount)) =
      some (some .ringOverflow, [(0, 0x41)], 1) := by decide

/-- 43_commands.md R231. -/
theorem test_drain_acks_ping :
    (after (act (.drain 3) ringPing)).map (fun t => (t.pendingCmd, t.txStream, t.ringCount, t.msgLen)) =
      some (some .ping, [0x01], 0, 0) := by decide

/-- V-S2, handler call 1 in small. -/
theorem test_tick_applies_the_next_value :
    (after (act .tick playing)).map (fun t => (t.fracnI.toNat, t.fracnRem.toNat, t.trace)) =
      some (1, 0, [.synSetFractional 11]) := by decide

/-- V-S7. -/
theorem test_tick_overrun_under_fault :
    (after (act .tick (strict openUpload))).map (fun t => (t.faultCode, t.pllchangei, t.active, t.trace)) =
      some (some .uploadOverrun, 0, .zero, []) := by decide

/-- 42_sequencer.md R197. -/
theorem test_lock_arms_the_timer :
    (after (act .lock locking)).map (fun t => (t.trace, t.tmrReload.toNat, t.tmrMode, t.phase)) =
      some ([.synOutputEnable, .tmrSetPeriod 10, .tmrStart], 10, .periodic, .normal) := by decide

/-- 60_exceptions.md R270. -/
theorem test_nothing_but_lock_steps_in_a_lock_wait :
    after (act .tick { locking with tmrMode := .periodic }) = some { locking with tmrMode := .periodic } := by decide

/-- 30_encoding.md R108. -/
theorem test_expandList : (expandList (List.replicate 33 1)).length = 2 ∧ expandList [] = [] := by decide

/-! ## Runs (R303, 95_test_vectors.md section 0) -/

/-- The foreground goes on after the last line: the reply comes without an `FG` line. -/
theorem test_run_answers_ping :
    (runResult [.host .ping] State.reset).map (fun r => (r.txStream, r.final.line, r.final.ringCount)) =
      some ([0x01], [], 0) := by decide

/-- A run that is left in a lock wait has not ended. -/
theorem test_run_waits_for_lock : runResult [.host .startNow] uploaded = none := by decide

/-- R311: a byte sent in the lock wait is received after the lock, and its frame answered. -/
theorem test_run_receives_after_the_lock :
    (runResult [.host .startNow, .fg, .host .ping, .lock] uploaded).map (fun r => (r.txStream, r.final.line)) =
      some ([0x01, 0x01], []) := by decide

theorem test_vectorLines :
    vectorLines [.pushFracnList (List.replicate 33 1), .tick] =
      [.host (pushFracnOf (List.replicate 32 1)), .fg, .host (pushFracnOf [1]), .fg, .tick] := by decide

/-! ## Witnesses: the invariants -/

theorem test_witness_Config_Valid : Config.vectors.Valid := by decide

theorem reset_meets_ResetState : ResetState State.reset := by simp [ResetState, State.reset]

theorem reset_meets_Quiescent : Quiescent State.reset := by simp [Quiescent, State.reset]

theorem reset_meets_InvRing : InvRing State.reset := by simp [InvRing, State.reset, Config.vectors, Memory.wf]

theorem reset_meets_BlockInv : BlockInv State.reset := by
  refine ⟨⟨by decide, fun k => by cases k <;> decide, by decide, by decide⟩, ?_, reset_meets_InvRing, ?_, ?_⟩
  · simp [InvPlay, State.reset]
  · simp [InvLink, State.reset, Config.vectors, Memory.wf]
  · simp [InvControl, State.reset]

theorem playing_meets_InvPlay : InvPlay playing := by
  refine ⟨fun _ _ => ⟨changeTwo, by decide, by decide, by decide, by decide, fun o d h => ?_⟩, by decide, by decide,
    by decide⟩
  exact absurd h (by simp [playing, loaded, State.reset])

theorem playing_meets_BlockInv : BlockInv playing := by
  refine ⟨⟨by decide, fun k => by cases k <;> decide, by decide, by decide⟩, playing_meets_InvPlay, reset_meets_InvRing, ?_, ?_⟩
  · simp [InvLink, playing, loaded, State.reset, Config.vectors, Memory.wf]
  · simp [InvControl, playing, loaded, State.reset]

theorem ringFull_meets_InvRing : InvRing ringFull := by
  refine ⟨by decide, by decide, by decide, by decide, by decide, ?_, ?_⟩
  · intro a b h
    simp [ringFull] at h
    simp [h, ringFull, tiny]
  · intro j h
    simp [ringFull] at h
    subst h
    decide

theorem ringFull_meets_BlockInv : BlockInv ringFull := by
  refine ⟨⟨by decide, fun k => by cases k <;> decide, by decide, by decide⟩, ?_, ringFull_meets_InvRing, ?_, ?_⟩
  · simp [InvPlay, ringFull, State.reset]
  · simp [InvLink, ringFull, State.reset, tiny, Config.vectors, Memory.wf]
  · simp [InvControl, ringFull, State.reset]

theorem ringAlmostFull_meets_InvRing : InvRing ringAlmostFull := by
  refine ⟨by decide, by decide, by decide, by decide, by decide, ?_, ?_⟩
  · intro a b h
    simp [ringAlmostFull, ringPing] at h
    simp only [ringAlmostFull]
    omega
  · have : ∀ j, j < 3 →
        (memRead ringAlmostFull.ringMem ((ringAlmostFull.ringRd + j) % ringAlmostFull.config.ringCap)).isSome := by decide
    exact this

theorem ringPing_meets_InvRing : InvRing ringPing := by
  refine ⟨by decide, by decide, by decide, by decide, by decide, ?_, ?_⟩
  · intro a b h
    simp [ringPing] at h
    simp only [ringPing, State.reset, Config.vectors]
    omega
  · have : ∀ j, j < 3 → (memRead ringPing.ringMem ((ringPing.ringRd + j) % ringPing.config.ringCap)).isSome := by decide
    exact this

theorem test_witness_EveryStepKeepsTheInvariant :
    BlockInv { playing with agenda := [.tick] } ∧ ∃ t, step { playing with agenda := [.tick] } = .next t :=
  ⟨playing_meets_BlockInv, _, rfl⟩

theorem test_witness_InvariantBoundsThePlaybackPosition :
    BlockInv playing ∧ playing.halted = false ∧ playing.isRunning = true ∧ playing.phase = .normal :=
  ⟨playing_meets_BlockInv, rfl, rfl, rfl⟩

theorem test_witness_InvariantTiesRingCountToCursors :
    (BlockInv State.reset ∧ State.reset.ringCount ≠ State.reset.config.ringCap) ∧
    BlockInv ringFull ∧ ringFull.ringCount = ringFull.config.ringCap :=
  ⟨⟨reset_meets_BlockInv, by decide⟩, ringFull_meets_BlockInv, rfl⟩

/-! ## Witnesses: the agents -/

/-- `ResetLeavesTheStatedValues` and `HaltedBlockNeverChanges`. -/
theorem test_witness_halted : ∃ s t, s.halted = true ∧ act .tick s = .next t :=
  ⟨{ playing with halted := true, faultCode := some .ringOverflow }, _, rfl, rfl⟩

/-- `OutputsOnlyGrow`, and the kept clause of `ActiveSlotChangesOnlyBySwap`, `SlotEntriesAreNeverChangedInPlace` and
`OneReplyPerFrame`. -/
theorem test_witness_tick : ∃ t, act .tick playing = .next t ∧ t.active = playing.active ∧ ∀ n, Action.tick ≠ .drain n :=
  ⟨_, rfl, rfl, fun _ => by simp⟩

/-- A swap by a tick at the end of the list, by a tick at `pllchangei = -1`, and by a launch: one that is a boundary, and
one that is none, over an empty active slot. -/
theorem test_witness_ActiveSlotChangesOnlyBySwap :
    (∃ t, act .tick pendingAtEnd = .next t ∧ t.active ≠ pendingAtEnd.active) ∧
    (∃ t, act .tick { pendingAtEnd with pllchangei := -1 } = .next t ∧ t.active ≠ pendingAtEnd.active) ∧
    (∃ t, act .dispatch { uploaded with pendingCmd := some .startNow } = .next t ∧ t.active ≠ uploaded.active) ∧
    ∃ t, act .dispatch (noLaunchBoundary { uploaded with pendingCmd := some .startNow }) = .next t ∧
      t.active ≠ uploaded.active :=
  ⟨⟨_, rfl, by decide⟩, ⟨_, rfl, by decide⟩, ⟨_, rfl, by decide⟩, _, rfl, by decide⟩

theorem test_witness_LockWaitHoldsEveryOtherAgent :
    locking.phase = .lockWait .fg changeTwo ∧ enabled .lock locking = true ∧ enabled (.hostSend []) locking = true ∧
    Action.lock ∉ [Action.tick, .rx, .hostSend [0x00]] := by decide

theorem test_witness_StepRunsTheDecodedCommand :
    (∃ s : State, s.halted = false ∧ s.phase = .normal ∧ s.agenda = .dispatch :: [] ∧ s.pendingCmd = some .stopNow) ∧
    ∃ s : State, s.agenda = .tick :: [] ∧ enabled .tick s = true :=
  ⟨⟨{ playing with agenda := [.dispatch], pendingCmd := some .stopNow }, rfl, rfl, rfl, rfl⟩,
    { playing with agenda := [.tick] }, rfl, rfl⟩

/-- With room for one byte, and with none. -/
theorem test_witness_ReceiveStoresTheByteOrOverflows :
    (InvRing ringAlmostFull ∧ ringUnread ringAlmostFull = some [0x01, 0x01, 0x00] ∧ ringAlmostFull.halted = false ∧
      ringAlmostFull.phase = .normal ∧ ringAlmostFull.line = [0x41] ∧
      ringAlmostFull.ringCount = ringAlmostFull.config.ringCap - 1 ∧
      ringAlmostFull.ringCount < ringAlmostFull.config.ringCap) ∧
    InvRing { ringFull with line := [0x42] } ∧ ringUnread { ringFull with line := [0x42] } = some [0x41] ∧
    ringFull.halted = false ∧ ringFull.phase = .normal ∧ ringFull.ringCount = ringFull.config.ringCap :=
  ⟨⟨ringAlmostFull_meets_InvRing, by decide⟩, ringFull_meets_InvRing, by decide⟩

theorem test_witness_UploadingChangesOnlyByItsCommands :
    (∃ t, act .dispatch { openUpload with pendingCmd := some .uploadDone } = .next t ∧ openUpload.uploading = true ∧
      t.uploading = false) ∧
    (∃ t, act .dispatch { playing with pendingCmd := some (.pushPllChange changeOne) } = .next t ∧
      playing.uploading = false ∧ t.uploading = true) ∧
    ∃ t, act .dispatch { playing with pendingCmd := some (.pushFracn 0 (List.replicate 32 0)) } = .next t ∧
      playing.uploading = false ∧ t.uploading = true :=
  ⟨⟨_, rfl, rfl, by decide⟩, ⟨_, rfl, rfl, by decide⟩, _, rfl, rfl, by decide⟩

theorem test_witness_LinkNeverTouchesTheSequencer :
    (∃ t, act .rx { playing with line := [0x41] } = .next t) ∧ (∃ t, act (.drain 3) ringPing = .next t) ∧
    ∃ t, act (.hostSend [0x01]) playing = .next t := ⟨⟨_, rfl⟩, ⟨_, rfl⟩, _, rfl⟩

theorem test_witness_OneReplyPerFrame : ∃ t, linkAcceptAll [0x01, 0x01, 0x00, 0x00] State.reset = .next t := ⟨_, rfl⟩

/-! ## Witnesses: the ring and the link -/

/-- `RingWriteStoresWhatFits`: some bytes fit, and at a full ring none; an index outside the stored ones. -/
theorem test_witness_RingWriteStoresWhatFits :
    InvRing State.reset ∧ ringAccepts State.reset [0x41] = 1 ∧ 255 ≠ (State.reset.ringWr + 0) % State.reset.config.ringCap ∧
    InvRing ringFull ∧ ringAccepts ringFull [0x41] = 0 :=
  ⟨reset_meets_InvRing, by decide, by decide, ringFull_meets_InvRing, by decide⟩

/-- `RingReadTakesUpToTheDelimiter` and `DrainFeedsTheLink`, the drain at its largest `n`. -/
theorem test_witness_RingReadTakesUpToTheDelimiter :
    InvRing ringPing ∧ ringUnread ringPing = some [0x01, 0x01, 0x00] ∧ ringPing.halted = false ∧
    ringPing.phase = .normal ∧ ringPing.pendingCmd = none ∧ 1 ≤ 3 ∧ 3 ≤ ringPing.ringCount :=
  ⟨ringPing_meets_InvRing, by decide, rfl, rfl, rfl, by decide, by decide⟩

theorem test_witness_RingDeliversBytesInOrder : InvRing State.reset ∧ State.reset.ringCount = 0 :=
  ⟨reset_meets_InvRing, rfl⟩

theorem test_witness_LinkAssemblesTheFrame :
    (0x41#8 ≠ 0x00#8) ∧ (assembled.msgOvf = false ∧ assembled.msgLen < assembled.config.msgCap) ∧
    (({ overflowed with msgOvf := false } : State).msgOvf = false ∧ overflowed.msgLen = overflowed.config.msgCap) ∧
    overflowed.msgOvf = true := by decide

theorem test_witness_FrameEndRepliesAndQueues :
    (memReadRange assembled.msgBuf 0 assembled.msgLen = some [0x01, 0x01] ∧ assembled.msgOvf = false ∧
      decodeFrame assembled.config.deser [0x01, 0x01] = .ok .ping) ∧
    (memReadRange State.reset.msgBuf 0 State.reset.msgLen = some [] ∧ State.reset.msgOvf = false ∧
      decodeFrame State.reset.config.deser [] = .reject .emptyEncoded) ∧
    memReadRange overflowed.msgBuf 0 overflowed.msgLen = some [0x01, 0x01] ∧ overflowed.msgOvf = true := by decide

/-- `FrameRoundTripThroughTheLink` and `DecodeUndoesEncode`, with a frame that fills the buffer of 67 bytes. -/
theorem test_witness_FrameRoundTripThroughTheLink :
    wellFormed (.pushFracn 32 (List.replicate 32 0xFFFF)) = true ∧
    (encode (.pushFracn 32 (List.replicate 32 0xFFFF))).length ≤ 67 ∧ State.reset.config.deser = .standard ∧
    State.reset.msgLen = 0 ∧ State.reset.msgOvf = false := by decide

theorem test_witness_SentFrameIsAckedThenExecuted :
    Quiescent State.reset ∧ InvRing State.reset ∧ wellFormed .startNow = true ∧
    State.reset.config.deser = .standard ∧ (encode .startNow).length ≤ State.reset.config.msgCap ∧
    (frame .startNow).length ≤ State.reset.config.ringCap :=
  ⟨reset_meets_Quiescent, reset_meets_InvRing, rfl, rfl, by decide, by decide⟩

/-! ## Witnesses: the encoding -/

theorem test_witness_StuffedPartIsZeroFree : (List.replicate 253 0x01#8).length ≤ 253 := by decide

theorem test_witness_AcceptedPayloadsAreCanonical : deser [0x08, 0xAA] = .ok (.epochNow [0xAA]) := by decide

theorem test_witness_IllegalFramesAreRejected :
    ([0x03#8, 0x01#8] ≠ [] ∧ cobsDecode [0x03, 0x01] = none) ∧ 0x0A ≤ (0x0A#8).toNat ∧
    (fixedLength (0x02#8).toNat = some 66 ∧ [0x02#8].length ≠ 66) ∧
    ((List.replicate 16 0x02#8).length = 16 ∧ (List.replicate 16 0x02#8)[10]? = some 0x02#8 ∧ 1 < (0x02#8).toNat) ∧
    (List.replicate 64 0x00#8).length = 64 ∧ 32 < (33#8).toNat := by decide

theorem test_witness_CorruptFrameNeverDecodesTheSame :
    wellFormed .startNow = true ∧ ∃ h : 1 < (encode .startNow).length, 0x06#8 ≠ 0x00#8 ∧ 0x06#8 ≠ (encode .startNow)[1] := by
  decide

/-! ## Witnesses: the commands -/

/-- `PushFracnAppendsItsValuesOrHalts`: the back slot filled exactly, and one value too many. -/
theorem test_witness_PushFracnAppendsItsValuesOrHalts :
    wellFormed (.pushFracn 2 (List.replicate 32 5)) = true ∧
    ({ State.reset with config := tiny } : State).slotB.fracn.length + min (2#8).toNat (List.replicate 32 (5#16)).length ≤
      tiny.fracnCap ∧
    tiny.fracnCap < ({ State.reset with config := tiny } : State).slotB.fracn.length +
      min (3#8).toNat (List.replicate 32 (5#16)).length := by decide

theorem test_witness_UnusedValueSlotsHaveNoEffect :
    ([7, 8] : List U16).take (1#8).toNat = ([7, 9] : List U16).take (1#8).toNat := by decide

/-- `PushPllChangeAppendsTheRebasedRecordOrHalts`: the largest index that fits, a full list, and an index that does not
fit. -/
theorem test_witness_PushPllChangeAppendsTheRebasedRecordOrHalts :
    (State.reset.slotB.pll.length ≠ State.reset.config.pllCap ∧
      (0xFFFFFFFF#32).toNat + State.reset.slotB.fracn.length < 2 ^ 32) ∧
    ({ uploaded with config := tiny } : State).slotB.pll.length = tiny.pllCap ∧
    uploaded.slotB.pll.length ≠ uploaded.config.pllCap ∧ 2 ^ 32 ≤ (0xFFFFFFFE#32).toNat + uploaded.slotB.fracn.length := by
  decide

/-- `ClearBuffersEmptiesTheBackSlot` and `StopNowDrainsTheTimer`. -/
theorem test_witness_idle_and_running : uploaded.isRunning = false ∧ playing.isRunning = true := by decide

theorem test_witness_StartNowPlaysThePendingUpload :
    uploaded.config.launchIsBoundary = true ∧ uploaded.uploading = false ∧ uploaded.slotB.pll = [changeTwo] ∧
    1 ≤ changeTwo.forTicks.toNat ∧ changeTwo.startTick.toNat + changeTwo.forTicks.toNat ≤ uploaded.slotB.fracn.length ∧
    changeTwo.timUs ≠ 0#32 ∧ uploaded.slotB.fracn[changeTwo.startTick.toNat]? = some 10 := by decide

/-- The other disjunct: launches are no boundaries, and the active slot is empty. -/
theorem test_witness_StartNowPlaysThePendingUpload_from_an_empty_slot :
    ({ uploaded with config := { Config.vectors with launchIsBoundary := false } } : State).slotA.pll = [] := by decide

theorem test_witness_StartNowReplaysTheActiveSlot :
    (playing.config.launchIsBoundary = true → NoSwapAhead playing) ∧ playing.slotA.pll = [changeTwo] ∧
    1 ≤ changeTwo.forTicks.toNat ∧ changeTwo.startTick.toNat + changeTwo.forTicks.toNat ≤ playing.slotA.fracn.length ∧
    changeTwo.timUs ≠ 0#32 ∧ playing.slotA.fracn[changeTwo.startTick.toNat]? = some 10 :=
  ⟨fun _ => .inr ⟨rfl, rfl⟩, by decide⟩

/-- Each clause, with a launch that is a boundary and one that is none where the clause allows both. The selected change
fails in one of the three ways of `test_witness_FailsWith`. -/
theorem test_witness_StartNowThatCannotPlayHalts :
    ((strict openUpload).config.launchIsBoundary = true ∧ (strict openUpload).uploading = true ∧
      (strict openUpload).config.overrun = .fault) ∧
    (State.reset.slotA.pll = [] ∧ NoSwapAhead State.reset) ∧
    (({ loaded with slot0 := progOf changeNoTicks } : State).config.launchIsBoundary = true ∧
      NoSwapAhead { loaded with slot0 := progOf changeNoTicks } ∧
      ({ loaded with slot0 := progOf changeNoTicks } : State).slotA.pll = [changeNoTicks]) ∧
    ((noLaunchBoundary { uploaded with slot0 := progOf changePastEnd }).config.launchIsBoundary ≠ true ∧
      (noLaunchBoundary { uploaded with slot0 := progOf changePastEnd }).slotA.pll = [changePastEnd]) ∧
    (uploaded.config.launchIsBoundary = true ∧ uploaded.slotA.pll = [] ∧ uploaded.uploading = false ∧
      ({ uploaded with slot1 := progOf changeNoPeriod } : State).slotB.pll = [changeNoPeriod]) :=
  ⟨by decide, ⟨rfl, .inr ⟨rfl, rfl⟩⟩, ⟨rfl, .inr ⟨rfl, rfl⟩, rfl⟩, by decide, by decide⟩

/-- The three ways a change cannot be played, each at its edge, and none for the change that just fits. -/
theorem test_witness_FailsWith :
    FailsWith changeNoTicks (progOf changeNoTicks) .invalidChange ∧
    FailsWith changePastEnd (progOf changePastEnd) .invalidChange ∧
    FailsWith changeNoPeriod (progOf changeNoPeriod) .zeroPeriod ∧
    ∀ code, ¬ FailsWith changeTwo (progOf changeTwo) code := by
  unfold FailsWith
  refine ⟨by decide, by decide, by decide, fun code h => ?_⟩
  rcases h with ⟨h, -⟩ | ⟨-, -, h, -⟩
  · exact absurd h (by decide)
  · exact absurd h (by decide)

/-- `CommandsLeaveTheLinkAndThePositionAlone` and `RepeatableCommandsAreIdempotent`. -/
theorem test_witness_commands_complete :
    (∃ t, exec .startNow uploaded = .next t) ∧ (∃ t, exec .stopNow playing = .next t) ∧
    ∃ t, exec .clearBuffers uploaded = .next t ∧ uploaded.isRunning = false := ⟨⟨_, rfl⟩, ⟨_, rfl⟩, _, rfl, rfl⟩

/-! ## Witnesses: playback -/

theorem test_witness_LockArmsTheTimer : locking.halted = false ∧ locking.phase = .lockWait .fg changeTwo := by decide

theorem test_witness_StaleTickChangesOnlyTheTimer :
    (loaded.halted = false ∧ loaded.phase = .normal ∧ loaded.isRunning = false) ∧
    ({ loaded with tmrMode := .draining } : State).tmrMode = .draining ∧
    ({ loaded with tmrMode := .periodic } : State).tmrMode = .periodic := by decide

/-- `TickAppliesTheNextValue` at the run's last value, and `TicksApplyTheRunInOrder` with `k = 1`. -/
theorem test_witness_TickAppliesTheNextValue :
    playing.halted = false ∧ playing.phase = .normal ∧ playing.tmrMode = .periodic ∧ playing.isRunning = true ∧
    playing.fracnRem ≠ 0#32 ∧ playing.fracnI.toNat + 1 < 2 ^ 32 ∧ playing.slotA.fracn[playing.fracnI.toNat + 1]? = some 11 ∧
    playing.slotA.fracn.length ≤ 2 ^ 32 ∧ playing.fracnI.toNat + playing.fracnRem.toNat < playing.slotA.fracn.length ∧
    1 ≤ playing.fracnRem.toNat := by decide

theorem test_witness_TickStepsToTheNextChange :
    midway.halted = false ∧ midway.phase = .normal ∧ midway.tmrMode = .periodic ∧ midway.isRunning = true ∧
    midway.fracnRem = 0#32 ∧ 0 ≤ midway.pllchangei ∧
    midway.slotA.pll[(midway.pllchangei + 1).toNat]? = some { changeOne with startTick := 2 } ∧
    1 ≤ changeOne.forTicks.toNat ∧ (2#32).toNat + changeOne.forTicks.toNat ≤ midway.slotA.fracn.length ∧
    changeOne.timUs ≠ 0#32 ∧ midway.slotA.fracn[(2#32).toNat]? = some 12 := by decide

/-- `TickThatCannotPlayHalts`, each clause at its edge; the state is that of `TickStepsToTheNextChange`. -/
theorem test_witness_TickThatCannotPlayHalts :
    ({ changeOne with forTicks := 0 } : PllChange).forTicks.toNat = 0 ∧
    midway.slotA.fracn.length < (2#32).toNat + changeTwo.forTicks.toNat ∧
    (1 ≤ changeOne.forTicks.toNat ∧ (2#32).toNat + changeOne.forTicks.toNat ≤ midway.slotA.fracn.length ∧
      ({ changeOne with timUs := 0 } : PllChange).timUs = 0#32) := by decide

/-- Both ways no swap lies ahead: an upload open under `Defer`, and no pending upload, the plain wrap. -/
theorem test_witness_BoundaryWithoutSwapReplaysTheProgram :
    (openUpload.halted = false ∧ openUpload.phase = .normal ∧ openUpload.tmrMode = .periodic ∧
      openUpload.isRunning = true ∧ openUpload.fracnRem = 0#32 ∧
      (openUpload.slotA.pll.length : Int) ≤ openUpload.pllchangei + 1 ∧ NoSwapAhead openUpload ∧
      openUpload.slotA.pll = [changeTwo] ∧ 1 ≤ changeTwo.forTicks.toNat ∧
      changeTwo.startTick.toNat + changeTwo.forTicks.toNat ≤ openUpload.slotA.fracn.length ∧ changeTwo.timUs ≠ 0#32 ∧
      openUpload.slotA.fracn[changeTwo.startTick.toNat]? = some 10) ∧
    atEnd.halted = false ∧ atEnd.phase = .normal ∧ atEnd.tmrMode = .periodic ∧ atEnd.isRunning = true ∧
    atEnd.fracnRem = 0#32 ∧ (atEnd.slotA.pll.length : Int) ≤ atEnd.pllchangei + 1 ∧ NoSwapAhead atEnd ∧
    atEnd.slotA.pll = [changeTwo] ∧ atEnd.slotA.fracn[changeTwo.startTick.toNat]? = some 10 :=
  ⟨⟨rfl, rfl, rfl, rfl, rfl, by decide, .inl ⟨rfl, rfl⟩, by decide⟩, rfl, rfl, rfl, rfl, rfl, by decide, .inr ⟨rfl, rfl⟩,
    by decide⟩

theorem test_witness_PendingUploadSwapsAtTheBoundary :
    pendingAtEnd.halted = false ∧ pendingAtEnd.phase = .normal ∧ pendingAtEnd.tmrMode = .periodic ∧
    pendingAtEnd.isRunning = true ∧ pendingAtEnd.fracnRem = 0#32 ∧
    (pendingAtEnd.slotA.pll.length : Int) ≤ pendingAtEnd.pllchangei + 1 ∧ pendingAtEnd.uploading = false ∧
    pendingAtEnd.slotB.pll = [changeTwo] ∧ 1 ≤ changeTwo.forTicks.toNat ∧
    changeTwo.startTick.toNat + changeTwo.forTicks.toNat ≤ pendingAtEnd.slotB.fracn.length ∧ changeTwo.timUs ≠ 0#32 ∧
    pendingAtEnd.slotB.fracn[changeTwo.startTick.toNat]? = some 10 := by decide

/-- `TickAtBoundaryThatCannotPlayHalts`: over an empty active slot, after a wrap, and after a swap. The selected change
fails in one of the three ways of `test_witness_FailsWith`. -/
theorem test_witness_TickAtBoundaryThatCannotPlayHalts :
    (atEndOfNothing.halted = false ∧ atEndOfNothing.phase = .normal ∧ atEndOfNothing.tmrMode = .periodic ∧
      atEndOfNothing.isRunning = true ∧ atEndOfNothing.fracnRem = 0#32 ∧
      (atEndOfNothing.slotA.pll.length : Int) ≤ atEndOfNothing.pllchangei + 1 ∧ atEndOfNothing.slotA.pll = [] ∧
      NoSwapAhead atEndOfNothing) ∧
    (({ atEnd with slot0 := progOf changeNoPeriod } : State).slotA.pll = [changeNoPeriod] ∧
      (({ atEnd with slot0 := progOf changeNoPeriod } : State).slotA.pll.length : Int) ≤ atEnd.pllchangei + 1 ∧
      NoSwapAhead { atEnd with slot0 := progOf changeNoPeriod }) ∧
    ({ pendingAtEnd with slot1 := progOf changePastEnd } : State).slotB.pll = [changePastEnd] ∧
    (pendingAtEnd.slotA.pll.length : Int) ≤ pendingAtEnd.pllchangei + 1 ∧ pendingAtEnd.uploading = false :=
  ⟨⟨rfl, rfl, rfl, rfl, rfl, by decide, rfl, .inr ⟨rfl, rfl⟩⟩, ⟨rfl, by decide, .inr ⟨rfl, rfl⟩⟩, by decide⟩

/-- 60_exceptions.md R263: an invalid pending upload halts at the boundary, after the swap and without a `SYN` event. -/
theorem test_tick_swaps_then_halts :
    (after (act .tick { pendingAtEnd with slot1 := progOf changePastEnd })).map
      (fun t => (t.faultCode, t.active, t.pllchangei, t.slot0, t.trace)) =
      some (some .invalidChange, .one, 0, Slot.empty, []) := by decide

theorem test_witness_OpenUploadFaultsUnderPolicyFault :
    (strict openUpload).halted = false ∧ (strict openUpload).phase = .normal ∧ (strict openUpload).tmrMode = .periodic ∧
    (strict openUpload).isRunning = true ∧ (strict openUpload).fracnRem = 0#32 ∧
    ((strict openUpload).slotA.pll.length : Int) ≤ (strict openUpload).pllchangei + 1 ∧
    (strict openUpload).uploading = true ∧ (strict openUpload).config.overrun = .fault := by decide

theorem test_witness_AtMostOneExpiryAfterStop :
    playing.halted = false ∧ playing.phase = .normal ∧ playing.isRunning = true ∧ ∃ t, exec .stopNow playing = .next t :=
  ⟨rfl, rfl, rfl, _, rfl⟩

theorem test_witness_LoopPlaysEveryRunInOrder :
    Playing playing ∧ NoSwapAhead playing ∧ playing.slotA.pll = [changeTwo] ∧ playing.pllchangei = 0 ∧
    playing.fracnI = changeTwo.startTick ∧ playing.fracnRem.toNat = changeTwo.forTicks.toNat - 1 :=
  ⟨⟨rfl, rfl, rfl, rfl, by decide, by decide⟩, .inr ⟨rfl, rfl⟩, by decide⟩

/-- A run that ends, and one that is left in a lock wait. -/
theorem test_witness_RunEndsUnlessItWaitsForLock :
    (∃ t, run [.host .ping] State.reset = .next t ∧ t.phase = .normal) ∧
    ∃ t, run [.host .startNow] uploaded = .next t ∧ t.phase = .lockWait .fg changeTwo :=
  ⟨⟨_, rfl, by decide⟩, _, rfl, by decide⟩

end Sys2Proof.Tests
end

/-! ## The default deserializer answers well-formed commands (R95, R101, R162) -/

namespace Sys2Proof

theorem deserBare_wellFormed {cmd i : Instr} {fields : List Byte} (hc : wellFormed cmd = true)
    (h : deserBare cmd fields = .ok i) : wellFormed i = true := by
  unfold deserBare at h
  split at h
  · cases h; exact hc
  · cases h

theorem deserPllChange_wellFormed {fields : List Byte} {i : Instr} (h : deserPllChange fields = .ok i) :
    wellFormed i = true := by
  unfold deserPllChange at h
  split at h
  · split at h
    · cases h
    · cases h; rfl
  · cases h

/-- The two checks of the chunk are the two conditions of a well-formed one (R95, R101 (f) and (h)). -/
theorem deserFracn_wellFormed {fields : List Byte} {i : Instr} (h : deserFracn fields = .ok i) :
    wellFormed i = true := by
  unfold deserFracn at h
  split at h
  · cases h
  · next count slots =>
    split at h
    · cases h
    · next hlen =>
      split at h
      · cases h
      · next hcount =>
        cases h
        obtain ⟨-, hslots⟩ := flatMap_bytes16_le16s chunk slots (Decidable.not_not.1 hlen)
        simp [wellFormed, countInRange, allSlotsPresent, hslots, Nat.le_of_not_lt hcount]

/-- Tag by tag, in the order of R100. -/
theorem deser_wellFormed {p : List Byte} {i : Instr} (h : deser p = .ok i) : wellFormed i = true := by
  unfold deser at h
  split at h
  · cases h
  · split at h
    · exact deserBare_wellFormed rfl h
    split at h
    · exact deserPllChange_wellFormed h
    split at h
    · exact deserFracn_wellFormed h
    split at h
    · exact deserBare_wellFormed rfl h
    split at h
    · exact deserBare_wellFormed rfl h
    split at h
    · exact deserBare_wellFormed rfl h
    split at h
    · exact deserBare_wellFormed rfl h
    split at h
    · cases h; rfl
    split at h
    · cases h; rfl
    split at h
    · cases h; rfl
    · cases h

theorem decodeFrame_standard_wellFormed {e : List Byte} {i : Instr} (h : decodeFrame .standard e = .ok i) :
    wellFormed i = true := by
  unfold decodeFrame at h
  split at h
  · cases h
  · split at h
    · cases h
    · exact deser_wellFormed h

end Sys2Proof

/-! ## What the agents and the commands can do, each said once -/

namespace Sys2Proof.Machine

theorem phase_normal_of_ready {s : State} (h : ready s = true) : s.phase = .normal := by
  simp only [ready, interruptsEnabled, Bool.and_eq_true, beq_iff_eq] at h
  exact h.2

/-- A dispatch changes nothing, or runs the command it takes from `pending_cmd` (R230). -/
theorem dispatch_cases {s t : State} (h : dispatch s = .next t) :
    t = s ∨ ∃ i, s.pendingCmd = some i ∧ exec i { s with pendingCmd := none } = .next t := by
  unfold dispatch at h
  split at h
  · cases h; exact .inl rfl
  · next i hi => exact .inr ⟨i, hi, h⟩

/-- A lock changes nothing, or ends the lock wait (R197). -/
theorem lockStep_cases (s : State) :
    lockStep s = s ∨ ∃ o c, s.phase = .lockWait o c ∧ lockStep s = lockDone c s := by
  unfold lockStep
  split
  · exact .inl rfl
  · next o c hph => exact .inr ⟨o, c, hph, rfl⟩

/-- A slot within the capacities (I1). -/
def Slot.Fits (c : Config) (v : Slot) : Prop := v.fracn.length ≤ c.fracnCap ∧ v.pll.length ≤ c.pllCap

theorem Slot.empty_fits (c : Config) : Slot.empty.Fits c := ⟨Nat.zero_le _, Nat.zero_le _⟩

/-- One of the two pushes (R232, R233). -/
def IsPush (i : Instr) : Prop := (∃ c, i = .pushPllChange c) ∨ ∃ n vs, i = .pushFracn n vs

/-- Everything a command can do to the state (R231 to R240). -/
inductive CommandEffect (i : Instr) (s : State) : State → Prop
  | unchanged : CommandEffect i s s
  | faulted (code : FaultCode) : CommandEffect i s (raiseFault code s)
  | pushed (v : Slot) (cmd : IsPush i) (fits : s.slotB.Fits s.config → v.Fits s.config)
      (fracn : s.slotB.fracn <+: v.fracn) (pll : s.slotB.pll <+: v.pll) :
      CommandEffect i s ((setUploading true s).setB v)
  | cleared : CommandEffect i s (s.setB .empty)
  | closed (cmd : i = .uploadDone) : CommandEffect i s (setUploading false s)
  | stopped : CommandEffect i s (stop s)
  | launched {t : State} (cmd : i = .startNow) (launch : stepSeq .fg (restart s) = .next t) : CommandEffect i s t

/-- A `PushPllChange` faults, or appends one record to a list below its capacity (R184). -/
theorem pushPllChange_effect (c : PllChange) (s : State) :
    CommandEffect (.pushPllChange c) s (pushPllChange c s) := by
  unfold pushPllChange
  split
  · exact .faulted _
  · next hne =>
    split
    · exact .faulted _
    · refine .pushed _ (.inl ⟨c, rfl⟩) (fun ⟨hfracn, hpll⟩ => ⟨hfracn, ?_⟩) List.prefix_rfl (List.prefix_append _ _)
      simp only [List.length_append, List.length_singleton]
      omega

/-- A `PushFracn` faults, or appends values that fit (R182). -/
theorem pushFracn_effect (n : Byte) (vs : List U16) (s : State) :
    CommandEffect (.pushFracn n vs) s (pushFracn (usedValues n vs) s) := by
  unfold pushFracn
  split
  · exact .faulted _
  · next hfit =>
    exact .pushed _ (.inr ⟨n, vs, rfl⟩) (fun ⟨_, hpll⟩ => ⟨by simpa using hfit, hpll⟩) (List.prefix_append _ _)
      List.prefix_rfl

theorem exec_effect {i : Instr} {s t : State} (h : exec i s = .next t) : CommandEffect i s t := by
  rcases exec_cases h with
    rfl | ⟨c, rfl, rfl⟩ | ⟨n, vs, rfl, rfl⟩ | ⟨rfl, rfl⟩ | ⟨rfl, rfl⟩ | ⟨rfl, rfl⟩ | ⟨rfl, hstep⟩
  · exact .unchanged
  · exact pushPllChange_effect c s
  · exact pushFracn_effect n vs s
  · unfold clearBuffers
    split
    · exact .faulted _
    · exact .cleared
  · exact .closed rfl
  · exact .stopped
  · exact .launched rfl hstep

end Sys2Proof.Machine

/-! ## The parts of the invariant, and what each of them speaks of -/

namespace Sys2Proof.Machine

/-- (I1) through the active and the back slot. -/
theorem invCaps_iff (s : State) : InvCaps s ↔ s.config.Valid ∧ (s.slotA.Fits s.config ∧ s.slotB.Fits s.config) ∧
    -1 ≤ s.pllchangei ∧ s.pllchangei < s.config.pllCap := by
  rw [← forall_slot_iff s (Slot.Fits s.config)]
  rfl

/-- The capacities hold after any update that leaves the parameters alone and keeps the back slot within them. -/
theorem InvCaps.of_slotB {s t : State} (h : InvCaps s) (hg : t.config = s.config) (hA : t.slotA = s.slotA)
    (hB : t.slotB.Fits s.config) (hp : t.pllchangei = s.pllchangei) : InvCaps t := by
  obtain ⟨hv, ⟨hfA, -⟩, hi⟩ := (invCaps_iff s).1 h
  rw [invCaps_iff, hg, hA, hp]
  exact ⟨hv, ⟨hfA, hB⟩, hi⟩

/-- The capacities hold after any update of `pllchangei` within its range. -/
theorem InvCaps.of_pllchangei {s t : State} (h : InvCaps s) (hg : t.config = s.config) (hA : t.slotA = s.slotA)
    (hB : t.slotB = s.slotB) (hlo : -1 ≤ t.pllchangei) (hhi : t.pllchangei < s.config.pllCap) : InvCaps t := by
  obtain ⟨hv, hf, -⟩ := (invCaps_iff s).1 h
  rw [invCaps_iff, hg, hA, hB]
  exact ⟨hv, hf, hlo, hhi⟩

theorem InvCaps.congr {s t : State} (h : InvCaps s) (hg : t.config = s.config) (hA : t.slotA = s.slotA)
    (hB : t.slotB = s.slotB) (hp : t.pllchangei = s.pllchangei) : InvCaps t := by
  obtain ⟨-, ⟨-, hfB⟩, -⟩ := (invCaps_iff s).1 h
  exact h.of_slotB hg hA (hB ▸ hfB) hp

theorem changeAt_congr {s t : State} (h : t.slotA = s.slotA) (i : Int) : t.changeAt i = s.changeAt i := by
  simp [State.changeAt, h]

/-- The playback invariant speaks of the active slot, the position, the timer's mode and the run's flags only. -/
theorem InvPlay.congr {s t : State} (h : InvPlay s) (hh : t.halted = s.halted) (hr : t.isRunning = s.isRunning)
    (hA : t.slotA = s.slotA) (hp : t.pllchangei = s.pllchangei) (hI : t.fracnI = s.fracnI)
    (hR : t.fracnRem = s.fracnRem) (hph : t.phase = s.phase) (hm : t.tmrMode = s.tmrMode) : InvPlay t := by
  unfold InvPlay at *
  simpa only [hh, hr, hA, hp, hI, hR, hph, hm, changeAt_congr hA] using h

/-- The part of the invariant that says nothing of the slots and of playback: the ring, the frame being assembled and the
block's control. -/
def InvLinkSide (s : State) : Prop := InvRing s ∧ InvLink s ∧ InvControl s

/-- `t` with every element of which `InvLinkSide` does not speak put back to what it is in `s`. -/
def withPlaybackOf (s t : State) : State :=
  { t with slot0 := s.slot0, slot1 := s.slot1, active := s.active, pllchangei := s.pllchangei, fracnI := s.fracnI,
           fracnRem := s.fracnRem, isRunning := s.isRunning, uploading := s.uploading, tmrMode := s.tmrMode,
           tmrReload := s.tmrReload, phase := s.phase, trace := s.trace, line := s.line, agenda := s.agenda,
           draws := s.draws }

theorem InvLinkSide.of_frame {s t : State} (h : InvLinkSide s) (hf : withPlaybackOf s t = s) : InvLinkSide t := by
  rw [← hf] at h
  exact h

theorem withPlaybackOf_takeChoice (s : State) : withPlaybackOf s (takeChoice s) = s := by
  unfold takeChoice
  split <;> rfl

theorem withPlaybackOf_setB (s : State) (v : Slot) : withPlaybackOf s (s.setB v) = s :=
  (congrArg (withPlaybackOf s) (setB_frame s v) :)

theorem withPlaybackOf_advance (s : State) : withPlaybackOf s (advance s) = s :=
  (congrArg (withPlaybackOf s) (advance_frame s) :)

theorem withPlaybackOf_stop (s : State) : withPlaybackOf s (stop s) = s := by
  unfold stop
  split <;> rfl

theorem withPlaybackOf_restart (s : State) : withPlaybackOf s (restart s) = s :=
  (congrArg (withPlaybackOf s) (withPlaybackOf_stop s) :)

/-- A halted block claims nothing of the position: the playback invariant is what `tmr_mode` and `phase` say. -/
theorem invPlay_of_halted {s : State} (hh : s.halted = true) (hph : s.phase ≠ .normal → s.isRunning = true)
    (hm : s.tmrMode = .periodic → s.isRunning = true) : InvPlay s :=
  ⟨by simp [hh], hph, hm, by simp [hh]⟩

/-- A fault keeps the invariant: it sets `halted` and its code together (R37, R262). -/
theorem BlockInv.raise {s : State} (h : BlockInv s) (code : FaultCode) : BlockInv (raiseFault code s) := by
  obtain ⟨hcaps, ⟨-, hph, hm, -⟩, hring, hlink, -, hcmd⟩ := h
  exact ⟨hcaps, invPlay_of_halted rfl hph hm, hring, hlink, rfl, hcmd⟩

/-! ## `step` keeps the invariant -/

/-- What holds while `step` runs: the block's invariant but for the position, which `step` is choosing, in a running
block. `launch` and the tick both begin `step` in such a state. -/
def StepInv (s : State) : Prop := InvCaps s ∧ InvLinkSide s ∧ s.isRunning = true

theorem StepInv.raise {s : State} (h : StepInv s) (code : FaultCode) : BlockInv (raiseFault code s) := by
  obtain ⟨hcaps, ⟨hring, hlink, -, hcmd⟩, hrun⟩ := h
  exact ⟨hcaps, invPlay_of_halted rfl (fun _ => hrun) (fun _ => hrun), hring, hlink, rfl, hcmd⟩

/-- The choice of the next change stays within the capacities: away from a boundary the next index is one of the
list, and a swap exchanges the slots and empties one (R191, R192). -/
theorem InvCaps.advance {s : State} (h : InvCaps s) : InvCaps (advance s) := by
  obtain ⟨hv, ⟨hA, hB⟩, hlo, hhi⟩ := (invCaps_iff s).1 h
  have ⟨_, _, hpos, _⟩ := hv
  cases hb : atBoundary s with
  | false =>
    have hlen : ¬ (s.slotA.pll.length : Int) ≤ s.pllchangei + 1 := fun hl => by
      simp [atBoundary_iff.2 (.inr hl)] at hb
    have hcap : s.slotA.pll.length ≤ s.config.pllCap := hA.2
    rw [advance_of_not_boundary hb]
    exact h.of_pllchangei rfl rfl rfl (by simp only; omega) (by simp only; omega)
  | true =>
    cases hp : pendingUpload s with
    | false =>
      rw [advance_of_no_swap hb hp]
      exact h.of_pllchangei rfl rfl rfl (by simp) (by simp only; omega)
    | true =>
      have hswap : InvCaps (swap s) := by
        rw [invCaps_iff, swap_config, swap_slotA, swap_slotB, swap_pllchangei]
        exact ⟨hv, ⟨hB, Slot.empty_fits _⟩, hlo, hhi⟩
      rw [advance_of_swap hb hp]
      exact hswap.of_pllchangei rfl rfl rfl (by simp) (by simp only [swap_config]; omega)

theorem StepInv.advance {s : State} (h : StepInv s) : StepInv (advance s) := by
  obtain ⟨hcaps, hside, hrun⟩ := h
  exact ⟨hcaps.advance, hside.of_frame (withPlaybackOf_advance s), (advance_isRunning s).trans hrun⟩

/-- Programming the current change puts the position at the start of its run (R195). -/
theorem InvPlay.programChange {s : State} {c : PllChange} (hc : s.changeAt s.pllchangei = some c)
    (hv : changeValid c s.slotA = true) (hrun : s.isRunning = true) (o : Origin) (v : U16) :
    InvPlay (programChange o c v s) := by
  obtain ⟨h1, h2⟩ := changeValid_iff.1 hv
  have hrem : (BitVec.ofNat 32 (c.forTicks.toNat - 1)).toNat = c.forTicks.toNat - 1 := by
    have := c.forTicks.isLt
    rw [BitVec.toNat_ofNat]
    omega
  refine ⟨fun _ _ => ⟨c, hc, Nat.le_refl _, ?_, h2, fun o' d hd => ?_⟩, fun _ => hrun, fun _ => hrun, ?_⟩
  · simp only [programChange_fracnI, programChange_fracnRem, hrem]
    omega
  · cases hd
    exact ⟨rfl, rfl⟩
  · simp

theorem StepInv.playCurrent {o : Origin} {s t : State} (h : StepInv s) (ht : playCurrent o s = .next t) :
    BlockInv t := by
  rcases playCurrent_cases ht with ⟨-, rfl⟩ | ⟨c, -, -, rfl⟩ | ⟨c, -, -, -, rfl⟩ | ⟨c, v, hc, hv, -, -, rfl⟩
  · exact h.raise _
  · exact h.raise _
  · exact h.raise _
  · obtain ⟨hcaps, hside, hrun⟩ := h
    exact ⟨hcaps, .programChange hc hv hrun o v, hside⟩

/-- `step` establishes the invariant of the block, whoever called it (R190). -/
theorem StepInv.stepSeq {o : Origin} {s t : State} (h : StepInv s) (ht : stepSeq o s = .next t) : BlockInv t := by
  rcases stepSeq_cases ht with ⟨-, -, rfl⟩ | ⟨-, hplay⟩
  · exact h.raise _
  · exact h.advance.playCurrent hplay

/-! ## The agents keep the invariant -/

theorem BlockInv.takeChoice {s : State} (h : BlockInv s) : BlockInv (takeChoice s) := by
  obtain ⟨hcaps, hplay, hside⟩ := h
  exact ⟨hcaps.congr (by simp) (by simp) (by simp) (by simp),
    hplay.congr (by simp) (by simp) (by simp) (by simp) (by simp) (by simp) (by simp) (by simp),
    InvLinkSide.of_frame hside (withPlaybackOf_takeChoice s)⟩

/-- `RX` is a write to the ring, or the fault of a full one (R136, R137). -/
theorem BlockInv.receiveNext {s : State} (h : BlockInv s) : BlockInv (receiveNext s) := by
  unfold Machine.receiveNext
  split
  · exact h
  · next b rest _ =>
    have hline : BlockInv { s with line := rest } := h
    unfold receiveByte
    split
    · exact hline.raise _
    · obtain ⟨hcaps, hplay, hring, hlink, hctl⟩ := hline
      exact ⟨hcaps, hplay, hring.write [b], hlink, hctl⟩

/-- A stored byte is no terminator and stands behind the bytes of the frame (R152). -/
theorem InvLink.store {s : State} (h : InvLink s) {b : Byte} (hb : b ≠ 0x00#8) (ho : s.msgOvf = false)
    (hl : s.msgLen < s.config.msgCap) :
    InvLink { s with msgBuf := memWrite s.msgBuf s.msgLen b, msgLen := s.msgLen + 1 } := by
  obtain ⟨-, -, hwf, hbound, hbytes⟩ := h
  refine ⟨hl, by simp [ho], memWrite_wf hwf _ _, fun a c hm => ?_, fun j hj => ?_⟩
  · rcases mem_memWrite hm with he | hm
    · cases he; exact hl
    · exact hbound a c hm
  · rcases Nat.lt_succ_iff_lt_or_eq.1 hj with hj | rfl
    · obtain ⟨c, hc, hc0⟩ := hbytes j hj
      exact ⟨c, by rw [← hc]; exact memRead_memWrite_ne _ _ (by omega), hc0⟩
    · exact ⟨b, memRead_memWrite_same _ _ _, hb⟩

theorem BlockInv.acceptByte {s : State} (h : BlockInv s) {b : Byte} (hb : b ≠ 0x00#8) : BlockInv (acceptByte b s) := by
  obtain ⟨hcaps, hplay, hring, hlink, hctl⟩ := h
  rcases acceptByte_cases b s with ⟨-, he⟩ | ⟨ho, hl, he⟩ | ⟨-, hfull, he⟩ <;> rw [he]
  · exact ⟨hcaps, hplay, hring, hlink, hctl⟩
  · exact ⟨hcaps, hplay, hring, hlink.store hb ho hl, hctl⟩
  · obtain ⟨hle, -, hmem⟩ := hlink
    exact ⟨hcaps, hplay, hring, ⟨hle, fun _ => Nat.le_antisymm hle hfull, hmem⟩, hctl⟩

/-- An empty frame claims nothing of the bytes in the buffer. -/
theorem BlockInv.resetAssembly {s : State} (h : BlockInv s) : BlockInv (resetAssembly s) := by
  obtain ⟨hcaps, hplay, hring, ⟨-, -, hwf, hbound, -⟩, hctl⟩ := h
  exact ⟨hcaps, hplay, hring, ⟨Nat.zero_le _, by simp, hwf, hbound, by simp⟩, hctl⟩

theorem BlockInv.reply {s : State} (h : BlockInv s) (b : Byte) : BlockInv (reply b s) := h

/-- The command of a decoded frame is well-formed under the default `DESER` (R162). -/
theorem BlockInv.queue {s : State} (h : BlockInv s) {e : List Byte} {i : Instr}
    (hi : decodeFrame s.config.deser e = .ok i) : BlockInv { s with pendingCmd := some i } := by
  obtain ⟨hcaps, hplay, hring, hlink, hhalt, -⟩ := h
  refine ⟨hcaps, hplay, hring, hlink, hhalt, fun hstd j hj => ?_⟩
  cases hj
  rw [show s.config.deser = .standard from hstd] at hi
  exact decodeFrame_standard_wellFormed hi

theorem BlockInv.frameEnd {s t : State} (h : BlockInv s) (ht : frameEnd s = .next t) : BlockInv t := by
  rcases frameEnd_cases ht with ⟨-, rfl⟩ | ⟨-, e, -, ⟨i, hi, rfl⟩ | ⟨why, -, rfl⟩⟩
  · exact (h.reply _).resetAssembly
  · exact ((h.reply ackByte).queue (e := e) hi).resetAssembly
  · exact (h.reply _).resetAssembly

theorem BlockInv.linkAccept {b : Byte} {s t : State} (h : BlockInv s) (ht : linkAccept b s = .next t) : BlockInv t := by
  by_cases hb : b = 0x00#8
  · rw [hb, linkAccept_zero] at ht
    exact h.frameEnd ht
  · rw [linkAccept_of_ne hb] at ht
    cases ht
    exact h.acceptByte hb

theorem BlockInv.linkAcceptAll {bytes : List Byte} {s t : State} (h : BlockInv s)
    (ht : linkAcceptAll bytes s = .next t) : BlockInv t := by
  induction bytes generalizing s with
  | nil => cases ht; exact h
  | cons b bytes ih =>
    obtain ⟨u, hu, ht⟩ := andThen_eq_next.1 ht
    exact ih (h.linkAccept hu) ht

/-- A drain takes no more than is unread, and assembles it (R151). -/
theorem BlockInv.drain {n : Nat} {s t : State} (h : BlockInv s) (ht : drain n s = .next t) : BlockInv t := by
  obtain ⟨hcaps, hplay, hring, hlink, hctl⟩ := h
  obtain ⟨bytes, u, hread, ht⟩ := drain_cases ht
  obtain ⟨unread, hunread⟩ := hring.unread
  rw [ringRead_eq hunread] at hread
  cases hread
  have hk : (upTo (some 0x00#8) (unread.take n)).length ≤ s.ringCount :=
    calc _ ≤ (unread.take n).length := (upTo_isPrefix _ _).length_le
      _ ≤ unread.length := by simp
      _ = s.ringCount := (ringUnread_eq_some.1 hunread).1
  have hadv : BlockInv (ringAdvance s (upTo (some 0x00#8) (unread.take n)).length) :=
    ⟨hcaps, hplay, hring.advance hk, hlink, hctl⟩
  exact hadv.linkAcceptAll ht

/-! ## The commands keep the invariant -/

/-- A back slot within the capacities keeps the invariant, whatever `uploading` is: playback reads the active slot. -/
theorem BlockInv.setB {s : State} (h : BlockInv s) {v : Slot} (hv : v.Fits s.config) : BlockInv (s.setB v) := by
  obtain ⟨hcaps, hplay, hside⟩ := h
  exact ⟨hcaps.of_slotB (by simp) (by simp) (by simpa using hv) (by simp),
    hplay.congr (by simp) (by simp) (by simp) (by simp) (by simp) (by simp) (by simp) (by simp),
    InvLinkSide.of_frame hside (withPlaybackOf_setB s v)⟩

theorem BlockInv.slotB_fits {s : State} (h : BlockInv s) : s.slotB.Fits s.config := by
  obtain ⟨hcaps, -⟩ := h
  obtain ⟨-, ⟨-, hB⟩, -⟩ := (invCaps_iff s).1 hcaps
  exact hB

/-- A stop leaves no periodic timer, and outside a lock wait nothing else asks for a running block (R189). -/
theorem BlockInv.stop {s : State} (h : BlockInv s) (hph : s.phase = .normal) : BlockInv (stop s) := by
  obtain ⟨hcaps, ⟨-, -, hm, -⟩, hside⟩ := h
  have hplay : InvPlay (Machine.stop s) := by
    refine ⟨by simp, by simp [hph], fun hper => ?_, by simp⟩
    cases hrun : s.isRunning <;> simp_all
  exact ⟨hcaps.congr (by simp) (by simp) (by simp) (by simp), hplay,
    InvLinkSide.of_frame hside (withPlaybackOf_stop s)⟩

/-- A launch begins its step from "not started", which is within the range of `pllchangei` (R188). -/
theorem BlockInv.restart {s : State} (h : BlockInv s) : StepInv (restart s) := by
  obtain ⟨hcaps, -, hside⟩ := h
  exact ⟨hcaps.of_pllchangei (by simp) (by simp) (by simp) (by simp) (by simp; omega),
    .of_frame hside (withPlaybackOf_restart s), restart_isRunning s⟩

theorem BlockInv.exec {i : Instr} {s t : State} (h : BlockInv s) (hph : s.phase = .normal)
    (ht : exec i s = .next t) : BlockInv t := by
  cases exec_effect ht with
  | unchanged => exact h
  | faulted code => exact h.raise code
  | pushed v _ fits =>
    have hup : BlockInv (setUploading true s) := h
    exact hup.setB (fits h.slotB_fits)
  | cleared => exact h.setB (Slot.empty_fits _)
  | closed => exact h
  | stopped => exact h.stop hph
  | launched _ hstep => exact h.restart.stepSeq hstep

theorem BlockInv.dispatch {s t : State} (h : BlockInv s) (hph : s.phase = .normal) (ht : dispatch s = .next t) :
    BlockInv t := by
  rcases dispatch_cases ht with rfl | ⟨i, -, hexec⟩
  · exact h
  · obtain ⟨hcaps, hplay, hring, hlink, hhalt, -⟩ := h
    have htaken : BlockInv { s with pendingCmd := none } :=
      ⟨hcaps, hplay, hring, hlink, hhalt, fun _ _ hi => by cases hi⟩
    exact htaken.exec hph hexec

/-! ## The tick and the lock keep the invariant -/

/-- The one-shot's end is no change of a periodic timer (R283). -/
theorem BlockInv.expireOneshot {s : State} (h : BlockInv s) : BlockInv (expireOneshot s) := by
  obtain ⟨hcaps, ⟨hpos, hph, hm, hn⟩, hside⟩ := h
  unfold Machine.expireOneshot
  split
  · next hdr =>
    refine ⟨hcaps, ⟨hpos, hph, by simp, fun hh hr hp => ?_⟩, hside⟩
    rw [hn hh hr hp] at hdr
    cases hdr
  · exact ⟨hcaps, ⟨hpos, hph, hm, hn⟩, hside⟩

/-- A tick inside a run moves one value on, and what is left of the run is one value less (R200). -/
theorem BlockInv.applyNext {s t : State} (h : BlockInv s) (hph : s.phase = .normal) (hrem : s.fracnRem ≠ 0#32)
    (ht : applyNext s = .next t) : BlockInv t := by
  obtain ⟨hcaps, ⟨hpos, hrun, hm, hn⟩, hside⟩ := h
  obtain ⟨v, -, hlt, rfl⟩ := applyNext_cases ht
  refine ⟨hcaps, ⟨fun hh hr => ?_, hrun, hm, hn⟩, hside⟩
  obtain ⟨c, hc, hle, hsum, hlen, -⟩ := hpos hh hr
  have hrem0 : s.fracnRem.toNat ≠ 0 := fun h0 => hrem (BitVec.eq_of_toNat_eq h0)
  have hI : (BitVec.ofNat 32 (s.fracnI.toNat + 1)).toNat = s.fracnI.toNat + 1 := by
    rw [BitVec.toNat_ofNat, Nat.mod_eq_of_lt hlt]
  have hR : (BitVec.ofNat 32 (s.fracnRem.toNat - 1)).toNat = s.fracnRem.toNat - 1 := by
    have := s.fracnRem.isLt
    rw [BitVec.toNat_ofNat]
    omega
  refine ⟨c, hc, ?_, ?_, hlen, fun o d hd => ?_⟩
  · simp only [emit_fracnI, hI]; omega
  · simp only [emit_fracnI, emit_fracnRem, hI, hR]; omega
  · simp [hph] at hd

theorem BlockInv.tickHandler {s t : State} (h : BlockInv s) (hph : s.phase = .normal)
    (ht : tickHandler s = .next t) : BlockInv t := by
  rcases tickHandler_cases ht with ⟨-, rfl⟩ | ⟨hrun, -, hstep⟩ | ⟨-, hrem, happly⟩
  · exact h.expireOneshot
  · obtain ⟨hcaps, -, hside⟩ := h.expireOneshot
    exact StepInv.stepSeq ⟨hcaps, hside, (expireOneshot_isRunning s).trans hrun⟩ hstep
  · exact h.expireOneshot.applyNext (by simpa using hph) (by simpa using hrem) happly

/-- The lock ends the wait with the timer periodic (R197). -/
theorem BlockInv.lockStep {s : State} (h : BlockInv s) : BlockInv (lockStep s) := by
  rcases lockStep_cases s with he | ⟨o, c, hph, he⟩
  · rwa [he]
  · rw [he]
    obtain ⟨hcaps, ⟨hpos, hrun, -, -⟩, hside⟩ := h
    have hr : s.isRunning = true := hrun (by simp [hph])
    refine ⟨hcaps, ⟨fun hh _ => ?_, fun _ => hr, fun _ => hr, fun _ _ _ => rfl⟩, hside⟩
    obtain ⟨c, hc, hle, hsum, hlen, -⟩ := hpos hh hr
    exact ⟨c, hc, hle, hsum, hlen, fun o d hd => by simp at hd⟩

/-! ## Every action keeps the invariant -/

theorem BlockInv.act {a : Action} {s t : State} (h : BlockInv s) (ht : act a s = .next t) : BlockInv t := by
  rcases act_cases ht with ⟨-, rfl⟩ | ⟨hen, hfire⟩
  · exact h
  cases a with
  | hostSend bytes => cases hfire; exact h
  | rx => cases hfire; exact h.receiveNext
  | drain n => exact h.drain hfire
  | dispatch => exact h.dispatch (phase_normal_of_ready (Bool.and_eq_true_iff.1 hen).1) hfire
  | tick => exact h.tickHandler (phase_normal_of_ready (Bool.and_eq_true_iff.1 hen).1) hfire
  | lock => cases hfire; exact h.lockStep

/-- Settles O4: the choice of the action touches none of the invariant's elements, and every action keeps it. -/
theorem everyStepKeepsTheInvariant : Obligations.EveryStepKeepsTheInvariant := by
  unfold Obligations.EveryStepKeepsTheInvariant
  intro s t hinv hstep
  exact hinv.takeChoice.act hstep

end Sys2Proof.Machine

/-! ## What the invariant holds after reset, and what it says of the position and of the ring -/

namespace Sys2Proof.Machine

/-- Settles O3: after reset the lists, the ring and the frame are empty and nothing runs. -/
theorem invariantHoldsAfterReset : Obligations.InvariantHoldsAfterReset := by
  unfold Obligations.InvariantHoldsAfterReset
  intro c hc
  have ⟨_, _, hpll, hring, _⟩ := hc
  refine ⟨(invCaps_iff _).2 ⟨hc, ⟨Slot.empty_fits c, Slot.empty_fits c⟩, ?_, ?_⟩, ?_, ?_, ?_, ?_⟩
  · simp [State.reset]
  · simp only [State.reset]; omega
  · simp [InvPlay, State.reset]
  · simp [InvRing, State.reset, Memory.wf]; omega
  · simp [InvLink, State.reset, Memory.wf]
  · simp [InvControl, State.reset]

/-- Settles O6: the invariant's current change exists, and the exact count of what is left bounds the position. -/
theorem invariantBoundsThePlaybackPosition : Obligations.InvariantBoundsThePlaybackPosition := by
  unfold Obligations.InvariantBoundsThePlaybackPosition
  intro s hinv hhalt hrun _
  obtain ⟨-, ⟨hpos, -⟩, -⟩ := hinv
  obtain ⟨c, hc, -, hsum, hlen, -⟩ := hpos hhalt hrun
  obtain ⟨h0, hat⟩ := changeAt_eq_some.1 hc
  exact ⟨h0, changeAt_lt hc, c, hat, by omega, hlen⟩

/-- Settles O7: the write cursor stands `ring_count` bytes behind the read cursor, modulo the capacity. -/
theorem invariantTiesRingCountToCursors : Obligations.InvariantTiesRingCountToCursors := by
  unfold Obligations.InvariantTiesRingCountToCursors
  intro s hinv
  obtain ⟨-, -, ⟨-, hrd, hcount, hwr, -⟩, -⟩ := hinv
  refine ⟨fun hne => ?_, fun hfull => ?_⟩
  · have hlt : (s.ringCount : Int) < s.config.ringCap := by omega
    calc (s.ringCount : Int) = s.ringCount % s.config.ringCap := (Int.emod_eq_of_lt (by omega) hlt).symm
      _ = ((s.ringRd + s.ringCount : Int) - s.ringRd) % s.config.ringCap := by rw [add_sub_cancel_left]
      _ = ((s.ringWr : Int) - s.ringRd) % s.config.ringCap := by rw [hwr]; push_cast; rw [Int.emod_sub_emod]
  · rw [hwr, hfull, Nat.add_mod_right, Nat.mod_eq_of_lt hrd]

end Sys2Proof.Machine

/-! ## The frames of the link and of the commands -/

namespace Sys2Proof.Machine

/-- `t` with every element that the link may write (R40) put back to what it is in `s`. -/
def withLinkOf (s t : State) : State :=
  { t with ringMem := s.ringMem, ringRd := s.ringRd, ringWr := s.ringWr, ringCount := s.ringCount, msgBuf := s.msgBuf,
           msgLen := s.msgLen, msgOvf := s.msgOvf, pendingCmd := s.pendingCmd, trace := s.trace, line := s.line,
           halted := s.halted, faultCode := s.faultCode }

/-- The link's three actions: the host's sending, `RX` and a drain. -/
def OfLink (a : Action) : Prop := a = .rx ∨ (∃ n, a = .drain n) ∨ ∃ bytes, a = .hostSend bytes

/-- The frame of the link: its actions write its own elements only. -/
theorem act_link_frame {a : Action} {s t : State} (h : act a s = .next t) (ha : OfLink a) : withLinkOf s t = s := by
  rcases act_cases h with ⟨-, rfl⟩ | ⟨-, hfire⟩
  · rfl
  rcases ha with rfl | ⟨n, rfl⟩ | ⟨bytes, rfl⟩
  · cases hfire
    exact (congrArg (withLinkOf s) (receiveNext_frame s) :)
  · exact (congrArg (withLinkOf s) (drain_frame hfire) :)
  · cases hfire
    rfl

/-- Settles O17: each element of the sequencer is read off the frame of the link. -/
theorem linkNeverTouchesTheSequencer : Obligations.LinkNeverTouchesTheSequencer := by
  unfold Obligations.LinkNeverTouchesTheSequencer
  intro a s t h ha
  rw [← act_link_frame h ha]
  exact ⟨rfl, rfl, rfl, rfl, rfl, rfl, rfl, rfl, rfl, rfl, rfl⟩

/-- `t` with every element that a command other than `StartNow` may write put back to what it is in `s`. -/
def withUploadOf (s t : State) : State :=
  { t with slot0 := s.slot0, slot1 := s.slot1, isRunning := s.isRunning, uploading := s.uploading, tmrMode := s.tmrMode,
           trace := s.trace, halted := s.halted, faultCode := s.faultCode }

/-- `t` with every element that a command may write put back to what it is in `s`. -/
def withSequencerOf (s t : State) : State :=
  { withUploadOf s t with active := s.active, pllchangei := s.pllchangei, fracnI := s.fracnI, fracnRem := s.fracnRem,
                          phase := s.phase }

theorem stop_frame (s : State) : withUploadOf s (stop s) = s := by
  unfold stop
  split <;> rfl

theorem restart_frame (s : State) : withSequencerOf s (restart s) = s :=
  (congrArg (withSequencerOf s) (stop_frame s) :)

/-- The frame of the commands that do not launch. -/
theorem exec_frame_of_ne_startNow {i : Instr} {s t : State} (h : exec i s = .next t) (hi : i ≠ .startNow) :
    withUploadOf s t = s := by
  cases exec_effect h with
  | unchanged => rfl
  | faulted => rfl
  | pushed v => exact (congrArg (withUploadOf s) (setB_frame (setUploading true s) v) :)
  | cleared => exact (congrArg (withUploadOf s) (setB_frame s .empty) :)
  | closed => rfl
  | stopped => exact stop_frame s
  | launched hstart => exact absurd hstart hi

/-- The frame of all commands: a launch is `restart` and then `step`, and either writes the sequencer only. -/
theorem exec_frame {i : Instr} {s t : State} (h : exec i s = .next t) : withSequencerOf s t = s := by
  by_cases hi : i = .startNow
  · subst hi
    calc withSequencerOf s t = withSequencerOf s (restart s) := (congrArg (withSequencerOf s) (stepSeq_frame h) :)
      _ = s := restart_frame s
  · exact (congrArg (withSequencerOf s) (exec_frame_of_ne_startNow h hi) :)

/-- Settles O46: each element is read off the frame of the commands. -/
theorem commandsLeaveTheLinkAndThePositionAlone : Obligations.CommandsLeaveTheLinkAndThePositionAlone := by
  unfold Obligations.CommandsLeaveTheLinkAndThePositionAlone
  intro i s t h
  refine ⟨?_, fun hi => ?_⟩
  · rw [← exec_frame h]
    exact ⟨rfl, rfl, rfl, rfl, rfl, rfl, rfl, rfl, rfl, rfl, rfl, rfl, rfl⟩
  · rw [← exec_frame_of_ne_startNow h hi]
    exact ⟨rfl, rfl, rfl, rfl, rfl⟩

/-! ## The port trace only grows -/

theorem acceptByte_trace (b : Byte) (s : State) : (acceptByte b s).trace = s.trace := by
  rcases acceptByte_cases b s with ⟨-, he⟩ | ⟨-, -, he⟩ | ⟨-, -, he⟩ <;> simp [he]

theorem linkAccept_trace {b : Byte} {s t : State} (h : linkAccept b s = .next t) : s.trace <+: t.trace := by
  by_cases hb : b = 0x00#8
  · rw [hb, linkAccept_zero] at h
    rcases frameEnd_cases h with ⟨-, rfl⟩ | ⟨-, e, -, ⟨i, -, rfl⟩ | ⟨why, -, rfl⟩⟩ <;> exact List.prefix_append _ _
  · rw [linkAccept_of_ne hb] at h
    cases h
    rw [acceptByte_trace]

theorem linkAcceptAll_trace {bytes : List Byte} {s t : State} (h : linkAcceptAll bytes s = .next t) :
    s.trace <+: t.trace := by
  induction bytes generalizing s with
  | nil => cases h; exact List.prefix_rfl
  | cons b bytes ih =>
    obtain ⟨u, hu, ht⟩ := andThen_eq_next.1 h
    exact (linkAccept_trace hu).trans (ih ht)

theorem drain_trace {n : Nat} {s t : State} (h : drain n s = .next t) : s.trace <+: t.trace := by
  obtain ⟨bytes, u, hread, ht⟩ := drain_cases h
  obtain ⟨out, -, he⟩ := Option.map_eq_some_iff.1 hread
  cases he
  exact (linkAcceptAll_trace ht :)

theorem stepSeq_trace {o : Origin} {s t : State} (h : stepSeq o s = .next t) : s.trace <+: t.trace := by
  rcases stepSeq_cases h with ⟨-, -, rfl⟩ | ⟨-, hplay⟩
  · exact List.prefix_rfl
  · rw [← advance_trace s]
    rcases playCurrent_cases hplay with ⟨-, rfl⟩ | ⟨c, -, -, rfl⟩ | ⟨c, -, -, -, rfl⟩ | ⟨c, v, -, -, -, -, rfl⟩
    · exact List.prefix_rfl
    · exact List.prefix_rfl
    · exact List.prefix_rfl
    · exact List.prefix_append _ _

theorem exec_trace {i : Instr} {s t : State} (h : exec i s = .next t) : s.trace <+: t.trace := by
  cases exec_effect h with
  | unchanged => exact List.prefix_rfl
  | faulted => exact List.prefix_rfl
  | pushed v => rw [setB_trace, setUploading_trace]
  | cleared => rw [setB_trace]
  | closed => exact List.prefix_rfl
  | stopped => rw [stop_trace]; exact List.prefix_append _ _
  | launched _ hstep =>
    calc s.trace <+: (restart s).trace := by rw [restart_trace]; exact List.prefix_append _ _
      _ <+: t.trace := stepSeq_trace hstep

theorem tickHandler_trace {s t : State} (h : tickHandler s = .next t) : s.trace <+: t.trace := by
  rw [← expireOneshot_trace s]
  rcases tickHandler_cases h with ⟨-, rfl⟩ | ⟨-, -, hstep⟩ | ⟨-, -, happly⟩
  · exact List.prefix_rfl
  · exact stepSeq_trace hstep
  · obtain ⟨v, -, -, rfl⟩ := applyNext_cases happly
    exact List.prefix_append _ _

theorem act_trace {a : Action} {s t : State} (h : act a s = .next t) : s.trace <+: t.trace := by
  rcases act_cases h with ⟨-, rfl⟩ | ⟨-, hfire⟩
  · exact List.prefix_rfl
  cases a with
  | hostSend bytes => cases hfire; exact List.prefix_rfl
  | rx => cases hfire; rw [congrArg State.trace (receiveNext_frame s)]
  | drain n => exact drain_trace hfire
  | dispatch =>
    rcases dispatch_cases hfire with rfl | ⟨i, -, hexec⟩
    · exact List.prefix_rfl
    · exact (exec_trace hexec :)
  | tick => exact tickHandler_trace hfire
  | lock =>
    cases hfire
    rcases lockStep_cases s with he | ⟨o, c, -, he⟩ <;> rw [he]
    exact List.prefix_append _ _

/-! ## The parameters never change -/

theorem tickHandler_config {s t : State} (h : tickHandler s = .next t) : t.config = s.config := by
  rw [← expireOneshot_config s]
  rcases tickHandler_cases h with ⟨-, rfl⟩ | ⟨-, -, hstep⟩ | ⟨-, -, happly⟩
  · rfl
  · exact (congrArg State.config (stepSeq_frame hstep) :)
  · exact (congrArg State.config (applyNext_frame happly) :)

theorem act_config {a : Action} {s t : State} (h : act a s = .next t) : t.config = s.config := by
  rcases act_cases h with ⟨-, rfl⟩ | ⟨-, hfire⟩
  · rfl
  cases a with
  | hostSend bytes => cases hfire; rfl
  | rx => exact (congrArg State.config (act_link_frame h (.inl rfl)) :)
  | drain n => exact (congrArg State.config (act_link_frame h (.inr (.inl ⟨n, rfl⟩))) :)
  | dispatch =>
    rcases dispatch_cases hfire with rfl | ⟨i, -, hexec⟩
    · rfl
    · exact (congrArg State.config (exec_frame hexec) :)
  | tick => exact tickHandler_config hfire
  | lock =>
    cases hfire
    rcases lockStep_cases s with he | ⟨o, c, -, he⟩ <;> rw [he]
    rfl

/-- Settles O8: the transmit stream is a filter of the port trace (R41), so it grows with it. -/
theorem outputsOnlyGrow : Obligations.OutputsOnlyGrow := by
  unfold Obligations.OutputsOnlyGrow
  intro a s t h
  exact ⟨act_trace h, (act_trace h).filterMap _, act_config h⟩

end Sys2Proof.Machine

/-! ## What an action does to the slots and to `uploading` -/

namespace Sys2Proof.Machine

/-- Where a swap may happen: a tick that ends a run of a running block, or the dispatch of `StartNow`, at a loop
boundary (R190). -/
def SwapAllowed (a : Action) (s : State) : Prop :=
  a = .tick ∧ s.isRunning = true ∧ s.fracnRem = 0#32 ∧
      ((s.slotA.pll.length : Int) ≤ s.pllchangei + 1 ∨ s.pllchangei = -1 ∧ s.config.launchIsBoundary = true) ∨
    a = .dispatch ∧ s.pendingCmd = some .startNow ∧ (s.config.launchIsBoundary = true ∨ s.slotA.pll = [])

/-- Everything an action `a` can do to the slots, `active` and `uploading` between `s` and `t`. -/
inductive SlotMove (a : Action) (s t : State) : Prop
  | kept (active : t.active = s.active) (slotA : t.slotA = s.slotA) (slotB : t.slotB = s.slotB)
      (uploading : t.uploading = s.uploading)
  | pushed (cmd : ∃ i, s.pendingCmd = some i ∧ IsPush i) (dispatched : a = .dispatch)
      (active : t.active = s.active) (slotA : t.slotA = s.slotA) (fracn : s.slotB.fracn <+: t.slotB.fracn)
      (pll : s.slotB.pll <+: t.slotB.pll) (uploading : t.uploading = true)
  | cleared (active : t.active = s.active) (slotA : t.slotA = s.slotA) (slotB : t.slotB = .empty)
      (uploading : t.uploading = s.uploading)
  | closed (cmd : s.pendingCmd = some .uploadDone) (dispatched : a = .dispatch) (active : t.active = s.active)
      (slotA : t.slotA = s.slotA) (slotB : t.slotB = s.slotB) (uploading : t.uploading = false)
  | swapped (allowed : SwapAllowed a s) (pending : pendingUpload s = true) (active : t.active = s.active.other)
      (slotA : t.slotA = s.slotB) (slotB : t.slotB = .empty) (uploading : t.uploading = s.uploading)
      (pllchangei : t.pllchangei = 0)

/-- What `step` does to the slots: nothing, or the swap of a loop boundary, which selects the first change. -/
theorem stepSeq_slots {o : Origin} {s t : State} (h : stepSeq o s = .next t) :
    t.uploading = s.uploading ∧
    ((t.active = s.active ∧ t.slotA = s.slotA ∧ t.slotB = s.slotB) ∨
      (atBoundary s = true ∧ pendingUpload s = true ∧ t.active = s.active.other ∧ t.slotA = s.slotB ∧
        t.slotB = .empty ∧ t.pllchangei = 0)) := by
  refine ⟨(congrArg State.uploading (stepSeq_frame h) :), ?_⟩
  rcases stepSeq_cases h with ⟨-, -, rfl⟩ | ⟨-, hplay⟩
  · exact .inl ⟨rfl, rfl, rfl⟩
  have hf := playCurrent_frame hplay
  have hact : t.active = (advance s).active := (congrArg State.active hf :)
  have hA : t.slotA = (advance s).slotA := (congrArg State.slotA hf :)
  have hB : t.slotB = (advance s).slotB := (congrArg State.slotB hf :)
  have hp : t.pllchangei = (advance s).pllchangei := (congrArg State.pllchangei hf :)
  rw [hact, hA, hB, hp]
  rcases advance_slots s with ⟨ha, -, -, hA, hB⟩ | ⟨hb, hpend, ha, hA, hB⟩
  · exact .inl ⟨ha, hA, hB⟩
  · exact .inr ⟨hb, hpend, ha, hA, hB, by rw [advance_pllchangei, if_pos hb]⟩

theorem SlotMove.of_slots_eq {a : Action} {s t : State} (h0 : t.slot0 = s.slot0) (h1 : t.slot1 = s.slot1)
    (ha : t.active = s.active) (hu : t.uploading = s.uploading) : SlotMove a s t :=
  .kept ha (slotA_congr h0 h1 ha) (slotB_congr h0 h1 ha) hu

/-- The link's actions leave the slots alone. -/
theorem slotMove_of_link {a : Action} {s t : State} (h : act a s = .next t) (ha : OfLink a) : SlotMove a s t := by
  have hf := act_link_frame h ha
  exact .of_slots_eq (congrArg State.slot0 hf :) (congrArg State.slot1 hf :) (congrArg State.active hf :)
    (congrArg State.uploading hf :)

/-- A `step` moves the slots as its caller is allowed to. -/
theorem slotMove_of_stepSeq {a : Action} {o : Origin} {s s' t : State} (h : stepSeq o s' = .next t)
    (ha : s'.active = s.active) (hA : s'.slotA = s.slotA) (hB : s'.slotB = s.slotB) (hu : s'.uploading = s.uploading)
    (hallowed : atBoundary s' = true → SwapAllowed a s) : SlotMove a s t := by
  obtain ⟨hup, ⟨ha', hA', hB'⟩ | ⟨hb, hpend, ha', hA', hB', hp⟩⟩ := stepSeq_slots h
  · exact .kept (ha'.trans ha) (hA'.trans hA) (hB'.trans hB) (hup.trans hu)
  · have hpend : pendingUpload s = true := by rwa [pendingUpload, hu, hB] at hpend
    exact .swapped (hallowed hb) hpend (ha ▸ ha') (hA'.trans hB) hB' (hup.trans hu) hp

theorem slotMove_of_tick {s t : State} (h : tickHandler s = .next t) : SlotMove .tick s t := by
  rcases tickHandler_cases h with ⟨-, rfl⟩ | ⟨hrun, hrem, hstep⟩ | ⟨-, -, happly⟩
  · exact .of_slots_eq (by simp) (by simp) (by simp) (by simp)
  · refine slotMove_of_stepSeq hstep (by simp) (by simp) (by simp) (by simp) fun hb => .inl ⟨rfl, hrun, hrem, ?_⟩
    simpa using (atBoundary_iff.1 hb).symm
  · obtain ⟨v, -, -, rfl⟩ := applyNext_cases happly
    exact .of_slots_eq (by simp) (by simp) (by simp) (by simp)

/-- A launch stands at a loop boundary if launches are, or if the active slot lists no change (R188, R190). -/
theorem atBoundary_restart {s : State} (h : atBoundary (restart s) = true) :
    s.config.launchIsBoundary = true ∨ s.slotA.pll = [] := by
  simpa [atBoundary_iff] using h

theorem slotMove_of_dispatch {s t : State} (h : dispatch s = .next t) : SlotMove .dispatch s t := by
  rcases dispatch_cases h with rfl | ⟨i, hcmd, hexec⟩
  · exact .of_slots_eq rfl rfl rfl rfl
  cases exec_effect hexec with
  | unchanged => exact .of_slots_eq rfl rfl rfl rfl
  | faulted => exact .of_slots_eq rfl rfl rfl rfl
  | pushed v push _ fracn pll =>
    exact .pushed ⟨i, hcmd, push⟩ rfl (setB_active _ v) (setB_slotA _ v) (by rw [setB_slotB]; exact fracn)
      (by rw [setB_slotB]; exact pll) (setB_uploading _ v)
  | cleared => exact .cleared (setB_active _ _) (setB_slotA _ _) (setB_slotB _ _) (setB_uploading _ _)
  | closed hclose => exact .closed (hclose ▸ hcmd) rfl rfl rfl rfl rfl
  | stopped => exact .of_slots_eq (stop_slot0 _) (stop_slot1 _) (stop_active _) (stop_uploading _)
  | launched hstart hstep =>
    exact slotMove_of_stepSeq hstep (restart_active _) (restart_slotA _) (restart_slotB _) (restart_uploading _)
      fun hb => .inr ⟨rfl, hstart ▸ hcmd, (atBoundary_restart hb :)⟩

theorem act_slotMove {a : Action} {s t : State} (h : act a s = .next t) : SlotMove a s t := by
  rcases act_cases h with ⟨-, rfl⟩ | ⟨-, hfire⟩
  · exact .of_slots_eq rfl rfl rfl rfl
  cases a with
  | hostSend bytes => exact slotMove_of_link h (.inr (.inr ⟨bytes, rfl⟩))
  | rx => exact slotMove_of_link h (.inl rfl)
  | drain n => exact slotMove_of_link h (.inr (.inl ⟨n, rfl⟩))
  | dispatch => exact slotMove_of_dispatch hfire
  | tick => exact slotMove_of_tick hfire
  | lock =>
    cases hfire
    rcases lockStep_cases s with he | ⟨o, c, -, he⟩ <;> (rw [he]; exact .of_slots_eq rfl rfl rfl rfl)

/-- Settles O14: of the five moves only the swap changes `active`, and none writes the active slot in place. -/
theorem activeSlotChangesOnlyBySwap : Obligations.ActiveSlotChangesOnlyBySwap := by
  unfold Obligations.ActiveSlotChangesOnlyBySwap
  intro a s t h
  cases act_slotMove h with
  | kept active slotA => exact ⟨fun _ => slotA, fun hne => absurd active hne⟩
  | pushed _ _ active slotA => exact ⟨fun _ => slotA, fun hne => absurd active hne⟩
  | cleared active slotA => exact ⟨fun _ => slotA, fun hne => absurd active hne⟩
  | closed _ _ active slotA => exact ⟨fun _ => slotA, fun hne => absurd active hne⟩
  | swapped allowed pending active slotA slotB _ pllchangei =>
    obtain ⟨hup, hpll⟩ := pendingUpload_iff.1 pending
    exact ⟨fun he => absurd (active.symm.trans he) (SlotId.other_ne _),
      fun _ => ⟨hup, hpll, slotA, slotB, pllchangei, allowed⟩⟩

/-- A slot that is emptied, or whose two lists keep what they held as first parts (R22). -/
def EmptiedOrExtended (v w : Slot) : Prop := w = .empty ∨ (v.fracn <+: w.fracn ∧ v.pll <+: w.pll)

theorem EmptiedOrExtended.of_eq {v w : Slot} (h : w = v) : EmptiedOrExtended v w := by
  subst h
  exact .inr ⟨List.prefix_rfl, List.prefix_rfl⟩

theorem slot_eq_slotB_of_ne {s : State} {k : SlotId} (h : k ≠ s.active) : s.slot k = s.slotB := by
  unfold State.slotB
  cases k <;> cases hs : s.active <;> simp_all [SlotId.other]

/-- Slot by slot from the active and the back slot, where `active` stays. -/
theorem EmptiedOrExtended.of_active_eq {s t : State} (ha : t.active = s.active)
    (hA : EmptiedOrExtended s.slotA t.slotA) (hB : EmptiedOrExtended s.slotB t.slotB) (k : SlotId) :
    EmptiedOrExtended (s.slot k) (t.slot k) := by
  by_cases hk : k = s.active
  · subst hk
    have ht : t.slot s.active = t.slotA := by rw [← ha]; rfl
    rw [ht]
    exact hA
  · rw [slot_eq_slotB_of_ne hk, slot_eq_slotB_of_ne (s := t) (ha ▸ hk)]
    exact hB

/-- Settles O15: a swap exchanges the slots' roles and empties the one that was active; a push appends. -/
theorem slotEntriesAreNeverChangedInPlace : Obligations.SlotEntriesAreNeverChangedInPlace := by
  unfold Obligations.SlotEntriesAreNeverChangedInPlace
  intro a s t k h
  show EmptiedOrExtended (s.slot k) (t.slot k)
  cases act_slotMove h with
  | kept active slotA slotB => exact .of_active_eq active (.of_eq slotA) (.of_eq slotB) k
  | pushed _ _ active slotA fracn pll => exact .of_active_eq active (.of_eq slotA) (.inr ⟨fracn, pll⟩) k
  | cleared active slotA slotB => exact .of_active_eq active (.of_eq slotA) (.inl slotB) k
  | closed _ _ active slotA slotB => exact .of_active_eq active (.of_eq slotA) (.of_eq slotB) k
  | swapped _ _ active slotA slotB =>
    by_cases hk : k = t.active
    · subst hk
      rw [slot_eq_slotB_of_ne (s := s) (active ▸ SlotId.other_ne _)]
      exact .of_eq slotA
    · rw [slot_eq_slotB_of_ne hk]
      exact .inl slotB

/-- A flag that stays is neither cleared nor set. -/
theorem neither_cleared_nor_set_of_eq {u v : Bool} {P Q : Prop} (h : v = u) :
    (u = true → v = false → P) ∧ (u = false → v = true → Q) := by
  cases u <;> simp [h]

/-- Settles O16: of the five moves only a push sets `uploading`, and only the closing of an upload clears it. -/
theorem uploadingChangesOnlyByItsCommands : Obligations.UploadingChangesOnlyByItsCommands := by
  unfold Obligations.UploadingChangesOnlyByItsCommands
  intro a s t h
  cases act_slotMove h with
  | kept _ _ _ uploading => exact neither_cleared_nor_set_of_eq uploading
  | pushed cmd dispatched _ _ _ _ uploading =>
    obtain ⟨i, hi, hpush⟩ := cmd
    refine ⟨fun _ hclear => ?_, fun _ _ => ⟨dispatched, ?_⟩⟩
    · simp [uploading] at hclear
    · simpa [IsPush, hi] using hpush
  | cleared _ _ _ uploading => exact neither_cleared_nor_set_of_eq uploading
  | closed cmd dispatched _ _ _ uploading =>
    exact ⟨fun _ _ => ⟨dispatched, cmd⟩, fun _ hset => by simp [uploading] at hset⟩
  | swapped _ _ _ _ _ uploading => exact neither_cleared_nor_set_of_eq uploading

end Sys2Proof.Machine

/-! ## Every action has a next state under the invariant -/

namespace Sys2Proof.Machine

/-! ### The commands, in any state -/

/-- Only a launch could read an entry that does not exist, and it starts from -1, within the range `step` needs (R188). -/
theorem exec_total (i : Instr) (s : State) : ∃ t, exec i s = .next t := by
  cases i with
  | startNow => exact stepSeq_total (by simp)
  | _ => exact ⟨_, rfl⟩

theorem dispatch_total (s : State) : ∃ t, dispatch s = .next t := by
  unfold dispatch
  split
  · exact ⟨s, rfl⟩
  · exact exec_total _ _

/-! ### The link -/

/-- The bytes of the frame being assembled have been written, so its end can read them (R63). -/
theorem InvLink.frameEnd_total {s : State} (h : InvLink s) : ∃ t, frameEnd s = .next t := by
  obtain ⟨-, -, -, -, hbytes⟩ := h
  have hwritten : ∀ j, j < s.msgLen → (memRead s.msgBuf (0 + j)).isSome := fun j hj => by
    obtain ⟨b, hb, -⟩ := hbytes j hj
    simp [hb]
  obtain ⟨e, he⟩ := memReadRange_isSome hwritten
  unfold frameEnd
  rw [he]
  split <;> exact ⟨_, rfl⟩

theorem BlockInv.linkAccept_total {s : State} (h : BlockInv s) (b : Byte) : ∃ t, Machine.linkAccept b s = .next t := by
  by_cases hb : b = 0x00#8
  · obtain ⟨-, -, -, hlink, -⟩ := h
    rw [hb, linkAccept_zero]
    exact hlink.frameEnd_total
  · exact ⟨_, linkAccept_of_ne hb s⟩

theorem BlockInv.linkAcceptAll_total {s : State} (h : BlockInv s) (bytes : List Byte) :
    ∃ t, Machine.linkAcceptAll bytes s = .next t := by
  induction bytes generalizing s with
  | nil => exact ⟨s, rfl⟩
  | cons b bytes ih =>
    obtain ⟨u, hu⟩ := h.linkAccept_total b
    obtain ⟨t, ht⟩ := ih (h.linkAccept hu)
    exact ⟨t, andThen_eq_next.2 ⟨u, hu, ht⟩⟩

/-- The unread bytes have been written (R62), so a read returns a first part of them and keeps the invariant. -/
theorem BlockInv.ringRead_total {s : State} (h : BlockInv s) (n : Nat) (delim : Option Byte) :
    ∃ bytes u, ringRead s n delim = some (bytes, u) ∧ BlockInv u := by
  obtain ⟨hcaps, hplay, hring, hlink, hctl⟩ := h
  obtain ⟨unread, hunread⟩ := hring.unread
  have htaken : (upTo delim (unread.take n)).length ≤ s.ringCount :=
    calc _ ≤ unread.length := ((upTo_isPrefix _ _).trans (List.take_prefix n unread)).length_le
      _ = s.ringCount := (ringUnread_eq_some.1 hunread).1
  exact ⟨_, _, ringRead_eq hunread n delim, hcaps, hplay, hring.advance htaken, hlink, hctl⟩

theorem BlockInv.drain_total {s : State} (h : BlockInv s) (n : Nat) : ∃ t, Machine.drain n s = .next t := by
  obtain ⟨bytes, u, hread, hu⟩ := h.ringRead_total n (some 0x00#8)
  unfold Machine.drain
  rw [hread]
  exact hu.linkAcceptAll_total bytes

/-! ### The tick -/

/-- Inside a run there is a next value, and its index has 32 bits: the run ends within the slot (R61), which holds at
most `FRACN_CAP` values. -/
theorem BlockInv.applyNext_total {s : State} (h : BlockInv s) (hhalt : s.halted = false) (hrun : s.isRunning = true)
    (hrem : s.fracnRem ≠ 0#32) : ∃ t, Machine.applyNext s = .next t := by
  obtain ⟨hcaps, ⟨hpos, -⟩, -⟩ := h
  obtain ⟨⟨-, hcap, -⟩, ⟨⟨hfits, -⟩, -⟩, -⟩ := (invCaps_iff s).1 hcaps
  obtain ⟨c, -, -, hsum, hlen, -⟩ := hpos hhalt hrun
  have hrem0 : s.fracnRem.toNat ≠ 0 := fun h0 => hrem (BitVec.eq_of_toNat_eq h0)
  have hnext : s.fracnI.toNat + 1 < s.slotA.fracn.length := by omega
  exact ⟨_, applyNext_eq (List.getElem?_eq_getElem hnext) (by omega)⟩

theorem BlockInv.tickHandler_total {s : State} (h : BlockInv s) (hhalt : s.halted = false) :
    ∃ t, Machine.tickHandler s = .next t := by
  have hexp : BlockInv (Machine.expireOneshot s) := h.expireOneshot
  unfold Machine.tickHandler tickBody
  split
  · exact ⟨_, rfl⟩
  · next hrun =>
    split
    · obtain ⟨hcaps, -⟩ := hexp
      obtain ⟨-, -, hlo, -⟩ := (invCaps_iff _).1 hcaps
      exact stepSeq_total hlo
    · next hrem => exact hexp.applyNext_total (by simpa using hhalt) (by simpa using hrun) hrem

/-! ### Every action -/

theorem not_halted_of_ready {s : State} (h : ready s = true) : s.halted = false := by
  simp only [ready, Bool.and_eq_true, Bool.not_eq_true'] at h
  exact h.1

theorem BlockInv.act_total {s : State} (h : BlockInv s) (a : Action) : ∃ t, Machine.act a s = .next t := by
  cases hen : enabled a s with
  | false => exact ⟨s, act_disabled hen⟩
  | true =>
    rw [act_enabled hen]
    cases a with
    | hostSend bytes => exact ⟨_, rfl⟩
    | rx => exact ⟨_, rfl⟩
    | drain n => exact h.drain_total n
    | dispatch => exact dispatch_total s
    | tick => exact h.tickHandler_total (not_halted_of_ready (Bool.and_eq_true_iff.1 hen).1)
    | lock => exact ⟨_, rfl⟩

/-- Settles O5: the choice of the action keeps the invariant, and under it every action has a next state. -/
theorem everyStepFromTheInvariantHasANextState : Obligations.EveryStepFromTheInvariantHasANextState := by
  unfold Obligations.EveryStepFromTheInvariantHasANextState
  intro s hinv
  exact hinv.takeChoice.act_total (nextAction s)

end Sys2Proof.Machine

/-! ## COBS (R90, R91, R105, R160): the decoder undoes the encoder, and the stuffed part is zero-free -/

namespace Sys2Proof

@[simp] theorem cobsFrom_ne_nil (blk p : List Byte) : cobsFrom blk p ≠ [] := by
  fun_induction cobsFrom blk p with
  | case1 => simp
  | case2 => simp
  | case3 => simp
  | case4 _ _ _ _ _ ih => exact ih

theorem cobsDecode_last_block {data : List Byte} (hd : data.length ≤ 254) :
    cobsDecode (BitVec.ofNat 8 (data.length + 1) :: data) = some data := by
  have h := cobsBlocks_cons (fuel := data.length) (after := []) hd
  rw [List.append_nil] at h
  rw [cobsDecode_of_ne_nil (List.cons_ne_nil _ _) (Nat.le_refl _), List.length_cons, h]
  simp [cobsBlocks]

/-- A block that another one follows: its data, then the zero it stands for unless it is a 254-byte block (R160). -/
theorem cobsDecode_block {data after : List Byte} (hd : data.length ≤ 254) (ha : after ≠ []) :
    cobsDecode (BitVec.ofNat 8 (data.length + 1) :: (data ++ after)) =
      (cobsDecode after).map fun out => data ++ (if data.length < 254 then [0x00#8] else []) ++ out := by
  rw [cobsDecode_of_ne_nil (List.cons_ne_nil _ _) (Nat.le_refl _), List.length_cons, cobsBlocks_cons hd,
    ← cobsDecode_of_ne_nil ha (by simp)]
  have hshort : data.length + 1 < 255 ↔ data.length < 254 := Nat.succ_lt_succ_iff
  simp only [hshort, ha, ne_eq, not_false_eq_true, and_true]

/-- The induction behind O27: the block being gathered comes back in front of the bytes not yet read. -/
theorem cobsDecode_cobsFrom (blk p : List Byte) (hblk : blk.length ≤ 253) :
    cobsDecode (cobsFrom blk p) = some (blk ++ p) := by
  fun_induction cobsFrom blk p with
  | case1 blk => simpa using cobsDecode_last_block (Nat.le_succ_of_le hblk)
  | case2 blk rest ih =>
    rw [cobsDecode_block (Nat.le_succ_of_le hblk) (cobsFrom_ne_nil _ _), ih (Nat.zero_le _)]
    simp [Nat.lt_succ_of_le hblk]
  | case3 blk x rest _ hfull ih =>
    have hlen : (blk ++ [x]).length = 254 := by simpa using hfull
    have hblock := cobsDecode_block (Nat.le_of_eq hlen) (cobsFrom_ne_nil [] rest)
    rw [ih (Nat.zero_le _), hlen] at hblock
    simpa using hblock
  | case4 blk x rest _ hfull ih => simpa using ih (by simp; omega)

/-- Settles O27: the encoder starts with nothing gathered. -/
theorem cobsDecodeUndoesCobs : Obligations.CobsDecodeUndoesCobs := by
  unfold Obligations.CobsDecodeUndoesCobs
  exact fun p => cobsDecode_cobsFrom [] p (Nat.zero_le _)

theorem codeByte_ne_zero {n : Nat} (hn : n ≤ 254) : BitVec.ofNat 8 (n + 1) ≠ 0x00#8 := by
  intro h
  have := congrArg BitVec.toNat h
  simp only [BitVec.toNat_ofNat] at this
  omega

theorem zero_notMem_cobsFrom (blk p : List Byte) (hblk : blk.length ≤ 253) (hz : 0x00#8 ∉ blk) :
    0x00#8 ∉ cobsFrom blk p := by
  fun_induction cobsFrom blk p with
  | case1 blk =>
    have hcode := (codeByte_ne_zero (Nat.le_succ_of_le hblk)).symm
    exact List.not_mem_cons_of_ne_of_not_mem hcode hz
  | case2 blk rest ih =>
    have hcode := (codeByte_ne_zero (Nat.le_succ_of_le hblk)).symm
    have hrest := ih (Nat.zero_le _) List.not_mem_nil
    simp [hcode, hz, hrest]
  | case3 blk x rest hx _ ih =>
    have hrest := ih (Nat.zero_le _) List.not_mem_nil
    simp [hz, Ne.symm hx, hrest]
  | case4 blk x rest hx hfull ih => exact ih (by simp; omega) (by simp [hz, Ne.symm hx])

/-- Short of 254 bytes no full block arises, and each zero is exchanged for the code byte of the next block. -/
theorem length_cobsFrom (blk p : List Byte) (h : blk.length + p.length ≤ 253) :
    (cobsFrom blk p).length = blk.length + p.length + 1 := by
  fun_induction cobsFrom blk p with
  | case1 blk => simp
  | case2 blk rest ih =>
    simp only [List.length_cons] at h
    simp only [List.length_cons, List.length_append, ih (by simp; omega), List.length_nil]
    omega
  | case3 blk x rest _ hfull => simp only [List.length_cons] at h; omega
  | case4 blk x rest _ _ ih =>
    simp only [List.length_cons] at h
    rw [ih (by simp; omega)]
    simp
    omega

/-- Settles O28. -/
theorem stuffedPartIsZeroFree : Obligations.StuffedPartIsZeroFree := by
  unfold Obligations.StuffedPartIsZeroFree
  refine ⟨fun p => zero_notMem_cobsFrom [] p (Nat.zero_le _) List.not_mem_nil, fun p hp => ?_⟩
  simpa [cobsEncode] using length_cobsFrom [] p (by simpa using hp)

end Sys2Proof

/-! ## The default deserializer and the payloads of commands undo each other (R92 to R101, R162) -/

namespace Sys2Proof

theorem deserPllChange_fieldBytes (c : PllChange) :
    deserPllChange (fieldBytes (.pushPllChange c)) = .ok (.pushPllChange c) := by
  obtain ⟨forTicks, startTick, divn, vcosel, divp, timUs⟩ := c
  simp only [fieldBytes, bytes32, bytes16, List.cons_append, List.nil_append, deserPllChange, le32_bytes32,
    le16_bytes16]
  cases vcosel <;> rfl

theorem deserFracn_fieldBytes {count : Byte} {values : List U16} (h : wellFormed (.pushFracn count values) = true) :
    deserFracn (fieldBytes (.pushFracn count values)) = .ok (.pushFracn count values) := by
  simp only [wellFormed, countInRange, allSlotsPresent, Bool.and_eq_true, decide_eq_true_eq, beq_iff_eq] at h
  obtain ⟨hcount, hslots⟩ := h
  have hlen : (values.flatMap bytes16).length = 2 * chunk := by rw [length_flatMap_bytes16, hslots]
  simp only [fieldBytes, deserFracn, hlen, ne_eq, not_true, if_false, Nat.not_lt.2 hcount, le16s_flatMap_bytes16]

theorem deser_payload {i : Instr} (h : wellFormed i = true) : deser (payload i) = .ok i := by
  cases i with
  | ping => rfl
  | pushPllChange change => exact deserPllChange_fieldBytes change
  | pushFracn count values => exact deserFracn_fieldBytes h
  | clearBuffers => rfl
  | uploadDone => rfl
  | startNow => rfl
  | stopNow => rfl
  | setLooping payload => rfl
  | epochNow payload => rfl
  | startAtEpoch payload => rfl

/-- Settles O30: unstuffing gives the payload back (O27), and the deserializer reads it. -/
theorem decodeUndoesEncode : Obligations.DecodeUndoesEncode := by
  unfold Obligations.DecodeUndoesEncode
  intro i hi
  have hcobs : cobsDecode (encode i) = some (payload i) := cobsDecodeUndoesCobs (payload i)
  have hne : encode i ≠ [] := cobsFrom_ne_nil [] (payload i)
  simp only [decodeFrame, hne, if_false, hcobs, deserBy]
  exact deser_payload hi

theorem deserBare_eq_ok {cmd i : Instr} {fields : List Byte} (h : deserBare cmd fields = .ok i) :
    fields = [] ∧ i = cmd := by
  unfold deserBare at h
  split at h
  · next hnil => cases h; exact ⟨hnil, rfl⟩
  · cases h

theorem vcosel_byte {v : Byte} (hv : ¬ 1 < v.toNat) : (if v == 0x01#8 then 0x01#8 else 0x00#8) = v := by
  obtain h | h : v.toNat = 0 ∨ v.toNat = 1 := by omega
  · obtain rfl : v = 0x00#8 := BitVec.eq_of_toNat_eq h
    rfl
  · obtain rfl : v = 0x01#8 := BitVec.eq_of_toNat_eq h
    rfl

theorem deserPllChange_eq_ok {i : Instr} {fields : List Byte} (h : deserPllChange fields = .ok i) :
    ∃ c, i = .pushPllChange c ∧ fields = fieldBytes i := by
  unfold deserPllChange at h
  split at h
  · split at h
    · cases h
    · next hv =>
      cases h
      refine ⟨_, rfl, ?_⟩
      simp only [fieldBytes, bytes32_le32, bytes16_le16, vcosel_byte hv, List.cons_append, List.nil_append]
  · cases h

theorem deserFracn_eq_ok {i : Instr} {fields : List Byte} (h : deserFracn fields = .ok i) :
    ∃ count values, i = .pushFracn count values ∧ fields = fieldBytes i := by
  unfold deserFracn at h
  split at h
  · cases h
  · next count slots =>
    split at h
    · cases h
    · next hlen =>
      split at h
      · cases h
      · cases h
        obtain ⟨hbytes, -⟩ := flatMap_bytes16_le16s chunk slots (Decidable.not_not.1 hlen)
        exact ⟨_, _, rfl, by rw [fieldBytes, hbytes]⟩

theorem eq_payload_of_deserBare {cmd i : Instr} {fields : List Byte} (hcmd : fieldBytes cmd = [])
    (h : deserBare cmd fields = .ok i) : tagOf cmd :: fields = payload i := by
  obtain ⟨rfl, rfl⟩ := deserBare_eq_ok h
  rw [payload, hcmd]

/-- Tag by tag, in the order of R100. -/
theorem eq_payload_of_deser {p : List Byte} {i : Instr} (h : deser p = .ok i) : p = payload i := by
  unfold deser at h
  split at h
  · cases h
  · next tag fields =>
    split at h
    · next htag => rw [htag]; exact eq_payload_of_deserBare rfl h
    split at h
    · next htag => obtain ⟨c, rfl, rfl⟩ := deserPllChange_eq_ok h; rw [htag]; rfl
    split at h
    · next htag => obtain ⟨count, values, rfl, rfl⟩ := deserFracn_eq_ok h; rw [htag]; rfl
    split at h
    · next htag => rw [htag]; exact eq_payload_of_deserBare rfl h
    split at h
    · next htag => rw [htag]; exact eq_payload_of_deserBare rfl h
    split at h
    · next htag => rw [htag]; exact eq_payload_of_deserBare rfl h
    split at h
    · next htag => rw [htag]; exact eq_payload_of_deserBare rfl h
    split at h
    · next htag => cases h; rw [htag]; rfl
    split at h
    · next htag => cases h; rw [htag]; rfl
    split at h
    · next htag => cases h; rw [htag]; rfl
    · cases h

/-- Settles O31. -/
theorem acceptedPayloadsAreCanonical : Obligations.AcceptedPayloadsAreCanonical := by
  unfold Obligations.AcceptedPayloadsAreCanonical
  exact fun _ _ h => ⟨eq_payload_of_deser h, deser_wellFormed h⟩

end Sys2Proof

/-! ## The illegal frames (R101), and the words of the spec (R93 to R95) -/

namespace Sys2Proof

theorem deser_of_tag_ge {tag : Byte} (h : 0x0A ≤ tag.toNat) (fields : List Byte) :
    deser (tag :: fields) = .reject .unknownTag := by
  have hne (k : Byte) (hk : k.toNat < 0x0A) : tag ≠ k := by rintro rfl; omega
  simp [deser, hne]

theorem deserBare_of_ne_nil (cmd : Instr) {fields : List Byte} (h : fields ≠ []) :
    deserBare cmd fields = .reject .wrongLength := if_neg h

theorem deserPllChange_of_length_ne {fields : List Byte} (h : fields.length ≠ 16) :
    deserPllChange fields = .reject .wrongLength := by
  unfold deserPllChange
  split
  · exact absurd rfl h
  · rfl

theorem deserFracn_of_length_ne {fields : List Byte} (h : fields.length ≠ 65) :
    deserFracn fields = .reject .wrongLength := by
  cases fields with
  | nil => rfl
  | cons count slots =>
    have hslots : slots.length ≠ 2 * chunk := by simpa [chunk] using h
    simp [deserFracn, hslots]

/-- The tags with a fixed payload length (R100). -/
theorem fixedLength_eq_some {tag : Byte} {n : Nat} (h : fixedLength tag.toNat = some n) :
    (tag = 0x01#8 ∧ n = 17) ∨ (tag = 0x02#8 ∧ n = 66) ∨
      (tag = 0x00#8 ∨ tag = 0x03#8 ∨ tag = 0x04#8 ∨ tag = 0x05#8 ∨ tag = 0x06#8) ∧ n = 1 := by
  simp only [← BitVec.toNat_inj, BitVec.toNat_ofNat]
  unfold fixedLength at h
  split at h
  · next htag => cases h; exact .inl ⟨htag, rfl⟩
  split at h
  · next htag => cases h; exact .inr (.inl ⟨htag, rfl⟩)
  split at h
  · cases h; omega
  · cases h

theorem deser_of_length_ne {tag : Byte} {fields : List Byte} {n : Nat} (hn : fixedLength tag.toNat = some n)
    (h : (tag :: fields).length ≠ n) : deser (tag :: fields) = .reject .wrongLength := by
  obtain ⟨rfl, rfl⟩ | ⟨rfl, rfl⟩ | ⟨hbare, rfl⟩ := fixedLength_eq_some hn
  · exact deserPllChange_of_length_ne (by simpa using h)
  · exact deserFracn_of_length_ne (by simpa using h)
  · have hne : fields ≠ [] := by simpa using h
    obtain rfl | rfl | rfl | rfl | rfl := hbare <;> exact deserBare_of_ne_nil _ hne

theorem deserPllChange_of_bad_vcosel {fields : List Byte} {v : Byte} (hlen : fields.length = 16)
    (hv : fields[10]? = some v) (hbad : 1 < v.toNat) : deserPllChange fields = .reject .badVcosel := by
  match fields, hlen with
  | [_, _, _, _, _, _, _, _, _, _, _, _, _, _, _, _], _ =>
    cases hv
    exact if_pos hbad

theorem deserFracn_of_bad_count {count : Byte} {slots : List Byte} (hlen : slots.length = 64)
    (hbad : 32 < count.toNat) : deserFracn (count :: slots) = .reject .badCount := by
  simp [deserFracn, chunk, hlen, hbad]

theorem decodeFrame_of_malformed {e : List Byte} (hne : e ≠ []) (h : cobsDecode e = none) (choice : DeserChoice) :
    decodeFrame choice e = .reject .malformedStuffing := by
  simp [decodeFrame, hne, h]

/-- Settles O32. -/
theorem illegalFramesAreRejected : Obligations.IllegalFramesAreRejected := by
  unfold Obligations.IllegalFramesAreRejected
  exact ⟨rfl, fun _ hne h => decodeFrame_of_malformed hne h _, rfl, fun _ fields h => deser_of_tag_ge h fields,
    fun _ _ _ hn h => deser_of_length_ne hn h, fun _ _ hlen hv hbad => deserPllChange_of_bad_vcosel hlen hv hbad,
    fun _ _ hlen hbad => deserFracn_of_bad_count hlen hbad⟩

/-- Settles O34: five runs of the whole decoder on words written out by hand. -/
theorem wordsOfTheSpecDecode : Obligations.WordsOfTheSpecDecode := by
  unfold Obligations.WordsOfTheSpecDecode
  exact ⟨by decide, by decide, by decide, by decide, by decide⟩

end Sys2Proof

/-! ## The ring: `RingWrite`, `RingRead` and `RX` (R131 to R137) -/

namespace Sys2Proof.Machine

theorem ringAccepts_of_fits {s : State} {data : List Byte} (h : s.ringCount + data.length ≤ s.config.ringCap) :
    ringAccepts s data = data.length :=
  Nat.min_eq_left (Nat.le_sub_of_add_le' h)

theorem ringWrite_of_fits {s : State} {data : List Byte} (h : s.ringCount + data.length ≤ s.config.ringCap) :
    ringWrite s data =
      { s with ringMem := ringStore s.config.ringCap s.ringMem s.ringWr data,
               ringWr := (s.ringWr + data.length) % s.config.ringCap, ringCount := s.ringCount + data.length } := by
  simp [ringWrite, ringAccepts_of_fits h]

theorem ringStore_mod (cap : Nat) (m : Memory) (i : Nat) (data : List Byte) :
    ringStore cap m (i % cap) data = ringStore cap m i data := by
  induction data generalizing m i with
  | nil => rfl
  | cons b rest ih =>
    rw [ringStore, ringStore, Nat.mod_mod, ← ih _ (i % cap + 1), Nat.mod_add_mod, ih]

/-- A byte written and then more, all of which fit, are one write. -/
theorem ringWrite_cons {s : State} {b : Byte} {rest : List Byte}
    (h : s.ringCount + (rest.length + 1) ≤ s.config.ringCap) :
    ringWrite s (b :: rest) = ringWrite (ringWrite s [b]) rest := by
  rw [ringWrite_of_fits (data := b :: rest) h, ringWrite_of_fits (data := [b]) (by simp; omega),
    ringWrite_of_fits (by simp; omega)]
  simp [ringStore, ringStore_mod, Nat.add_assoc, Nat.add_comm 1]

theorem ringUnread_of_empty {s : State} (h : s.ringCount = 0) : ringUnread s = some [] :=
  ringUnread_eq_some.2 ⟨h.symm, by simp⟩

theorem InvRing.ringWr_mod {s : State} (h : InvRing s) : s.ringWr % s.config.ringCap = s.ringWr := by
  obtain ⟨-, -, -, hwr, -⟩ := h
  rw [hwr, Nat.mod_mod]

theorem InvRing.ringWr_of_empty {s : State} (h : InvRing s) (h0 : s.ringCount = 0) : s.ringWr = s.ringRd := by
  obtain ⟨-, hrd, -, hwr, -⟩ := h
  rw [hwr, h0, Nat.add_zero, Nat.mod_eq_of_lt hrd]

theorem upTo_take_isPrefix (delim : Option Byte) (u : List Byte) (max : Nat) : upTo delim (u.take max) <+: u :=
  (upTo_isPrefix delim _).trans (List.take_prefix max u)

theorem upTo_of_notMem {d : Byte} {l : List Byte} (h : d ∉ l) (rest : List Byte) :
    upTo (some d) (l ++ d :: rest) = l ++ [d] := by
  induction l with
  | nil => simp [upTo]
  | cons b l ih =>
    simp only [List.mem_cons, not_or] at h
    simp [upTo, h.1, ih h.2]

/-- Settles O19: of the accepted bytes each stands at its own index, as there are no more than `RING_CAP`. -/
theorem ringWriteStoresWhatFits : Obligations.RingWriteStoresWhatFits := by
  unfold Obligations.RingWriteStoresWhatFits
  intro s data _ k
  have hlen : (data.take k).length = k := List.length_take_of_le (Nat.min_le_left _ _)
  have hfit : k ≤ s.config.ringCap := (Nat.min_le_right _ _).trans (Nat.sub_le _ _)
  refine ⟨rfl, fun j hj hjk => ?_, fun i hi => ?_, rfl, rfl, rfl⟩
  · have hstored := memRead_ringStore (m := s.ringMem) (i := s.ringWr) (hlen.symm ▸ hfit) (hlen.symm ▸ hjk)
    rwa [List.getElem_take] at hstored
  · exact memRead_ringStore_ne fun j hj => (hi j (hlen ▸ hj)).symm

/-- Settles O20: a read with a delimiter returns a first part of the unread bytes, and what it advances over is that. -/
theorem ringReadTakesUpToTheDelimiter : Obligations.RingReadTakesUpToTheDelimiter := by
  unfold Obligations.RingReadTakesUpToTheDelimiter
  intro s u max delim _ hu
  have hle := (upTo_take_isPrefix delim u max).length_le
  exact ⟨_, _, ringRead_eq hu max delim, rfl, ringUnread_ringAdvance hu hle, rfl, rfl, rfl⟩

/-- What was unread before and what the writes accept is what the reads return and what is unread afterwards. -/
theorem runRing_delivers (ops : List RingOp) {s : State} (h : InvRing s) {u : List Byte} (hu : ringUnread s = some u) :
    ∃ accepted returned t v,
      runRing ops s = some (accepted, returned, t) ∧ ringUnread t = some v ∧ u ++ accepted = returned ++ v := by
  induction ops generalizing s u with
  | nil => exact ⟨[], [], s, u, rfl, hu, List.append_nil u⟩
  | cons op ops ih =>
    cases op with
    | write data =>
      obtain ⟨accepted, returned, t, v, hrun, hv, heq⟩ := ih (h.write data) (ringUnread_ringWrite h hu data)
      refine ⟨data.take (ringAccepts s data) ++ accepted, returned, t, v, by simp [runRing, hrun], hv, ?_⟩
      rw [← List.append_assoc, heq]
    | read max delim =>
      have hpre := upTo_take_isPrefix delim u max
      have hcount := (ringUnread_eq_some.1 hu).1 ▸ hpre.length_le
      obtain ⟨accepted, returned, t, v, hrun, hv, heq⟩ :=
        ih (h.advance hcount) (ringUnread_ringAdvance hu hpre.length_le)
      refine ⟨accepted, upTo delim (u.take max) ++ returned, t, v, by simp [runRing, ringRead_eq hu, hrun], hv, ?_⟩
      rw [List.append_assoc, ← heq, ← List.append_assoc, List.prefix_iff_eq_append.1 hpre]

/-- Settles O21: at first nothing is unread. -/
theorem ringDeliversBytesInOrder : Obligations.RingDeliversBytesInOrder := by
  unfold Obligations.RingDeliversBytesInOrder
  exact fun ops _ h h0 => runRing_delivers ops h (ringUnread_of_empty h0)

theorem ready_iff {s : State} : ready s = true ↔ s.halted = false ∧ s.phase = .normal := by
  simp [ready, interruptsEnabled]

theorem act_rx_cons {s : State} {b : Byte} {rest : List Byte} (hr : ready s = true) (hl : s.line = b :: rest) :
    act .rx s = .next (receiveByte b { s with line := rest }) := by
  have hen : enabled .rx s = true := by simp [enabled, hr, hl]
  simp [act_enabled hen, fire, receiveNext, hl]

theorem act_rx_of_room {s : State} {b : Byte} {rest : List Byte} (hr : ready s = true) (hl : s.line = b :: rest)
    (h : s.ringCount < s.config.ringCap) : act .rx s = .next (ringWrite { s with line := rest } [b]) := by
  have hk : ringAccepts { s with line := rest } [b] = 1 := ringAccepts_of_fits h
  rw [act_rx_cons hr hl, receiveByte, hk]
  rfl

theorem act_rx_of_full {s : State} {b : Byte} {rest : List Byte} (hr : ready s = true) (hl : s.line = b :: rest)
    (h : s.ringCount = s.config.ringCap) : act .rx s = .next (raiseFault .ringOverflow { s with line := rest }) := by
  rw [act_rx_cons hr hl]
  simp [receiveByte, ringAccepts, ringFree, h]

/-- Settles O13: a ring with room accepts the one byte (R131), a full one accepts none. -/
theorem receiveStoresTheByteOrOverflows : Obligations.ReceiveStoresTheByteOrOverflows := by
  unfold Obligations.ReceiveStoresTheByteOrOverflows
  intro s b rest u hinv hu hhalt hphase hline
  have hr : ready s = true := ready_iff.2 ⟨hhalt, hphase⟩
  refine ⟨fun hroom => ?_, act_rx_of_full hr hline⟩
  have hk : ringAccepts { s with line := rest } [b] = 1 := ringAccepts_of_fits hroom
  have hunread := ringUnread_ringWrite (s := { s with line := rest }) hinv hu [b]
  have hmem : (ringWrite { s with line := rest } [b]).ringMem = memWrite s.ringMem s.ringWr b := by
    simp [hk, ringStore, hinv.ringWr_mod]
  refine ⟨_, act_rx_of_room hr hline hroom, rfl, by simpa [hk] using hunread, ?_, fun i hi => ?_, by simp [hk],
    by simp [hk], rfl, rfl⟩
  · rw [hmem]
    exact memRead_memWrite_same _ _ _
  · rw [hmem]
    exact memRead_memWrite_ne _ _ hi

end Sys2Proof.Machine

/-! ## A frame from the host to its command (R136, R151, R155, R165, R230) -/

namespace Sys2Proof.Machine

/-- `RX`, byte by byte, of bytes the ring has room for is one `RingWrite` of them all. -/
theorem acts_rx_of_fits {bytes : List Byte} {s : State} (h : InvRing s) (hr : ready s = true)
    (hfit : s.ringCount + bytes.length ≤ s.config.ringCap) :
    acts (List.replicate bytes.length .rx) { s with line := bytes } = .next { ringWrite s bytes with line := [] } := by
  induction bytes generalizing s with
  | nil =>
    rw [ringWrite_of_fits hfit]
    simp [acts, ringStore, h.ringWr_mod]
  | cons b rest ih =>
    simp only [List.length_cons] at hfit
    have hk : ringAccepts s [b] = 1 := ringAccepts_of_fits (by simp; omega)
    have hfirst : act .rx { s with line := b :: rest } = .next { ringWrite s [b] with line := rest } :=
      act_rx_of_room (s := { s with line := b :: rest }) hr rfl (show s.ringCount < s.config.ringCap by omega)
    have hrest := ih (h.write [b]) hr (by simp [hk]; omega)
    rw [List.length_cons, List.replicate_succ, acts, hfirst, andThen_next, hrest, ringWrite_cons hfit]

theorem zero_notMem_encode (i : Instr) : 0x00#8 ∉ encode i := stuffedPartIsZeroFree.1 (payload i)

/-- Frame assembly of a whole frame that fits the empty message buffer: the command is acked and queued (R155, R165). -/
theorem linkAcceptAll_encoded_frame {i : Instr} {s : State} (hi : wellFormed i = true) (hd : s.config.deser = .standard)
    (hfit : (encode i).length ≤ s.config.msgCap) (hlen : s.msgLen = 0) (ho : s.msgOvf = false) :
    ∃ buf, linkAcceptAll (frame i) s =
      .next { s with msgBuf := buf, trace := s.trace ++ [.uartTx 0x01#8], pendingCmd := some i } := by
  obtain ⟨buf, hrun, hbuf, -⟩ := linkAcceptAll_of_fits (zero_notMem_encode i) ho (by omega)
  have hread : memReadRange buf 0 (encode i).length = some (encode i) :=
    memReadRange_eq_some.2 fun j hj => hlen ▸ hbuf j hj
  refine ⟨buf, ?_⟩
  rw [frame, linkAcceptAll_append, hrun, andThen_next, linkAcceptAll_cons, linkAccept_zero]
  simp [frameEnd, ho, hlen, hread, hd, decodeUndoesEncode i hi, answerFrame, resetAssembly, setMsgOvf, reply, emit,
    ackByte]

/-- A drain of a ring that holds one frame hands the whole frame to frame assembly (R151). -/
theorem drain_encoded_frame {i : Instr} {s : State} (hu : ringUnread s = some (frame i)) :
    drain (frame i).length s = linkAcceptAll (frame i) (ringAdvance s (frame i).length) := by
  have hwhole : upTo (some 0x00#8) (frame i) = frame i := upTo_of_notMem (zero_notMem_encode i) []
  rw [drain, ringRead_eq hu, List.take_length, hwhole]

theorem act_drain_of_ready {n : Nat} {s : State} (hr : ready s = true) (hp : s.pendingCmd = none)
    (hc : 0 < s.ringCount) (hn : 1 ≤ n) : act (.drain n) s = drain n s :=
  act_enabled (by simp [enabled, hr, hp, hc, hn])

theorem act_dispatch_of_ready {i : Instr} {s : State} (hr : ready s = true) (hp : s.pendingCmd = some i) :
    act .dispatch s = exec i { s with pendingCmd := none } := by
  have hen : enabled .dispatch s = true := by simp [enabled, hr, hp]
  simp [act_enabled hen, fire, dispatch, hp]

theorem acts_singleton (a : Action) (s : State) : acts [a] s = act a s := by
  rw [acts]
  cases act a s <;> rfl

/-- From the frame in the ring on: one drain assembles and acks it, and the dispatch executes its command. -/
theorem acts_drain_dispatch {i : Instr} {s : State} (hr : ready s = true) (hu : ringUnread s = some (frame i))
    (hi : wellFormed i = true) (hd : s.config.deser = .standard) (hfit : (encode i).length ≤ s.config.msgCap)
    (hp : s.pendingCmd = none) (hlen : s.msgLen = 0) (ho : s.msgOvf = false) :
    ∃ buf, acts [.drain (frame i).length, .dispatch] s =
      exec i { ringAdvance s (frame i).length with msgBuf := buf, trace := s.trace ++ [.uartTx 0x01#8] } := by
  obtain ⟨buf, hlink⟩ := linkAcceptAll_encoded_frame (s := ringAdvance s (frame i).length) hi hd hfit hlen ho
  have hpos : 0 < (frame i).length := by simp [frame]
  have hcount : 0 < s.ringCount := (ringUnread_eq_some.1 hu).1 ▸ hpos
  refine ⟨buf, ?_⟩
  rw [acts, act_drain_of_ready hr hp hcount hpos, drain_encoded_frame hu, hlink, andThen_next, acts_singleton]
  refine Eq.trans (act_dispatch_of_ready hr rfl) ?_
  rw [← hp]
  rfl

/-- Settles O26: `RX` is one `RingWrite` of the frame, the drain assembles the frame, the dispatch takes the command. -/
theorem sentFrameIsAckedThenExecuted : Obligations.SentFrameIsAckedThenExecuted := by
  unfold Obligations.SentFrameIsAckedThenExecuted
  intro i s hq hinv hi hd hmsg hring
  obtain ⟨hhalt, hphase, hcount, hlen, ho, hp, hline⟩ := hq
  have hr : ready s = true := ready_iff.2 ⟨hhalt, hphase⟩
  have hfit : s.ringCount + (frame i).length ≤ s.config.ringCap := by omega
  have hrx := acts_rx_of_fits hinv hr hfit
  have hsent : act (.hostSend (frame i)) s = .next { s with line := frame i } := by
    simp [act, enabled, fire, sendBytes, hline]
  have hu : ringUnread (ringWrite s (frame i)) = some (frame i) := by
    simpa [ringAccepts_of_fits hfit] using ringUnread_ringWrite hinv (ringUnread_of_empty hcount) (frame i)
  obtain ⟨buf, hexec⟩ :=
    acts_drain_dispatch (s := { ringWrite s (frame i) with line := [] }) hr hu hi hd hmsg hp hlen ho
  refine ⟨(ringWrite s (frame i)).ringMem, buf, (ringWrite s (frame i)).ringWr, ?_⟩
  rw [List.cons_append, acts, hsent, andThen_next, acts_append, hrx, andThen_next, hexec, ringWrite_of_fits hfit]
  simp [ringAdvance, hinv.ringWr_of_empty hcount, hline]

end Sys2Proof.Machine

/-! ## Frame assembly byte by byte (R151 to R155, R165) -/

namespace Sys2Proof.Machine

/-- Settles O25: the frame of a well-formed command holds one terminator, at its end, and its encoded part decodes. -/
theorem frameRoundTripThroughTheLink : Obligations.FrameRoundTripThroughTheLink := by
  unfold Obligations.FrameRoundTripThroughTheLink
  exact fun i s hi hfit hd hlen ho => linkAcceptAll_encoded_frame hi hd hfit hlen ho

theorem acceptByte_of_fits (b : Byte) {s : State} (ho : s.msgOvf = false) (hl : s.msgLen < s.config.msgCap) :
    acceptByte b s = { s with msgBuf := memWrite s.msgBuf s.msgLen b, msgLen := s.msgLen + 1 } := by
  simp [acceptByte, ho, hl]

theorem acceptByte_of_full (b : Byte) {s : State} (ho : s.msgOvf = false) (hl : s.config.msgCap ≤ s.msgLen) :
    acceptByte b s = { s with msgOvf := true } := by
  simp [acceptByte, ho, Nat.not_lt.2 hl, setMsgOvf]

theorem acceptByte_of_overflowed (b : Byte) {s : State} (ho : s.msgOvf = true) : acceptByte b s = s := by
  simp [acceptByte, ho]

theorem frameEnd_of_overflowed {s : State} (ho : s.msgOvf = true) :
    frameEnd s = .next { s with trace := s.trace ++ [.uartTx 0x00#8], msgLen := 0, msgOvf := false } := by
  rw [frameEnd, if_pos ho]
  rfl

/-- The end of a frame that fitted: its bytes are decoded and answered, and `msg_ovf` stays clear (R155). -/
theorem frameEnd_of_assembled {s : State} {e : List Byte} (ho : s.msgOvf = false)
    (he : memReadRange s.msgBuf 0 s.msgLen = some e) :
    frameEnd s = .next { answerFrame (decodeFrame s.config.deser e) s with msgLen := 0, msgOvf := s.msgOvf } := by
  simp only [frameEnd, ho, he, Bool.false_eq_true, if_false]
  rfl

/-- Settles O24: an overflow nacks without decoding, and otherwise the decoder's answer decides (R155, R157). -/
theorem frameEndRepliesAndQueues : Obligations.FrameEndRepliesAndQueues := by
  unfold Obligations.FrameEndRepliesAndQueues
  intro s e he
  rw [linkAccept_zero]
  refine ⟨fun i ho hi => ?_, fun why ho hr => ?_, frameEnd_of_overflowed⟩
  · rw [frameEnd_of_assembled ho he, hi]
    rfl
  · rw [frameEnd_of_assembled ho he, hr]
    rfl

/-- Settles O22: the three cases of R152, R153 and R154, and the overflowed frame's end (R155). -/
theorem linkAssemblesTheFrame : Obligations.LinkAssemblesTheFrame := by
  unfold Obligations.LinkAssemblesTheFrame
  intro b s hb
  rw [linkAccept_of_ne hb]
  refine ⟨fun ho hl => ?_, fun ho hl => ⟨?_, ?_⟩, fun ho => ?_⟩
  · rw [acceptByte_of_fits b ho hl]
    exact ⟨_, rfl, memRead_memWrite_same _ _ _, fun i hi => memRead_memWrite_ne _ _ hi, rfl, rfl⟩
  · rw [acceptByte_of_full b ho (Nat.le_of_eq hl.symm)]
  · rw [linkAccept_zero, frameEnd_of_overflowed rfl]
  · rw [acceptByte_of_overflowed b ho]

/-- Settles O23: the drain's `RingRead` advances over the bytes it hands on. -/
theorem drainFeedsTheLink : Obligations.DrainFeedsTheLink := by
  unfold Obligations.DrainFeedsTheLink
  intro s n u hhalt hphase hp hu hn hcount
  have hact := act_drain_of_ready (ready_iff.2 ⟨hhalt, hphase⟩) hp (Nat.lt_of_lt_of_le hn hcount) hn
  have hle := (upTo_take_isPrefix (some 0x00#8) u n).length_le
  refine ⟨ringAdvance s (upTo (some 0x00#8) (u.take n)).length, ?_, ringUnread_ringAdvance hu hle, rfl, rfl, rfl⟩
  rw [hact, drain, ringRead_eq hu]

end Sys2Proof.Machine

/-! ## The replies (R158, R164) -/

namespace Sys2Proof.Machine

/-- From `s` to `t` the block sends `n` replies, each an ack or a nack. -/
def AddsReplies (n : Nat) (s t : State) : Prop :=
  ∃ replies, t.txStream = s.txStream ++ replies ∧ replies.length = n ∧ ∀ r ∈ replies, r = ackByte ∨ r = nackByte

theorem txStream_congr {s t : State} (h : t.trace = s.trace) : t.txStream = s.txStream := by
  rw [State.txStream, h, State.txStream]

theorem AddsReplies.none {s t : State} (h : t.trace = s.trace) : AddsReplies 0 s t :=
  ⟨[], by rw [txStream_congr h, List.append_nil], rfl, by simp⟩

theorem AddsReplies.one {s t : State} {b : Byte} (h : t.trace = s.trace ++ [.uartTx b])
    (hb : b = ackByte ∨ b = nackByte) : AddsReplies 1 s t :=
  ⟨[b], by simp [State.txStream, h, PortEvent.txByte], rfl, by simpa using hb⟩

theorem AddsReplies.trans {m n : Nat} {s t u : State} (h : AddsReplies m s t) (h' : AddsReplies n t u) :
    AddsReplies (m + n) s u := by
  obtain ⟨rs, hst, hlen, hrs⟩ := h
  obtain ⟨rs', htu, hlen', hrs'⟩ := h'
  refine ⟨rs ++ rs', by rw [htu, hst, List.append_assoc], by rw [List.length_append, hlen, hlen'], fun r hr => ?_⟩
  exact (List.mem_append.1 hr).elim (hrs r) (hrs' r)

theorem frameEnd_addsReplies {s t : State} (h : frameEnd s = .next t) : AddsReplies 1 s t := by
  rcases frameEnd_cases h with ⟨-, rfl⟩ | ⟨-, e, -, ⟨i, -, rfl⟩ | ⟨why, -, rfl⟩⟩
  · exact .one rfl (.inr rfl)
  · exact .one rfl (.inl rfl)
  · exact .one rfl (.inr rfl)

theorem linkAccept_addsReplies {b : Byte} {s t : State} (h : linkAccept b s = .next t) :
    AddsReplies ([b].count 0x00#8) s t := by
  by_cases hb : b = 0x00#8
  · rw [hb, linkAccept_zero] at h
    rw [hb]
    exact frameEnd_addsReplies h
  · rw [linkAccept_of_ne hb] at h
    cases h
    rw [List.count_singleton, if_neg (by simpa using hb)]
    exact .none (acceptByte_trace b s)

theorem linkAcceptAll_addsReplies {bytes : List Byte} {s t : State} (h : linkAcceptAll bytes s = .next t) :
    AddsReplies (bytes.count 0x00#8) s t := by
  induction bytes generalizing s with
  | nil => cases h; exact .none rfl
  | cons b bytes ih =>
    obtain ⟨u, hu, ht⟩ := andThen_eq_next.1 h
    rw [← List.singleton_append, List.count_append]
    exact (linkAccept_addsReplies hu).trans (ih ht)

/-! ### The events of the synthesizer and the timer are no replies -/

@[simp] theorem programChange_txStream (o : Origin) (c : PllChange) (v : U16) (s : State) :
    (programChange o c v s).txStream = s.txStream := by
  simp [State.txStream, PortEvent.txByte]

@[simp] theorem lockDone_txStream (c : PllChange) (s : State) : (lockDone c s).txStream = s.txStream := by
  simp [State.txStream, PortEvent.txByte]

@[simp] theorem stop_txStream (s : State) : (stop s).txStream = s.txStream := by
  rw [State.txStream, stop_trace]
  split <;> simp [State.txStream, PortEvent.txByte]

theorem stepSeq_txStream {o : Origin} {s t : State} (h : stepSeq o s = .next t) : t.txStream = s.txStream := by
  rcases stepSeq_cases h with ⟨-, -, rfl⟩ | ⟨-, hplay⟩
  · rfl
  · rw [← txStream_congr (advance_trace s)]
    rcases playCurrent_cases hplay with ⟨-, rfl⟩ | ⟨c, -, -, rfl⟩ | ⟨c, -, -, -, rfl⟩ | ⟨c, v, -, -, -, -, rfl⟩
    · rfl
    · rfl
    · rfl
    · exact programChange_txStream o c v _

theorem exec_txStream {i : Instr} {s t : State} (h : exec i s = .next t) : t.txStream = s.txStream := by
  cases exec_effect h with
  | unchanged => rfl
  | faulted => rfl
  | pushed v => exact txStream_congr (setB_trace _ v)
  | cleared => exact txStream_congr (setB_trace s _)
  | closed => rfl
  | stopped => exact stop_txStream s
  | launched _ hstep => exact (stepSeq_txStream hstep).trans (stop_txStream s)

theorem tickHandler_txStream {s t : State} (h : tickHandler s = .next t) : t.txStream = s.txStream := by
  rw [← txStream_congr (expireOneshot_trace s)]
  rcases tickHandler_cases h with ⟨-, rfl⟩ | ⟨-, -, hstep⟩ | ⟨-, -, happly⟩
  · rfl
  · exact stepSeq_txStream hstep
  · obtain ⟨v, -, -, rfl⟩ := applyNext_cases happly
    simp [State.txStream, PortEvent.txByte]

theorem act_txStream {a : Action} {s t : State} (h : act a s = .next t) (ha : ∀ n, a ≠ .drain n) :
    t.txStream = s.txStream := by
  rcases act_cases h with ⟨-, rfl⟩ | ⟨-, hfire⟩
  · rfl
  cases a with
  | hostSend bytes => cases hfire; rfl
  | rx => cases hfire; exact txStream_congr (congrArg State.trace (receiveNext_frame s) :)
  | drain n => exact absurd rfl (ha n)
  | dispatch =>
    rcases dispatch_cases hfire with rfl | ⟨i, -, hexec⟩
    · rfl
    · exact (exec_txStream hexec :)
  | tick => exact tickHandler_txStream hfire
  | lock =>
    cases hfire
    rcases lockStep_cases s with he | ⟨o, c, -, he⟩ <;> rw [he]
    exact lockDone_txStream c s

/-- Settles O18: only the frame end appends to the transmit stream (R155), and only a drain reaches it. -/
theorem oneReplyPerFrame : Obligations.OneReplyPerFrame := by
  unfold Obligations.OneReplyPerFrame
  exact ⟨fun _ _ _ h => linkAcceptAll_addsReplies h, fun _ _ _ h ha => act_txStream h ha⟩

end Sys2Proof.Machine

/-! ## The strings `COBS_DECODE` accepts (R161) -/

namespace Sys2Proof

/-- One whole block: its code byte, then its data bytes (R160). -/
def codedBlock (data : List Byte) : List Byte := BitVec.ofNat 8 (data.length + 1) :: data

theorem codedBlock_take {c : Byte} {rest : List Byte} (hc : c ≠ 0x00#8) (hlen : c.toNat - 1 ≤ rest.length) :
    codedBlock (rest.take (c.toNat - 1)) = c :: rest.take (c.toNat - 1) := by
  have hpos : c.toNat ≠ 0 := fun h => hc (BitVec.eq_of_toNat_eq h)
  have hcode : c.toNat - 1 + 1 = c.toNat := Nat.sub_add_cancel (Nat.pos_of_ne_zero hpos)
  rw [codedBlock, List.length_take_of_le hlen, hcode, BitVec.ofNat_toNat, BitVec.setWidth_eq]

theorem exists_blocks_of_cobsBlocks {fuel : Nat} {e p : List Byte} (h : cobsBlocks fuel e = some p) :
    ∃ blocks : List (List Byte), (∀ b ∈ blocks, b.length ≤ 254) ∧ e = blocks.flatMap codedBlock := by
  fun_induction cobsBlocks fuel e generalizing p with
  | case1 => exact ⟨[], by simp, rfl⟩
  | case2 => cases h
  | case3 => cases h
  | case4 => cases h
  | case5 fuel c rest hc hlen data after zero =>
    rename_i ih
    obtain ⟨out, hout, -⟩ := Option.map_eq_some_iff.1 h
    obtain ⟨blocks, hblocks, hafter⟩ := ih hout
    have hdata : data.length ≤ 254 := by
      have := c.isLt
      simp only [data, List.length_take]
      omega
    refine ⟨data :: blocks, by simpa [hdata] using hblocks, ?_⟩
    rw [List.flatMap_cons, ← hafter, codedBlock_take hc (Nat.le_of_not_lt hlen), List.cons_append,
      List.take_append_drop]

theorem flatMap_codedBlock_ne_nil {blocks : List (List Byte)} (h : blocks ≠ []) :
    blocks.flatMap codedBlock ≠ [] := by
  obtain ⟨b, bs, rfl⟩ := List.exists_cons_of_ne_nil h
  exact List.cons_ne_nil _ _

theorem exists_blocks_of_cobsDecode {e p : List Byte} (h : cobsDecode e = some p) :
    ∃ blocks : List (List Byte), blocks ≠ [] ∧ (∀ b ∈ blocks, b.length ≤ 254) ∧ e = blocks.flatMap codedBlock := by
  unfold cobsDecode at h
  split at h
  · cases h
  · next hne =>
    obtain ⟨blocks, hblocks, he⟩ := exists_blocks_of_cobsBlocks h
    exact ⟨blocks, fun hnil => hne (by rw [he, hnil]; rfl), hblocks, he⟩

theorem cobsDecode_codedBlock {b : List Byte} (hb : b.length ≤ 254) : cobsDecode (codedBlock b) = some b :=
  cobsDecode_last_block hb

theorem cobsDecode_blocks_isSome {blocks : List (List Byte)} (hne : blocks ≠ [])
    (h : ∀ b ∈ blocks, b.length ≤ 254) : (cobsDecode (blocks.flatMap codedBlock)).isSome := by
  induction blocks, hne using List.recNeNil with
  | singleton b =>
    rw [List.forall_mem_singleton] at h
    rw [List.flatMap_singleton, cobsDecode_codedBlock h]
    rfl
  | cons b bs hbs ih =>
    rw [List.forall_mem_cons] at h
    obtain ⟨hb, hrest⟩ := h
    rw [List.flatMap_cons, codedBlock, List.cons_append, cobsDecode_block hb (flatMap_codedBlock_ne_nil hbs),
      Option.isSome_map]
    exact ih hrest

/-- Settles O29: a successful run of the loop reads one block after another, and whole blocks never fail. -/
theorem cobsDecodeFailsExactlyOffBlocks : Obligations.CobsDecodeFailsExactlyOffBlocks := by
  unfold Obligations.CobsDecodeFailsExactlyOffBlocks
  intro e
  constructor
  · rintro ⟨p, h⟩
    exact exists_blocks_of_cobsDecode h
  · rintro ⟨blocks, hne, hlen, rfl⟩
    exact Option.isSome_iff_exists.1 (cobsDecode_blocks_isSome hne hlen)

/-! ## Re-encoding what a zero-free string decodes to (R105, R166) -/

theorem cobsFrom_append {data : List Byte} (hz : 0x00#8 ∉ data) (blk rest : List Byte)
    (h : blk.length + data.length ≤ 253) : cobsFrom blk (data ++ rest) = cobsFrom (blk ++ data) rest := by
  induction data generalizing blk with
  | nil => simp
  | cons x data ih =>
    simp only [List.mem_cons, not_or] at hz
    obtain ⟨hx, hdata⟩ := hz
    simp only [List.length_cons] at h
    have hroom : blk.length + 1 ≠ 254 := by omega
    rw [List.cons_append, cobsFrom, if_neg (Ne.symm hx), if_neg hroom, ih hdata _ (by simp; omega), List.append_assoc,
      List.singleton_append]

/-- Short zero-free data is one block. -/
theorem cobsEncode_of_short {data : List Byte} (hz : 0x00#8 ∉ data) (h : data.length ≤ 253) :
    cobsEncode data = codedBlock data := by
  have hrun := cobsFrom_append hz [] [] (by simpa using h)
  rw [List.append_nil] at hrun
  rw [cobsEncode, hrun]
  rfl

/-- Short zero-free data before a zero is a block of its own. -/
theorem cobsEncode_short_zero {data : List Byte} (hz : 0x00#8 ∉ data) (h : data.length ≤ 253) (rest : List Byte) :
    cobsEncode (data ++ 0x00#8 :: rest) = codedBlock data ++ cobsEncode rest := by
  rw [cobsEncode, cobsFrom_append hz [] _ (by simpa using h), List.nil_append, cobsFrom, if_pos rfl]
  rfl

/-- 254 bytes of zero-free data are a block that stands for no zero. -/
theorem cobsEncode_full {data : List Byte} (hz : 0x00#8 ∉ data) (h : data.length = 254) (rest : List Byte) :
    cobsEncode (data ++ rest) = codedBlock data ++ cobsEncode rest := by
  obtain ⟨init, x, rfl⟩ := (List.eq_nil_or_concat' data).resolve_left (by rintro rfl; cases h)
  simp only [List.mem_append, List.mem_singleton, not_or] at hz
  obtain ⟨hinit, hx⟩ := hz
  have hlen : init.length = 253 := by simpa using h
  rw [List.append_assoc, cobsEncode, cobsFrom_append hinit [] _ (by simp [hlen]), List.nil_append,
    List.singleton_append, cobsFrom, if_neg (Ne.symm hx), if_pos (by rw [hlen]), codedBlock, h]
  rfl

/-- A block that another one follows, re-encoded: the zero it stands for ends it, unless it is full. -/
theorem cobsEncode_block {data : List Byte} (hz : 0x00#8 ∉ data) (h : data.length ≤ 254) (rest : List Byte) :
    cobsEncode (data ++ (if data.length < 254 then [0x00#8] else []) ++ rest) = codedBlock data ++ cobsEncode rest := by
  split
  · next hshort =>
    rw [List.append_assoc, List.singleton_append, cobsEncode_short_zero hz (Nat.le_of_lt_succ hshort)]
  · next hfull => rw [List.append_nil, cobsEncode_full hz (by omega)]

/-- `COBS` gives back a zero-free string from what it decodes to, but for an empty block behind a full last one. -/
theorem cobsEncode_of_cobsDecode {e p : List Byte} (hz : 0x00#8 ∉ e) (h : cobsDecode e = some p) :
    cobsEncode p = e ∨ cobsEncode p = e ++ [0x01#8] := by
  obtain ⟨blocks, hne, hlen, rfl⟩ := exists_blocks_of_cobsDecode h
  induction blocks, hne using List.recNeNil generalizing p with
  | singleton b =>
    rw [List.forall_mem_singleton] at hlen
    simp only [List.flatMap_singleton] at h hz ⊢
    rw [cobsDecode_codedBlock hlen] at h
    cases h
    have hb : 0x00#8 ∉ b := fun hm => hz (List.mem_cons_of_mem _ hm)
    rcases Nat.lt_or_eq_of_le hlen with hshort | hfull
    · exact .inl (cobsEncode_of_short hb (Nat.le_of_lt_succ hshort))
    · have hrun := cobsEncode_full hb hfull []
      rw [List.append_nil] at hrun
      exact .inr hrun
  | cons b bs hbs ih =>
    rw [List.forall_mem_cons] at hlen
    obtain ⟨hb, hrest⟩ := hlen
    rw [List.flatMap_cons, List.mem_append, not_or] at hz
    obtain ⟨hzb, hzbs⟩ := hz
    have hdec := cobsDecode_block hb (flatMap_codedBlock_ne_nil hbs)
    obtain ⟨out, hout, hp⟩ := Option.map_eq_some_iff.1 (hdec.symm.trans h)
    rw [← hp, cobsEncode_block (fun hm => hzb (List.mem_cons_of_mem _ hm)) hb, List.flatMap_cons, List.append_assoc]
    exact (ih hrest hzbs hout).imp (congrArg _) (congrArg _)

theorem cobsDecode_of_decodeFrame {e : List Byte} {i : Instr} (h : decodeFrame .standard e = .ok i) :
    cobsDecode e = some (payload i) := by
  unfold decodeFrame at h
  split at h
  · cases h
  · split at h
    · cases h
    · next p hp => rw [hp, eq_payload_of_deser h]

/-- Two zero-free strings of one length that decode to one command are one string: their payload is stuffed once. -/
theorem eq_encode_of_decodeFrame {e : List Byte} {i : Instr} (hz : 0x00#8 ∉ e) (hlen : e.length = (encode i).length)
    (h : decodeFrame .standard e = .ok i) : e = encode i := by
  rcases cobsEncode_of_cobsDecode hz (cobsDecode_of_decodeFrame h) with he | he
  · exact he.symm
  · have := congrArg List.length he
    rw [← encode, ← hlen, List.length_append] at this
    simp at this

/-- Settles O33: the corrupted string is zero-free and no longer, so it would have to be the string sent. -/
theorem corruptFrameNeverDecodesTheSame : Obligations.CorruptFrameNeverDecodesTheSame := by
  unfold Obligations.CorruptFrameNeverDecodesTheSame
  intro i k b _ hk hb0 hne hdec
  have hz : 0x00#8 ∉ (encode i).set k b := fun hm =>
    (List.mem_or_eq_of_mem_set hm).elim (stuffedPartIsZeroFree.1 (payload i)) (Ne.symm hb0)
  have hsame := eq_encode_of_decodeFrame hz List.length_set hdec
  have hkth : ((encode i).set k b)[k]? = (encode i)[k]? := by rw [hsame]
  rw [List.getElem?_set_self hk, List.getElem?_eq_getElem hk] at hkth
  exact hne (Option.some.inj hkth)

end Sys2Proof

/-! ## What a tick and a launch play (R188 to R196, R200) -/

namespace Sys2Proof.Machine

/-! ### A tick, by where it finds the block -/

theorem act_tick_of_ready {s : State} (hr : ready s = true) (hm : s.tmrMode ≠ .off) : act .tick s = tickHandler s :=
  act_enabled (by simp [enabled, hr, hm])

theorem expireOneshot_of_draining {s : State} (hm : s.tmrMode = .draining) :
    expireOneshot s = { s with tmrMode := .off } :=
  if_pos hm

theorem expireOneshot_of_periodic {s : State} (hm : s.tmrMode = .periodic) : expireOneshot s = s :=
  if_neg (by simp [hm])

theorem tickHandler_of_idle {s : State} (hrun : s.isRunning = false) : tickHandler s = .next (expireOneshot s) := by
  simp [tickHandler, tickBody, hrun]

theorem act_tick_of_idle {s : State} (hr : ready s = true) (hm : s.tmrMode ≠ .off) (hrun : s.isRunning = false) :
    act .tick s = .next (expireOneshot s) :=
  (act_tick_of_ready hr hm).trans (tickHandler_of_idle hrun)

theorem act_tick_of_running {s : State} (hr : ready s = true) (hm : s.tmrMode = .periodic) (hrun : s.isRunning = true) :
    act .tick s = if s.fracnRem = 0#32 then stepSeq .tick s else applyNext s := by
  rw [act_tick_of_ready hr (by simp [hm]), tickHandler, expireOneshot_of_periodic hm]
  simp [tickBody, hrun]

/-- The tick after a run's last value is a `step` (R200). -/
theorem act_tick_after_run {s : State} (hhalt : s.halted = false) (hph : s.phase = .normal) (hm : s.tmrMode = .periodic)
    (hrun : s.isRunning = true) (hrem : s.fracnRem = 0#32) : act .tick s = stepSeq .tick s := by
  rw [act_tick_of_running (ready_iff.2 ⟨hhalt, hph⟩) hm hrun, if_pos hrem]

/-- What the application of the value `v` leaves (R200). -/
def nextValue (v : U16) (s : State) : State :=
  emit (.synSetFractional v)
    { s with fracnI := BitVec.ofNat 32 (s.fracnI.toNat + 1), fracnRem := BitVec.ofNat 32 (s.fracnRem.toNat - 1) }

theorem nextValue_fracnI {v : U16} {s : State} (hlt : s.fracnI.toNat + 1 < 2 ^ 32) :
    (nextValue v s).fracnI.toNat = s.fracnI.toNat + 1 :=
  (BitVec.toNat_ofNat _ _).trans (Nat.mod_eq_of_lt hlt)

/-- A 32-bit count of ticks, less one, does not wrap. -/
theorem toNat_pred (n : U32) : (BitVec.ofNat 32 (n.toNat - 1)).toNat = n.toNat - 1 :=
  (BitVec.toNat_ofNat _ _).trans (Nat.mod_eq_of_lt (by have := n.isLt; omega))

theorem nextValue_fracnRem (v : U16) (s : State) : (nextValue v s).fracnRem.toNat = s.fracnRem.toNat - 1 :=
  toNat_pred s.fracnRem

/-- A tick inside a run applies the next value (R200). -/
theorem act_tick_in_run {s : State} {v : U16} (hhalt : s.halted = false) (hph : s.phase = .normal)
    (hm : s.tmrMode = .periodic) (hrun : s.isRunning = true) (hrem : s.fracnRem ≠ 0#32)
    (hlt : s.fracnI.toNat + 1 < 2 ^ 32) (hv : s.slotA.fracn[s.fracnI.toNat + 1]? = some v) :
    act .tick s = .next (nextValue v s) := by
  rw [act_tick_of_running (ready_iff.2 ⟨hhalt, hph⟩) hm hrun, if_neg hrem]
  exact applyNext_eq hv hlt

theorem act_lock_of_waiting {s : State} {o : Origin} {c : PllChange} (hhalt : s.halted = false)
    (hph : s.phase = .lockWait o c) : act .lock s = .next (lockDone c s) := by
  have hen : enabled .lock s = true := by simp [enabled, hhalt, hph]
  simp [act_enabled hen, fire, lockStep, hph]

/-- Settles O48: the lock wait holds the change whose period the timer gets. -/
theorem lockArmsTheTimer : Obligations.LockArmsTheTimer := by
  unfold Obligations.LockArmsTheTimer
  intro s o c hhalt hph
  exact act_lock_of_waiting hhalt hph

/-- Settles O49: such a tick is the one-shot's expiry alone. -/
theorem staleTickChangesOnlyTheTimer : Obligations.StaleTickChangesOnlyTheTimer := by
  unfold Obligations.StaleTickChangesOnlyTheTimer
  intro s hhalt hph hoff hrun
  rw [act_tick_of_idle (ready_iff.2 ⟨hhalt, hph⟩) hoff hrun]
  exact ⟨fun hm => by rw [expireOneshot_of_draining hm], fun hm => by rw [expireOneshot_of_periodic hm]⟩

/-- Settles O50. -/
theorem tickAppliesTheNextValue : Obligations.TickAppliesTheNextValue := by
  unfold Obligations.TickAppliesTheNextValue
  intro s v hhalt hph hm hrun hrem hlt hv
  exact ⟨_, act_tick_in_run hhalt hph hm hrun hrem hlt hv, nextValue_fracnI hlt, nextValue_fracnRem v s, rfl, rfl⟩

theorem acts_disabled {a : Action} {s : State} (h : enabled a s = false) (n : Nat) :
    acts (List.replicate n a) s = .next s := by
  induction n with
  | zero => rfl
  | succ n ih => rw [List.replicate_succ, acts, act_disabled h, andThen_next, ih]

/-- Settles O56: the first expiry switches the timer off, and no tick is enabled then. -/
theorem atMostOneExpiryAfterStop : Obligations.AtMostOneExpiryAfterStop := by
  unfold Obligations.AtMostOneExpiryAfterStop
  intro s t hhalt hph hrun ht n
  cases (ht : Host.Outcome.next (stop s) = .next t)
  have hm : (stop s).tmrMode = .draining := by simp [hrun]
  have hr : ready (stop s) = true := by simp [ready_iff, hhalt, hph]
  have hfirst : act .tick (stop s) = .next { stop s with tmrMode := .off } := by
    rw [act_tick_of_idle hr (by rw [hm]; decide) (by simp), expireOneshot_of_draining hm]
  rw [List.replicate_succ, acts, hfirst, andThen_next]
  exact acts_disabled (by simp [enabled]) n

/-! ### `step`, by the change it selects -/

theorem stepSeq_of_no_overrun {s : State} (o : Origin) (h : (atBoundary s && overrunFaults s) = false) :
    stepSeq o s = playCurrent o (advance s) := by
  simp [stepSeq, h]

theorem stepSeq_of_overrun {s : State} (o : Origin) (hb : atBoundary s = true) (hu : s.uploading = true)
    (hpol : s.config.overrun = .fault) : stepSeq o s = .next (raiseFault .uploadOverrun s) := by
  simp [stepSeq, hb, overrunFaults_iff.2 ⟨hu, hpol⟩]

/-- Away from a boundary `step` goes to the next change (R192). -/
theorem stepSeq_of_not_boundary {s : State} (o : Origin) (hb : atBoundary s = false) :
    stepSeq o s = playCurrent o { s with pllchangei := s.pllchangei + 1 } := by
  rw [stepSeq_of_no_overrun o (by simp [hb]), advance_of_not_boundary hb]

theorem NoSwapAhead.no_overrun {s : State} (h : NoSwapAhead s) : overrunFaults s = false := by
  rcases h with ⟨-, hpol⟩ | ⟨hu, -⟩
  · simp [overrunFaults, hpol]
  · simp [overrunFaults, hu]

theorem NoSwapAhead.not_pending {s : State} (h : NoSwapAhead s) : pendingUpload s = false := by
  rcases h with ⟨hu, -⟩ | ⟨-, hB⟩
  · simp [pendingUpload, hu]
  · simp [pendingUpload, hB]

/-- At a boundary with no swap ahead `step` goes to the first change (R191, R192, R202). -/
theorem stepSeq_of_noSwapAhead {s : State} (o : Origin) (hb : atBoundary s = true) (hno : NoSwapAhead s) :
    stepSeq o s = playCurrent o { s with pllchangei := 0 } := by
  rw [stepSeq_of_no_overrun o (by simp [hno.no_overrun]), advance_of_no_swap hb hno.not_pending]

/-- At a boundary with a pending upload `step` goes to the first change of the back slot, now active (R191, R192). -/
theorem stepSeq_of_pending {s : State} (o : Origin) (hb : atBoundary s = true) (hu : s.uploading = false)
    (hB : s.slotB.pll ≠ []) : stepSeq o s = playCurrent o { swap s with pllchangei := 0 } := by
  rw [stepSeq_of_no_overrun o (by simp [overrunFaults, hu]), advance_of_swap hb (pendingUpload_iff.2 ⟨hu, hB⟩)]

theorem playCurrent_of_failsWith {o : Origin} {s : State} {c : PllChange} {code : FaultCode}
    (hc : s.changeAt s.pllchangei = some c) (hf : FailsWith c s.slotA code) :
    playCurrent o s = .next (raiseFault code s) := by
  rcases hf with ⟨hbad, rfl⟩ | ⟨h1, h2, hz, rfl⟩
  · refine playCurrent_of_invalid hc (Bool.eq_false_iff.2 fun hv => ?_)
    obtain ⟨h1, h2⟩ := changeValid_iff.1 hv
    omega
  · exact playCurrent_of_zeroPeriod hc (changeValid_iff.2 ⟨h1, h2⟩) hz

/-- A selected change that can be played, and its first value: the counterpart of `FailsWith` (R194, R195). -/
def PlaysWith (c : PllChange) (slot : Slot) (v : U16) : Prop :=
  changeValid c slot = true ∧ c.timUs ≠ 0#32 ∧ slot.fracn[c.startTick.toNat]? = some v

theorem playCurrent_of_playsWith {o : Origin} {s : State} {c : PllChange} {v : U16}
    (hc : s.changeAt s.pllchangei = some c) (hp : PlaysWith c s.slotA v) :
    playCurrent o s = .next (programChange o c v s) := by
  obtain ⟨hv, hz, hval⟩ := hp
  exact playCurrent_of_valid hc hv hz hval

theorem changeAt_first {s : State} {c : PllChange} {cs : List PllChange} (h : s.slotA.pll = c :: cs) :
    s.changeAt 0 = some c :=
  changeAt_eq_some.2 ⟨Int.le_refl 0, by simp [h]⟩

theorem atBoundary_at_end {s : State} (h : (s.slotA.pll.length : Int) ≤ s.pllchangei + 1) : atBoundary s = true :=
  atBoundary_iff.2 (.inr h)

/-- A block that plays a change other than the last is at no boundary (R190). -/
theorem not_atBoundary_of_next {s : State} {c : PllChange} (h0 : 0 ≤ s.pllchangei)
    (hc : s.slotA.pll[(s.pllchangei + 1).toNat]? = some c) : atBoundary s = false := by
  have hlt := (List.getElem?_eq_some_iff.1 hc).1
  refine Bool.eq_false_iff.2 fun hb => ?_
  rcases atBoundary_iff.1 hb with ⟨hneg, -⟩ | hend <;> omega

/-- The swap touches the slots and `active` only. -/
theorem swap_frame (s : State) : { swap s with slot0 := s.slot0, slot1 := s.slot1, active := s.active } = s :=
  congrArg (fun t : State => { t with slot0 := s.slot0, slot1 := s.slot1, active := s.active })
    (setB_frame { s with active := s.active.other } .empty)

/-! ### The tick after a run's last value -/

/-- Settles O51. -/
theorem tickStepsToTheNextChange : Obligations.TickStepsToTheNextChange := by
  unfold Obligations.TickStepsToTheNextChange
  intro s c v hhalt hph hm hrun hrem h0 hc h1 h2 hz hval
  have hcur : s.changeAt (s.pllchangei + 1) = some c := changeAt_eq_some.2 ⟨by omega, hc⟩
  have htick : act .tick s = .next (programChange .tick c v { s with pllchangei := s.pllchangei + 1 }) := by
    rw [act_tick_after_run hhalt hph hm hrun hrem, stepSeq_of_not_boundary _ (not_atBoundary_of_next h0 hc)]
    exact playCurrent_of_playsWith hcur ⟨changeValid_iff.2 ⟨h1, h2⟩, hz, hval⟩
  exact ⟨_, htick, rfl, rfl, toNat_pred _, rfl, rfl, rfl⟩

/-- Settles O52. -/
theorem tickThatCannotPlayHalts : Obligations.TickThatCannotPlayHalts := by
  unfold Obligations.TickThatCannotPlayHalts
  intro s c hhalt hph hm hrun hrem h0 hc
  have hcur : s.changeAt (s.pllchangei + 1) = some c := changeAt_eq_some.2 ⟨by omega, hc⟩
  have htick (code : FaultCode) (hf : FailsWith c s.slotA code) :
      act .tick s = .next (raiseFault code { s with pllchangei := s.pllchangei + 1 }) := by
    rw [act_tick_after_run hhalt hph hm hrun hrem, stepSeq_of_not_boundary _ (not_atBoundary_of_next h0 hc)]
    exact playCurrent_of_failsWith hcur hf
  exact ⟨fun hbad => htick _ (.inl ⟨hbad, rfl⟩), fun h1 h2 hz => htick _ (.inr ⟨h1, h2, hz, rfl⟩)⟩

/-- Settles O53: the first change is selected again. -/
theorem boundaryWithoutSwapReplaysTheProgram : Obligations.BoundaryWithoutSwapReplaysTheProgram := by
  unfold Obligations.BoundaryWithoutSwapReplaysTheProgram
  intro s c cs v hhalt hph hm hrun hrem hend hno hA h1 h2 hz hval
  have htick : act .tick s = .next (programChange .tick c v { s with pllchangei := 0 }) := by
    rw [act_tick_after_run hhalt hph hm hrun hrem, stepSeq_of_noSwapAhead _ (atBoundary_at_end hend) hno]
    exact playCurrent_of_playsWith (changeAt_first hA) ⟨changeValid_iff.2 ⟨h1, h2⟩, hz, hval⟩
  exact ⟨_, htick, rfl, rfl, toNat_pred _, rfl, rfl, rfl⟩

/-- After the swap the uploaded program's first change is the selected one. -/
theorem changeAt_first_of_swap {s : State} {c : PllChange} {cs : List PllChange} (hB : s.slotB.pll = c :: cs) :
    (swap s).changeAt 0 = some c :=
  changeAt_first (by rw [swap_slotA, hB])

/-- A pending upload that can be played is swapped in and programmed (R191, R195). -/
theorem stepSeq_pending_plays {s : State} {c : PllChange} {cs : List PllChange} {v : U16} (o : Origin)
    (hb : atBoundary s = true) (hu : s.uploading = false) (hB : s.slotB.pll = c :: cs) (hp : PlaysWith c s.slotB v) :
    stepSeq o s = .next (programChange o c v { swap s with pllchangei := 0 }) := by
  rw [stepSeq_of_pending o hb hu (by simp [hB])]
  rw [← swap_slotA] at hp
  exact playCurrent_of_playsWith (changeAt_first_of_swap hB) hp

/-- A pending upload that cannot be played is swapped in before the fault (R191, R263). -/
theorem stepSeq_pending_fails {s : State} {c : PllChange} {cs : List PllChange} {code : FaultCode} (o : Origin)
    (hb : atBoundary s = true) (hu : s.uploading = false) (hB : s.slotB.pll = c :: cs)
    (hf : FailsWith c s.slotB code) : stepSeq o s = .next (raiseFault code { swap s with pllchangei := 0 }) := by
  rw [stepSeq_of_pending o hb hu (by simp [hB])]
  rw [← swap_slotA] at hf
  exact playCurrent_of_failsWith (changeAt_first_of_swap hB) hf

/-- Settles O54. -/
theorem pendingUploadSwapsAtTheBoundary : Obligations.PendingUploadSwapsAtTheBoundary := by
  unfold Obligations.PendingUploadSwapsAtTheBoundary
  intro s c cs v hhalt hph hm hrun hrem hend hu hB h1 h2 hz hval
  have htick := (act_tick_after_run hhalt hph hm hrun hrem).trans
    (stepSeq_pending_plays .tick (atBoundary_at_end hend) hu hB ⟨changeValid_iff.2 ⟨h1, h2⟩, hz, hval⟩)
  refine ⟨_, htick, swap_active s, swap_slotA s, swap_slotB s, rfl, rfl, toNat_pred _, rfl, by simp, ?_⟩
  exact congrArg (fun t : State => { t with pllchangei := s.pllchangei, fracnI := s.fracnI, fracnRem := s.fracnRem,
                                            phase := s.phase, trace := s.trace }) (swap_frame s)

/-- Settles O55. -/
theorem openUploadFaultsUnderPolicyFault : Obligations.OpenUploadFaultsUnderPolicyFault := by
  unfold Obligations.OpenUploadFaultsUnderPolicyFault
  intro s hhalt hph hm hrun hrem hend hu hpol
  rw [act_tick_after_run hhalt hph hm hrun hrem]
  exact stepSeq_of_overrun .tick (atBoundary_at_end hend) hu hpol

/-- A program that is empty after the choice of the next change (R193), with no swap ahead. -/
theorem stepSeq_empty {s : State} (o : Origin) (hA : s.slotA.pll = []) (hb : atBoundary s = true)
    (hno : NoSwapAhead s) : stepSeq o s = .next (raiseFault .emptyProgram { s with pllchangei := 0 }) := by
  rw [stepSeq_of_noSwapAhead o hb hno]
  exact playCurrent_of_empty hA

/-- What the fault after a swap leaves (R263): the swap stands, and the rest is the fault's. -/
theorem raiseFault_swap_frame (code : FaultCode) (s : State) :
    ({ raiseFault code { swap s with pllchangei := 0 } with
        slot0 := s.slot0, slot1 := s.slot1, active := s.active } : State) =
      raiseFault code { s with pllchangei := 0 } :=
  congrArg (fun t : State => raiseFault code { t with pllchangei := 0 }) (swap_frame s)

/-- Settles O59. -/
theorem tickAtBoundaryThatCannotPlayHalts : Obligations.TickAtBoundaryThatCannotPlayHalts := by
  unfold Obligations.TickAtBoundaryThatCannotPlayHalts
  intro s hhalt hph hm hrun hrem hend halts
  have hb := atBoundary_at_end hend
  rw [act_tick_after_run hhalt hph hm hrun hrem]
  refine ⟨fun hA hno => stepSeq_empty .tick hA hb hno, fun c cs code hno hA hf => ?_, fun c cs code hu hB hf => ?_⟩
  · rw [stepSeq_of_noSwapAhead _ hb hno]
    exact playCurrent_of_failsWith (changeAt_first hA) hf
  · exact ⟨_, stepSeq_pending_fails .tick hb hu hB hf, swap_active s, swap_slotA s, swap_slotB s,
      raiseFault_swap_frame code s⟩

/-! ### The launch that cannot play -/

theorem restart_eq (s : State) :
    restart s = { s with pllchangei := -1, isRunning := true,
                         tmrMode := if s.isRunning then .draining else s.tmrMode,
                         trace := s.trace ++ if s.isRunning then [.tmrStartOneshotThenStop] else [] } := by
  cases hrun : s.isRunning <;> simp [restart, stop, hrun, setRunning, emit]

theorem atBoundary_restart_iff {s : State} :
    atBoundary (restart s) = true ↔ s.config.launchIsBoundary = true ∨ s.slotA.pll = [] := by
  simp [atBoundary_iff]

theorem NoSwapAhead.restart {s : State} (h : NoSwapAhead s) : NoSwapAhead (restart s) := by
  simpa [NoSwapAhead] using h

/-- Where no swap happens, a launch selects the first change of the active slot, be it a boundary or not (R192,
R204). -/
theorem stepSeq_restart_of_noSwap {s : State} {c : PllChange} {cs : List PllChange}
    (hno : s.config.launchIsBoundary = true → NoSwapAhead s) (hA : s.slotA.pll = c :: cs) :
    stepSeq .fg (restart s) = playCurrent .fg { restart s with pllchangei := 0 } := by
  cases hl : s.config.launchIsBoundary with
  | true => exact stepSeq_of_noSwapAhead .fg (atBoundary_restart_iff.2 (.inl hl)) (hno hl).restart
  | false =>
    have hb : atBoundary (restart s) = false := Bool.eq_false_iff.2 fun hb => by
      simp [atBoundary_restart_iff, hl, hA] at hb
    exact stepSeq_of_not_boundary .fg hb

/-- Settles O44: the launch is the `step` of the restarted block, and each clause is a way of that `step` to fault. -/
theorem startNowThatCannotPlayHalts : Obligations.StartNowThatCannotPlayHalts := by
  unfold Obligations.StartNowThatCannotPlayHalts
  intro s boundary noSwap halts
  have hexec : exec .startNow s = stepSeq .fg (restart s) := rfl
  have hhalts (i : Int) (code : FaultCode) : raiseFault code { restart s with pllchangei := i } = halts i code := by
    rw [restart_eq]
    rfl
  rw [hexec]
  refine ⟨fun hb hu hpol => ?_, fun hA hno => ?_, fun c cs code hno hA hf => ?_, fun c cs code hb hu hB hf => ?_⟩
  · rw [stepSeq_of_overrun .fg (atBoundary_restart_iff.2 hb) (by simpa using hu) (by simpa using hpol), ← hhalts]
    rfl
  · rw [stepSeq_empty .fg (by simpa using hA) (atBoundary_restart_iff.2 (.inr hA)) hno.restart, hhalts]
  · rw [stepSeq_restart_of_noSwap hno hA, ← hhalts]
    rw [← restart_slotA] at hA hf
    exact playCurrent_of_failsWith (changeAt_first hA) hf
  · rw [← restart_slotB] at hB hf
    have hframe := (raiseFault_swap_frame code (restart s)).trans (hhalts 0 code)
    rw [restart_slot0, restart_slot1, restart_active] at hframe
    refine ⟨_, stepSeq_pending_fails .fg (atBoundary_restart_iff.2 hb) (by simpa using hu) hB hf, ?_, ?_,
      swap_slotB (restart s), hframe⟩
    · exact (swap_active (restart s)).trans (by rw [restart_active])
    · exact (swap_slotA (restart s)).trans (restart_slotB s)

end Sys2Proof.Machine

/-! ## The runs of a program, tick after tick (R199, R201) -/

namespace Sys2Proof.Machine

theorem playTicks_succ (n : Nat) (s : State) : playTicks (n + 1) s = andThen (tickAndLock s) (playTicks n) := rfl

theorem playTicks_one (s : State) : playTicks 1 s = tickAndLock s := by
  rw [playTicks_succ]
  cases tickAndLock s <;> rfl

theorem playTicks_add {m : Nat} {s t : State} (h : playTicks m s = .next t) (n : Nat) :
    playTicks (m + n) s = playTicks n t := by
  induction m generalizing s with
  | zero => cases h; rw [Nat.zero_add]
  | succ m ih =>
    obtain ⟨u, hu, ht⟩ := andThen_eq_next.1 h
    rw [Nat.succ_add, playTicks_succ, hu, andThen_next, ih ht]

/-- A tick that ends outside a lock wait has no lock to wait for. -/
theorem tickAndLock_of_normal {s t : State} (ht : act .tick s = .next t) (hph : t.phase = .normal) :
    tickAndLock s = .next t := by
  rw [tickAndLock, ht, andThen_next, act_disabled (by simp [enabled, hph])]

theorem tickAndLock_of_waiting {s t : State} {o : Origin} {c : PllChange} (ht : act .tick s = .next t)
    (hhalt : t.halted = false) (hph : t.phase = .lockWait o c) : tickAndLock s = .next (lockDone c t) := by
  rw [tickAndLock, ht, andThen_next, act_lock_of_waiting hhalt hph]

/-- Settles O57, by induction on the number of ticks: one applies the next value, and the others go on from there. -/
theorem ticksApplyTheRunInOrder : Obligations.TicksApplyTheRunInOrder := by
  unfold Obligations.TicksApplyTheRunInOrder
  intro s k
  induction k generalizing s with
  | zero => exact fun _ _ _ _ _ _ _ => ⟨s, rfl, rfl, rfl, by simp, rfl⟩
  | succ k ih =>
    intro hhalt hph hrun hm hlen hlast hk
    have hlt : s.fracnI.toNat + 1 < s.slotA.fracn.length := by omega
    have hrem : s.fracnRem ≠ 0#32 := fun hz => by simp [hz] at hk
    obtain ⟨v, hv⟩ : ∃ v, s.slotA.fracn[s.fracnI.toNat + 1] = v := ⟨_, rfl⟩
    have htick := act_tick_in_run hhalt hph hm hrun hrem (by omega) (List.getElem?_eq_some_iff.2 ⟨hlt, hv⟩)
    have hI := nextValue_fracnI (v := v) (s := s) (by omega)
    have hR := nextValue_fracnRem v s
    obtain ⟨t, hplay, htI, htR, htrace, hframe⟩ := ih (nextValue v s) hhalt hph hrun hm hlen
      (by rw [hI, hR]; show _ < s.slotA.fracn.length; omega) (by omega)
    refine ⟨t, ?_, by omega, by omega, ?_, ?_⟩
    · rw [playTicks_succ, tickAndLock_of_normal htick hph, andThen_next, hplay]
    · rw [htrace, hI, List.drop_eq_getElem_cons hlt, hv, List.take_succ_cons, List.map_cons, List.append_cons]
      rfl
    · exact congrArg (fun u : State => { u with fracnI := s.fracnI, fracnRem := s.fracnRem, trace := s.trace }) hframe

/-! ### The values of a run -/

theorem runValues_ne_nil {slot : Slot} {c : PllChange} (hv : changeValid c slot = true) : runValues slot c ≠ [] := by
  obtain ⟨h1, h2⟩ := changeValid_iff.1 hv
  refine List.ne_nil_of_length_pos ?_
  rw [runValues, List.length_take, List.length_drop]
  omega

/-- A list's first entry, and what stands behind it in a longer list. -/
theorem take_one_append_tail {xs ys : List U16} (h : xs ≠ []) : xs.take 1 ++ (xs ++ ys).tail = xs ++ ys := by
  cases xs with
  | nil => exact absurd rfl h
  | cons x xs => rfl

theorem runValues_tail (slot : Slot) (c : PllChange) :
    (runValues slot c).tail = (slot.fracn.drop (c.startTick.toNat + 1)).take (c.forTicks.toNat - 1) := by
  rw [runValues, ← List.drop_one, List.drop_take, List.drop_drop]

/-- The first value of a valid change's run is the one `step` applies (R195). -/
theorem runValues_take_one {slot : Slot} {c : PllChange} {v : U16} (hp : PlaysWith c slot v) :
    (runValues slot c).take 1 = [v] := by
  obtain ⟨hv, -, hval⟩ := hp
  obtain ⟨h1, -⟩ := changeValid_iff.1 hv
  rw [runValues, List.take_take, Nat.min_eq_left h1, List.take_one, List.head?_drop, hval]
  rfl

theorem filterMap_fractional_map (vs : List U16) :
    (vs.map PortEvent.synSetFractional).filterMap PortEvent.fractional = vs := by
  simp [List.filterMap_map, Function.comp_def, PortEvent.fractional]

/-! ### From the first value of one change to the first value of the next -/

/-- `t` with every element that playing a program without a swap may write put back to what it is in `s`. -/
def withPositionOf (s t : State) : State :=
  { t with pllchangei := s.pllchangei, fracnI := s.fracnI, fracnRem := s.fracnRem, tmrReload := s.tmrReload,
           trace := s.trace }

/-- The block has applied the first value of the change `c`, the `i`th of its program, and no other of that run. -/
def AtStartOf (i : Nat) (c : PllChange) (s : State) : Prop :=
  s.pllchangei = i ∧ s.fracnI = c.startTick ∧ s.fracnRem.toNat = c.forTicks.toNat - 1

/-- `d`, the `j`th change of a program, comes after its `i`th one: it is the next or, after the last, the first
(R192, R201). -/
def NextChange (pll : List PllChange) (i j : Nat) (d : PllChange) : Prop :=
  pll[j]? = some d ∧ (j = i + 1 ∨ pll.length = i + 1 ∧ j = 0)

theorem Playing.of_frame {s t : State} (h : Playing s) (hf : withPositionOf s t = s) : Playing t := by
  rw [← hf] at h
  exact h

theorem NoSwapAhead.of_frame {s t : State} (h : NoSwapAhead s) (hf : withPositionOf s t = s) : NoSwapAhead t := by
  rw [← hf] at h
  exact h

theorem withPositionOf_trans {s t u : State} (hst : withPositionOf s t = s) (htu : withPositionOf t u = t) :
    withPositionOf s u = s :=
  (congrArg (withPositionOf s) htu).trans hst

theorem Playing.playsWith {s : State} (h : Playing s) {i : Nat} {c : PllChange} (hc : s.slotA.pll[i]? = some c) :
    ∃ v, PlaysWith c s.slotA v := by
  obtain ⟨-, -, -, -, -, hall⟩ := h
  obtain ⟨hv, hz⟩ := hall c (List.mem_of_getElem? hc)
  obtain ⟨v, hval⟩ := valueAt_of_valid hv
  exact ⟨v, hv, hz, hval⟩

/-- With no swap ahead `step` selects the next change of the program. -/
theorem stepSeq_of_nextChange {s : State} {i j : Nat} {d : PllChange} (o : Origin) (hno : NoSwapAhead s)
    (hi : s.pllchangei = i) (hn : NextChange s.slotA.pll i j d) :
    stepSeq o s = playCurrent o { s with pllchangei := j } := by
  obtain ⟨hd, rfl | ⟨hlen, rfl⟩⟩ := hn
  · rw [stepSeq_of_not_boundary o (not_atBoundary_of_next (by omega) (by rw [hi]; exact hd)), hi]
    rfl
  · exact stepSeq_of_noSwapAhead o (atBoundary_at_end (by omega)) hno

/-- The tick after a run's last value and its lock put the block at the start of the next run. -/
theorem tickAndLock_after_run {s : State} {i j : Nat} {d : PllChange} (hp : Playing s) (hno : NoSwapAhead s)
    (hi : s.pllchangei = i) (hrem : s.fracnRem = 0#32) (hn : NextChange s.slotA.pll i j d) :
    ∃ t, tickAndLock s = .next t ∧ withPositionOf s t = s ∧ AtStartOf j d t ∧
      appliedValues t = appliedValues s ++ (runValues s.slotA d).take 1 := by
  obtain ⟨v, hplays⟩ := hp.playsWith hn.1
  obtain ⟨hhalt, hph, hrun, hm, -⟩ := hp
  have hcur : s.changeAt j = some d := changeAt_eq_some.2 ⟨by omega, hn.1⟩
  have htick : act .tick s = .next (programChange .tick d v { s with pllchangei := j }) := by
    rw [act_tick_after_run hhalt hph hm hrun hrem, stepSeq_of_nextChange _ hno hi hn]
    exact playCurrent_of_playsWith hcur hplays
  refine ⟨_, tickAndLock_of_waiting htick hhalt rfl, ?_, ⟨rfl, rfl, toNat_pred _⟩, ?_⟩
  · calc _ = { s with tmrMode := .periodic, phase := .normal } := rfl
      _ = s := by rw [← hm, ← hph]
  · rw [runValues_take_one hplays, appliedValues, lockDone_trace, programChange_trace, List.append_assoc,
      List.filterMap_append]
    rfl

/-- The ticks of one run, the last of which starts the next one. -/
theorem playTicks_run {s : State} {i j : Nat} {c d : PllChange} (hp : Playing s) (hno : NoSwapAhead s)
    (hc : s.slotA.pll[i]? = some c) (hat : AtStartOf i c s) (hn : NextChange s.slotA.pll i j d) :
    ∃ t, playTicks c.forTicks.toNat s = .next t ∧ withPositionOf s t = s ∧ AtStartOf j d t ∧
      appliedValues t = appliedValues s ++ (runValues s.slotA c).tail ++ (runValues s.slotA d).take 1 := by
  obtain ⟨_, hv, -⟩ := hp.playsWith hc
  obtain ⟨h1, h2⟩ := changeValid_iff.1 hv
  obtain ⟨hi, hI, hR⟩ := hat
  have ⟨hhalt, hph, hrun, hm, hlen, _⟩ := hp
  obtain ⟨u, hplay, -, huR, htrace, hframe⟩ :=
    ticksApplyTheRunInOrder s (c.forTicks.toNat - 1) hhalt hph hrun hm hlen (by rw [hI]; omega) (by omega)
  have hu : withPositionOf s u = s := (congrArg (withPositionOf s) hframe :)
  have hui : u.pllchangei = i := (congrArg State.pllchangei hframe :).trans hi
  have huA : u.slotA = s.slotA := (congrArg State.slotA hframe :)
  obtain ⟨t, hstep, ht, hstart, happ⟩ := tickAndLock_after_run (hp.of_frame hu) (hno.of_frame hu) hui
    (BitVec.eq_of_toNat_eq (by rw [huR, hR]; simp)) (huA ▸ hn)
  refine ⟨t, ?_, withPositionOf_trans hu ht, hstart, ?_⟩
  · rw [← Nat.sub_add_cancel h1, playTicks_add hplay, playTicks_one, hstep]
  · rw [happ, huA, appliedValues, htrace, List.filterMap_append, filterMap_fractional_map, runValues_tail, hI]
    rfl

/-! ### The runs of the rest of a program -/

/-- The ticks of the runs from the change `c` on apply the rest of the loop's values and then the first again. By
induction on the changes behind `c`; the program is `pre ++ c :: rest`, and `f` is its first change. -/
theorem playTicks_rest {rest pre : List PllChange} {c f : PllChange} {s : State} (hp : Playing s) (hno : NoSwapAhead s)
    (hA : s.slotA.pll = pre ++ c :: rest) (hf : s.slotA.pll[0]? = some f) (hat : AtStartOf pre.length c s) :
    ∃ t, playTicks ((c :: rest).map fun d => d.forTicks.toNat).sum s = .next t ∧ withPositionOf s t = s ∧
      AtStartOf 0 f t ∧ appliedValues t =
        appliedValues s ++ ((c :: rest).flatMap (runValues s.slotA)).tail ++ (runValues s.slotA f).take 1 := by
  induction rest generalizing pre c s with
  | nil =>
    obtain ⟨t, hplay, ht⟩ := playTicks_run hp hno (by simp [hA]) hat ⟨hf, .inr ⟨by simp [hA], rfl⟩⟩
    exact ⟨t, by simpa using hplay, by simpa using ht⟩
  | cons d rest ih =>
    have hc : s.slotA.pll[pre.length]? = some c := by simp [hA]
    have hd : s.slotA.pll[pre.length + 1]? = some d := by simp [hA]
    obtain ⟨_, hvc, -⟩ := hp.playsWith hc
    obtain ⟨_, hvd, -⟩ := hp.playsWith hd
    obtain ⟨u, hplay, hu, hstart, happ⟩ := playTicks_run hp hno hc hat ⟨hd, .inl rfl⟩
    have huA : u.slotA = s.slotA := (congrArg State.slotA hu :)
    obtain ⟨t, hrest, ht, hfirst, happ'⟩ := ih (pre := pre ++ [c]) (c := d) (hp.of_frame hu) (hno.of_frame hu)
      (by simp [huA, hA]) (huA ▸ hf) (by simpa using hstart)
    refine ⟨t, ?_, withPositionOf_trans hu ht, hfirst, ?_⟩
    · rw [List.map_cons, List.sum_cons, playTicks_add hplay, hrest]
    · have hvals : (runValues s.slotA d).take 1 ++ ((d :: rest).flatMap (runValues s.slotA)).tail =
          (d :: rest).flatMap (runValues s.slotA) := take_one_append_tail (runValues_ne_nil hvd)
      rw [happ', happ, huA, List.append_assoc _ (List.take 1 _) (List.tail _), hvals, List.flatMap_cons (x := c),
        List.tail_append_of_ne_nil (runValues_ne_nil hvc), List.append_assoc (appliedValues s)]

/-- Settles O58: the loop is the rest of the program from its first change on. -/
theorem loopPlaysEveryRunInOrder : Obligations.LoopPlaysEveryRunInOrder := by
  unfold Obligations.LoopPlaysEveryRunInOrder
  intro s c cs hp hno hA hi hI hR
  have hc : s.slotA.pll[0]? = some c := by simp [hA]
  obtain ⟨_, hv, -⟩ := hp.playsWith hc
  obtain ⟨t, hplay, hf, ⟨hti, htI, htR⟩, happ⟩ := playTicks_rest (pre := []) hp hno hA hc ⟨hi, hI, hR⟩
  have ⟨hhalt, hph, hrun, _⟩ := hp.of_frame hf
  refine ⟨t, by rwa [loopTicks, hA], ?_, hti, htI, BitVec.eq_of_toNat_eq (htR.trans hR.symm),
    (congrArg State.active hf :), (congrArg State.slot0 hf :), (congrArg State.slot1 hf :), hhalt, hph, hrun⟩
  rw [happ, loopValues, hA, List.flatMap_cons,
    List.take_append_of_le_length (List.length_pos_iff.2 (runValues_ne_nil hv))]

end Sys2Proof.Machine

/-! ## The commands (R230 to R242) -/

namespace Sys2Proof.Machine

/-- Settles O45: the launch is the one command that reads a list, and it starts within range. -/
theorem everyCommandHasANextState : Obligations.EveryCommandHasANextState := by
  unfold Obligations.EveryCommandHasANextState
  exact exec_total

/-! ### The launch that plays (R188, R190 to R196) -/

/-- `t` with every element that a launch which plays may write put back to what it is in `s`. -/
def withLaunchOf (s t : State) : State :=
  { t with slot0 := s.slot0, slot1 := s.slot1, active := s.active, pllchangei := s.pllchangei, fracnI := s.fracnI,
           fracnRem := s.fracnRem, isRunning := s.isRunning, phase := s.phase, tmrMode := s.tmrMode, trace := s.trace }

theorem withLaunchOf_restart (s : State) : withLaunchOf s (restart s) = s := by
  rw [restart_eq]
  rfl

/-- The swap and the programming add nothing to what a launch may write. -/
theorem withLaunchOf_swap_played (s : State) (c : PllChange) (v : U16) :
    withLaunchOf s (programChange .fg c v { swap (restart s) with pllchangei := 0 }) = s :=
  calc _ = withLaunchOf s (restart s) := congrArg (withLaunchOf s) (swap_frame (restart s))
    _ = s := withLaunchOf_restart s

/-- Settles O42: the launch is the `step` of the restarted block, which finds the pending upload at a boundary. -/
theorem startNowPlaysThePendingUpload : Obligations.StartNowPlaysThePendingUpload := by
  unfold Obligations.StartNowPlaysThePendingUpload
  intro s c cs v hb hu hB h1 h2 hz hval
  have hplays : PlaysWith c s.slotB v := ⟨changeValid_iff.2 ⟨h1, h2⟩, hz, hval⟩
  have hstep : exec .startNow s = .next (programChange .fg c v { swap (restart s) with pllchangei := 0 }) := by
    rw [← restart_slotB] at hB hplays
    exact stepSeq_pending_plays .fg (atBoundary_restart_iff.2 hb) (by simpa using hu) hB hplays
  refine ⟨_, hstep, by simp, ?_, swap_slotB (restart s), rfl, rfl, toNat_pred _, by simp, rfl, by simp, by simp,
    withLaunchOf_swap_played s c v⟩
  exact (swap_slotA (restart s)).trans (restart_slotB s)

/-- Settles O43: the first change of the active slot is selected, be the launch a boundary or not (R204). -/
theorem startNowReplaysTheActiveSlot : Obligations.StartNowReplaysTheActiveSlot := by
  unfold Obligations.StartNowReplaysTheActiveSlot
  intro s c cs v hno hA h1 h2 hz hval
  have hplays : PlaysWith c s.slotA v := ⟨changeValid_iff.2 ⟨h1, h2⟩, hz, hval⟩
  have hstep : exec .startNow s = .next (programChange .fg c v { restart s with pllchangei := 0 }) := by
    refine (stepSeq_restart_of_noSwap hno hA).trans ?_
    rw [← restart_slotA] at hA hplays
    exact playCurrent_of_playsWith (changeAt_first hA) hplays
  rw [restart_eq] at hstep
  exact ⟨_, hstep, rfl, rfl, toNat_pred _, rfl, rfl, rfl, rfl, rfl⟩

/-! ### The chosen action of a step (R230, R269) -/

/-- Whether an action may happen does not depend on what is chosen to come after it (R266). -/
theorem enabled_with_agenda (a : Action) (s : State) (rest : List Action) :
    enabled a { s with agenda := rest } = enabled a s := by
  cases a <;> rfl

theorem step_of_agenda {s : State} {a : Action} {rest : List Action} (h : s.agenda = a :: rest) :
    step s = act a { s with agenda := rest } := by
  simp [step, takeTurn, nextAction, takeChoice, h]

/-- Settles O12: the agenda's head is the action, and the dispatch of a ready block takes the pending command. -/
theorem stepRunsTheDecodedCommand : Obligations.StepRunsTheDecodedCommand := by
  unfold Obligations.StepRunsTheDecodedCommand
  refine ⟨fun s i rest hhalt hph hagenda hcmd => ?_, fun s a rest hagenda => ?_⟩
  · rw [step_of_agenda hagenda]
    exact act_dispatch_of_ready (ready_iff.2 ⟨hhalt, hph⟩) hcmd
  · rw [step_of_agenda hagenda, act, enabled_with_agenda]

/-! ### Ping and the reserved commands (R231, R238 to R240) -/

/-- Settles O35: the frame is computed, and each of the four arms answers the state it is given. -/
theorem pingAndReservedCommandsDoNothing : Obligations.PingAndReservedCommandsDoNothing := by
  unfold Obligations.PingAndReservedCommandsDoNothing
  exact fun s p => ⟨⟨by decide, rfl⟩, ⟨rfl, rfl⟩, ⟨rfl, rfl⟩, rfl, rfl⟩

/-! ### The commands that write the back slot or `uploading` (R182, R184, R186, R187) -/

/-- A push touches the slots and `uploading` only. -/
theorem push_frame (s : State) (v : Slot) :
    { (setUploading true s).setB v with slot0 := s.slot0, slot1 := s.slot1, uploading := s.uploading } = s :=
  (congrArg (fun t : State => { t with uploading := s.uploading }) (setB_frame (setUploading true s) v) :)

theorem length_usedValues (count : Byte) (values : List U16) :
    (usedValues count values).length = min count.toNat values.length :=
  List.length_take

theorem pushFracn_of_fits {s : State} {vals : List U16} (h : s.slotB.fracn.length + vals.length ≤ s.config.fracnCap) :
    pushFracn vals s = (setUploading true s).setB { fracn := s.slotB.fracn ++ vals, pll := s.slotB.pll } :=
  if_neg (Nat.not_lt.2 h)

theorem pushFracn_of_full {s : State} {vals : List U16} (h : s.config.fracnCap < s.slotB.fracn.length + vals.length) :
    pushFracn vals s = raiseFault .fracnCapacity s :=
  if_pos h

/-- Settles O36: the values that count are the used ones, and the capacity decides before anything is written. -/
theorem pushFracnAppendsItsValuesOrHalts : Obligations.PushFracnAppendsItsValuesOrHalts := by
  unfold Obligations.PushFracnAppendsItsValuesOrHalts
  intro s count values
  obtain ⟨-, hhead, hlength⟩ := Laws.PayloadLength.pushFracn count values
  have hexec : exec (.pushFracn count values) s = .next (pushFracn (usedValues count values) s) := rfl
  rw [hexec, ← length_usedValues]
  refine ⟨fun hwf => ⟨hhead, hlength hwf 66 rfl⟩, fun hfits => ?_, fun hfull => by rw [pushFracn_of_full hfull]; rfl⟩
  rw [pushFracn_of_fits hfits]
  exact ⟨_, rfl, setB_slotB _ _, setB_slotA _ _, setB_uploading _ _, push_frame s _⟩

/-- Settles O37: a `PushFracn` reads its values through `usedValues` only. -/
theorem unusedValueSlotsHaveNoEffect : Obligations.UnusedValueSlotsHaveNoEffect := by
  unfold Obligations.UnusedValueSlotsHaveNoEffect
  intro s count values values' hused
  exact congrArg (fun vals => Host.Outcome.next (pushFracn vals s)) hused

theorem pushPllChange_of_full {s : State} (c : PllChange) (h : s.slotB.pll.length = s.config.pllCap) :
    pushPllChange c s = raiseFault .pllCapacity s :=
  if_pos h

theorem startOverflows_iff {c : PllChange} {s : State} :
    startOverflows c s = true ↔ 2 ^ 32 ≤ c.startTick.toNat + s.slotB.fracn.length := by
  rw [startOverflows, decide_eq_true_iff, rebasedStart]
  omega

theorem pushPllChange_of_overflow {s : State} {c : PllChange} (hroom : s.slotB.pll.length ≠ s.config.pllCap)
    (h : 2 ^ 32 ≤ c.startTick.toNat + s.slotB.fracn.length) : pushPllChange c s = raiseFault .startOverflow s := by
  rw [pushPllChange, if_neg hroom, if_pos (startOverflows_iff.2 h)]

theorem pushPllChange_of_fits {s : State} {c : PllChange} (hroom : s.slotB.pll.length ≠ s.config.pllCap)
    (h : c.startTick.toNat + s.slotB.fracn.length < 2 ^ 32) : pushPllChange c s =
      (setUploading true s).setB { fracn := s.slotB.fracn, pll := s.slotB.pll ++ [rebase c s] } := by
  rw [pushPllChange, if_neg hroom, if_neg fun ho => Nat.not_le.2 h (startOverflows_iff.1 ho)]

/-- An index that fits 32 bits is stored as it is (R184). -/
theorem toNat_rebase_startTick {c : PllChange} {s : State} (h : c.startTick.toNat + s.slotB.fracn.length < 2 ^ 32) :
    (rebase c s).startTick.toNat = c.startTick.toNat + s.slotB.fracn.length :=
  (BitVec.toNat_ofNat _ _).trans (Nat.mod_eq_of_lt h)

/-- Settles O38: the room in the list is checked first, then the index (R274). -/
theorem pushPllChangeAppendsTheRebasedRecordOrHalts : Obligations.PushPllChangeAppendsTheRebasedRecordOrHalts := by
  unfold Obligations.PushPllChangeAppendsTheRebasedRecordOrHalts
  intro s c
  obtain ⟨-, hhead, hlength⟩ := Laws.PayloadLength.pushPllChange c
  have hexec : exec (.pushPllChange c) s = .next (pushPllChange c s) := rfl
  rw [hexec]
  refine ⟨⟨hhead, hlength rfl 17 rfl⟩, fun hroom hfits => ?_, fun hfull => by rw [pushPllChange_of_full c hfull]; rfl,
    fun hroom hover => by rw [pushPllChange_of_overflow hroom hover]; rfl⟩
  rw [pushPllChange_of_fits hroom hfits]
  exact ⟨_, rebase c s, rfl, setB_slotB _ _, toNat_rebase_startTick hfits, rfl, setB_slotA _ _, setB_uploading _ _,
    push_frame s _⟩

theorem clearBuffers_of_idle {s : State} (h : s.isRunning = false) : clearBuffers s = s.setB .empty := by
  simp [clearBuffers, h]

theorem clearBuffers_of_running {s : State} (h : s.isRunning = true) :
    clearBuffers s = raiseFault .clearWhileRunning s :=
  if_pos h

/-- Settles O39: a running block faults before the back slot is written. -/
theorem clearBuffersEmptiesTheBackSlot : Obligations.ClearBuffersEmptiesTheBackSlot := by
  unfold Obligations.ClearBuffersEmptiesTheBackSlot
  intro s
  have hexec : exec .clearBuffers s = .next (clearBuffers s) := rfl
  rw [hexec]
  refine ⟨by decide, fun hidle => ?_, fun hrun => by rw [clearBuffers_of_running hrun]; rfl⟩
  rw [clearBuffers_of_idle hidle]
  exact ⟨_, rfl, setB_slotB _ _, setB_slotA _ _, setB_frame s _⟩

/-- Settles O40: the frame is computed, and the command is one write. -/
theorem uploadDoneClearsUploading : Obligations.UploadDoneClearsUploading := by
  unfold Obligations.UploadDoneClearsUploading
  exact fun s => ⟨by decide, rfl⟩

/-! ### The stop (R189, R203) -/

theorem stop_of_running {s : State} (h : s.isRunning = true) :
    stop s = { s with isRunning := false, tmrMode := .draining, trace := s.trace ++ [.tmrStartOneshotThenStop] } :=
  if_pos h

theorem stop_of_idle {s : State} (h : s.isRunning = false) : stop s = s := by
  simp [stop, h]

/-- Settles O41: the frame is computed, and the two modes are the two cases of `stop`. -/
theorem stopNowDrainsTheTimer : Obligations.StopNowDrainsTheTimer := by
  unfold Obligations.StopNowDrainsTheTimer
  intro s
  exact ⟨by decide, fun hrun => congrArg Host.Outcome.next (stop_of_running hrun),
    fun hidle => congrArg Host.Outcome.next (stop_of_idle hidle)⟩

end Sys2Proof.Machine

/-! ## The agents: when each may step (R262, R266, R270) -/

namespace Sys2Proof.Machine

theorem phase_ne_normal_iff {p : Phase} : p ≠ .normal ↔ ∃ o c, p = .lockWait o c := by
  cases p <;> simp

theorem enabled_lock_iff {s : State} :
    enabled .lock s = true ↔ s.halted = false ∧ ∃ o c, s.phase = .lockWait o c := by
  simp [enabled, ← phase_ne_normal_iff]

/-- Settles O9: `ready` is the condition that the agents other than `LOCK` share. -/
theorem enablingConditionsOfTheAgents : Obligations.EnablingConditionsOfTheAgents := by
  unfold Obligations.EnablingConditionsOfTheAgents
  refine fun s => ⟨?rx, fun n => ?drain, ?dispatch, ?tick, enabled_lock_iff⟩
  case rx => simp [enabled, ready_iff, and_assoc]
  case drain => simp [enabled, ready_iff, and_assoc]
  case dispatch => simp [enabled, ready_iff, and_assoc, Option.isSome_iff_exists]
  case tick => simp [enabled, ready_iff, and_assoc]

/-! ### A block that is not ready: halted, or in a lock wait -/

theorem ready_sendBytes (bytes : List Byte) (s : State) : ready (sendBytes bytes s) = ready s := rfl

theorem enabled_lock_sendBytes (bytes : List Byte) (s : State) :
    enabled .lock (sendBytes bytes s) = enabled .lock s := rfl

theorem sendBytes_nil (s : State) : sendBytes [] s = s := by
  simp [sendBytes]

theorem sendBytes_sendBytes (later bytes : List Byte) (s : State) :
    sendBytes later (sendBytes bytes s) = sendBytes (bytes ++ later) s := by
  simp [sendBytes]

/-- Without a ready block only `LOCK` and the host may act (R266). -/
theorem lock_or_hostSend_of_enabled {a : Action} {s : State} (hr : ready s = false) (ha : enabled a s = true) :
    a = .lock ∨ ∃ bytes, a = .hostSend bytes := by
  cases a with
  | lock => exact .inl rfl
  | hostSend bytes => exact .inr ⟨bytes, rfl⟩
  | rx | drain _ | dispatch | tick => simp [enabled, hr] at ha

/-- Where the block is not ready and `LOCK` does not act, an action only adds the host's bytes to the line, or none. -/
theorem act_of_not_ready {a : Action} {s : State} (hr : ready s = false) (hlock : a = .lock → enabled .lock s = false) :
    ∃ bytes, act a s = .next (sendBytes bytes s) := by
  cases ha : enabled a s with
  | false => exact ⟨[], by rw [act_disabled ha, sendBytes_nil]⟩
  | true =>
    obtain rfl | ⟨bytes, rfl⟩ := lock_or_hostSend_of_enabled hr ha
    · simp [hlock rfl] at ha
    · exact ⟨bytes, act_enabled ha⟩

/-- A list of such actions does the same, as the bytes on the line decide neither premise. -/
theorem acts_of_not_ready {as : List Action} {s : State} (hr : ready s = false)
    (hlock : .lock ∈ as → enabled .lock s = false) : ∃ bytes, acts as s = .next (sendBytes bytes s) := by
  induction as generalizing s with
  | nil => exact ⟨[], by rw [acts, sendBytes_nil]⟩
  | cons a as ih =>
    obtain ⟨bytes, hact⟩ := act_of_not_ready (a := a) hr fun ha => hlock (by simp [ha])
    obtain ⟨later, hacts⟩ := ih ((ready_sendBytes bytes s).trans hr) fun hmem =>
      (enabled_lock_sendBytes bytes s).trans (hlock (List.mem_cons_of_mem a hmem))
    exact ⟨bytes ++ later, by rw [acts, hact, andThen_next, hacts, sendBytes_sendBytes]⟩

/-- The frame of such a list: every element but the line, which is the model's (assumption log 2), is kept. -/
theorem acts_frame_of_not_ready {as : List Action} {s : State} (hr : ready s = false)
    (hlock : .lock ∈ as → enabled .lock s = false) : ∃ t, acts as s = .next t ∧ { t with line := s.line } = s := by
  obtain ⟨bytes, hacts⟩ := acts_of_not_ready hr hlock
  exact ⟨_, hacts, rfl⟩

/-- Settles O10: a halted block is not ready, and `LOCK` is not enabled there either. -/
theorem haltedBlockNeverChanges : Obligations.HaltedBlockNeverChanges := by
  unfold Obligations.HaltedBlockNeverChanges
  refine ⟨fun _ _ => rfl, fun as s hhalt => ?_⟩
  have hr : ready s = false := by simp [ready, hhalt]
  have hlock : enabled .lock s = false := by simp [enabled, hhalt]
  exact acts_frame_of_not_ready hr fun _ => hlock

/-- Settles O11: a block in a lock wait is not ready. -/
theorem lockWaitHoldsEveryOtherAgent : Obligations.LockWaitHoldsEveryOtherAgent := by
  unfold Obligations.LockWaitHoldsEveryOtherAgent
  intro s o c hwait
  have hr : ready s = false := by simp [ready, interruptsEnabled, hwait]
  exact ⟨fun _ => lock_or_hostSend_of_enabled hr, fun _ hmem => acts_frame_of_not_ready hr fun h => absurd h hmem⟩

end Sys2Proof.Machine

/-! ## The end of a run (R303) -/

namespace Sys2Proof.Machine

/-! ### What a foreground step leaves to do -/

theorem enabled_drain_iff {n : Nat} {s : State} :
    enabled (.drain n) s = true ↔ ready s = true ∧ s.pendingCmd = none ∧ 0 < s.ringCount ∧ 1 ≤ n := by
  simp [enabled, and_assoc]

theorem enabled_dispatch_iff {s : State} :
    enabled .dispatch s = true ↔ ready s = true ∧ ∃ i, s.pendingCmd = some i := by
  simp [enabled, Option.isSome_iff_exists]

/-- Neither of the foreground's actions is enabled. -/
def ForegroundIdle (s : State) : Prop := (∀ n, enabled (.drain n) s = false) ∧ enabled .dispatch s = false

/-- A bound on the foreground's steps: each unread byte can be the end of one drain, which can leave one command. -/
def foregroundWork (s : State) : Nat := 2 * s.ringCount + s.pendingCmd.isSome.toNat

theorem foregroundIdle_of_work_eq_zero {s : State} (h : foregroundWork s = 0) : ForegroundIdle s := by
  obtain ⟨hcount, hpend⟩ : s.ringCount = 0 ∧ s.pendingCmd.isSome = false := by simpa [foregroundWork] using h
  exact ⟨fun n => by simp [enabled, hcount], by simp [enabled, hpend]⟩

/-- The drain of all unread bytes stands for every drain: no drain is enabled where there are none. -/
theorem foregroundIdle_of_drain_all {s : State} (hdispatch : enabled .dispatch s = false)
    (hdrain : enabled (.drain s.ringCount) s = false) : ForegroundIdle s := by
  refine ⟨fun n => Bool.eq_false_iff.2 fun hn => ?_, hdispatch⟩
  obtain ⟨hr, hpend, hcount, -⟩ := enabled_drain_iff.1 hn
  exact Bool.eq_false_iff.1 hdrain (enabled_drain_iff.2 ⟨hr, hpend, hcount, hcount⟩)

/-- In a ready block the foreground waits for a command or for bytes, and for nothing else (R266). -/
theorem foregroundIdle_iff_of_ready {s : State} (hr : ready s = true) :
    ForegroundIdle s ↔ s.pendingCmd = none ∧ s.ringCount = 0 := by
  constructor
  · rintro ⟨hdrain, hdispatch⟩
    have hpend : s.pendingCmd = none := by simpa [enabled, hr] using hdispatch
    exact ⟨hpend, by simpa [enabled, hr, hpend] using hdrain 1⟩
  · rintro ⟨hpend, hcount⟩
    exact foregroundIdle_of_work_eq_zero (by simp [foregroundWork, hpend, hcount])

/-- A dispatch takes the pending command, and no command leaves another or writes the ring (R230). -/
theorem foregroundWork_dispatch_lt {s t : State} (hen : enabled .dispatch s = true)
    (h : fire .dispatch s = .next t) : foregroundWork t < foregroundWork s := by
  obtain ⟨hr, i, hpend⟩ := enabled_dispatch_iff.1 hen
  rw [← act_enabled hen, act_dispatch_of_ready hr hpend] at h
  have hcount : t.ringCount = s.ringCount := (congrArg State.ringCount (exec_frame h) :)
  have hnone : t.pendingCmd = none := (congrArg State.pendingCmd (exec_frame h) :)
  simp [foregroundWork, hcount, hnone, hpend]

/-- A drain of a ring that is not empty takes one byte at least (R133, R151). -/
theorem drain_ringCount_lt {n : Nat} {s t : State} (hcount : 0 < s.ringCount) (hn : 1 ≤ n)
    (h : drain n s = .next t) : t.ringCount < s.ringCount := by
  obtain ⟨bytes, u, hread, hlink⟩ := drain_cases h
  obtain ⟨out, htaken, he⟩ := Option.map_eq_some_iff.1 hread
  cases he
  have hlen : 1 ≤ bytes.length := (ringScan_bounds (Nat.lt_min.2 ⟨hn, hcount⟩) htaken).1
  have hleft : t.ringCount = s.ringCount - bytes.length := (congrArg State.ringCount (linkAcceptAll_frame hlink) :)
  omega

/-- The command a drain may leave weighs less than the byte it takes. -/
theorem foregroundWork_drain_lt {n : Nat} {s t : State} (hen : enabled (.drain n) s = true)
    (h : fire (.drain n) s = .next t) : foregroundWork t < foregroundWork s := by
  obtain ⟨-, -, hcount, hn⟩ := enabled_drain_iff.1 hen
  have hlt : t.ringCount < s.ringCount := drain_ringCount_lt hcount hn h
  have hone : t.pendingCmd.isSome.toNat ≤ 1 := Bool.toNat_le _
  unfold foregroundWork
  omega

/-! ### The foreground runs until it is idle -/

theorem runForeground_idle {fuel : Nat} {s t : State} (hfuel : foregroundWork s ≤ fuel)
    (h : runForeground fuel s = .next t) : ForegroundIdle t := by
  induction fuel generalizing s with
  | zero => cases h; exact foregroundIdle_of_work_eq_zero (Nat.le_zero.1 hfuel)
  | succ fuel ih =>
    unfold runForeground at h
    split at h
    · next hdispatch =>
      obtain ⟨u, hu, ht⟩ := andThen_eq_next.1 h
      have := foregroundWork_dispatch_lt hdispatch hu
      exact ih (by omega) ht
    · next hdispatch =>
      split at h
      · next hdrain =>
        obtain ⟨u, hu, ht⟩ := andThen_eq_next.1 h
        have := foregroundWork_drain_lt hdrain hu
        exact ih (by omega) ht
      · next hdrain =>
        cases h
        exact foregroundIdle_of_drain_all (Bool.eq_false_iff.2 hdispatch) (Bool.eq_false_iff.2 hdrain)

theorem foreground_idle {s t : State} (h : foreground s = .next t) : ForegroundIdle t :=
  runForeground_idle (Nat.add_le_add_left (Bool.toNat_le _) _) h

theorem run_idle {lines : List ScenarioLine} {s t : State} (h : run lines s = .next t) : ForegroundIdle t := by
  obtain ⟨u, -, ht⟩ := andThen_eq_next.1 h
  exact foreground_idle ht

/-- The test for the end of a run is R303's condition. -/
theorem runEnded_iff {s : State} : runEnded s = true ↔ s.halted = true ∨ s.phase = .normal ∧ ForegroundIdle s := by
  cases hhalt : s.halted with
  | true => simp [runEnded, hhalt]
  | false =>
    by_cases hphase : s.phase = .normal
    · simp [runEnded, hhalt, hphase, foregroundIdle_iff_of_ready (ready_iff.2 ⟨hhalt, hphase⟩)]
    · simp [runEnded, hhalt, hphase]

/-- Settles O60: after the last line the foreground runs until it is idle, so only a lock wait keeps the run from
ending. -/
theorem runEndsUnlessItWaitsForLock : Obligations.RunEndsUnlessItWaitsForLock := by
  unfold Obligations.RunEndsUnlessItWaitsForLock
  intro lines s t hrun
  have hidle : ForegroundIdle t := run_idle hrun
  by_cases hend : runEnded t = true
  · exact .inl ⟨by simp [runResult, hrun, hend], (runEnded_iff.1 hend).imp_right fun ⟨hphase, _⟩ => ⟨hphase, hidle⟩⟩
  · have hnot : t.halted = false ∧ t.phase ≠ .normal := by simpa [runEnded_iff, hidle] using hend
    exact .inr ⟨by simp [runResult, hrun, hend], hnot.1, phase_ne_normal_iff.1 hnot.2⟩

end Sys2Proof.Machine

/-! ## Reset and the quiescent block (R300, R302) -/

namespace Sys2Proof.Machine

theorem resetState_reset : ResetState State.reset := by
  simp [ResetState, State.reset]

/-- No action leaves the halted state: it only ever adds to the line (R262). -/
theorem act_keeps_halted {a : Action} {s t : State} (hhalt : s.halted = true) (h : act a s = .next t) :
    t.halted = true := by
  obtain ⟨u, hu, hframe⟩ := haltedBlockNeverChanges.2 [a] s hhalt
  rw [acts_singleton, h] at hu
  cases hu
  exact (congrArg State.halted hframe).trans hhalt

/-- Settles O1: each reset value is read off `State.reset`, and the halted state absorbs every action. -/
theorem resetLeavesTheStatedValues : Obligations.ResetLeavesTheStatedValues := by
  unfold Obligations.ResetLeavesTheStatedValues
  exact ⟨resetState_reset, rfl, fun _ _ _ => act_keeps_halted⟩

theorem ResetState.quiescent {s : State} (h : ResetState s) : Quiescent s := by
  obtain ⟨-, -, -, -, -, -, -, -, -, -, hcount, hlen, hovf, hpend, -, hphase, hhalt, -, -, hline⟩ := h
  exact ⟨hhalt, hphase, hcount, hlen, hovf, hpend, hline⟩

/-- Settles O2: a quiescent block is ready, but has no command, no unread byte and no byte on the line. -/
theorem resetStateIsQuiescent : Obligations.ResetStateIsQuiescent := by
  unfold Obligations.ResetStateIsQuiescent
  refine ⟨fun _ => ResetState.quiescent, fun s hq => ?_⟩
  obtain ⟨hhalt, hphase, hcount, -, -, hpend, hline⟩ := hq
  obtain ⟨hdrain, hdispatch⟩ := (foregroundIdle_iff_of_ready (ready_iff.2 ⟨hhalt, hphase⟩)).2 ⟨hpend, hcount⟩
  exact ⟨hdrain, hdispatch, by simp [enabled, hline], hline⟩

end Sys2Proof.Machine

/-! ## The commands that are safe to repeat (R318) -/

namespace Sys2Proof.Machine

theorem setB_setB (s : State) (v w : Slot) : (s.setB v).setB w = s.setB w := by
  unfold State.setB State.setSlot
  cases s.active <;> rfl

/-- A stop leaves an idle block, and a stop of an idle block does nothing (R189). -/
theorem stop_stop (s : State) : stop (stop s) = stop s := by
  cases hrun : s.isRunning with
  | true => rw [stop_of_running hrun, stop_of_idle rfl]
  | false => rw [stop_of_idle hrun, stop_of_idle hrun]

theorem clearBuffers_clearBuffers_of_idle {s : State} (h : s.isRunning = false) :
    clearBuffers (clearBuffers s) = clearBuffers s := by
  have hidle : (s.setB .empty).isRunning = false := (setB_isRunning s .empty).trans h
  rw [clearBuffers_of_idle h, clearBuffers_of_idle hidle, setB_setB]

/-- Settles O47: the stop and the clearing of an idle block are idempotent, `UploadDone` writes a constant, and the
others do nothing. -/
theorem repeatableCommandsAreIdempotent : Obligations.RepeatableCommandsAreIdempotent := by
  unfold Obligations.RepeatableCommandsAreIdempotent
  rintro i s t (rfl | rfl | rfl | ⟨rfl, hidle⟩ | ⟨p, rfl | rfl | rfl⟩) h
  · cases h; rfl
  · cases h; rfl
  · cases h; exact congrArg Host.Outcome.next (stop_stop s)
  · cases h; exact congrArg Host.Outcome.next (clearBuffers_clearBuffers_of_idle hidle)
  · cases h; rfl
  · cases h; rfl
  · cases h; rfl

end Sys2Proof.Machine
